-- ==== Sys2Proof/Word.lean ====
section
/-! DEFINITION. The word types of the MAC engine (spec/00_scope.md R10 to R12, spec/10_state.md R21, R36, R37). -/

namespace Sys2Proof

/-- A byte: bits 7 (most significant) down to 0 (R10). -/
abbrev Byte := BitVec 8

/-- A host word: the width of a scalar register access (R65, R68, R69). -/
abbrev Word := BitVec 32

/-- A 16-byte value read as a 128-bit integer, byte 0 most significant (R12). -/
abbrev Block := BitVec 128

/-- A 32-byte value: a digest, an HMAC tag, the working register `T`, the spaces `TAG` and `CTAG` (R12). -/
abbrev Digest := BitVec 256

/-- A 64-byte value: `K0`, `IPAD`, `OPAD` (R12, R37). -/
abbrev HashBlock := BitVec 512

end Sys2Proof
end

