-- ==== Sys2Proof/Config.lean ====
section
/-! DEFINITION. The parameters the spec leaves to the implementation (spec/00_scope.md R8), the constants it fixes
(R7), and the two free values of the model: the external cipher and the external hash (R9, R44, U1). -/

namespace Sys2Proof

/-- What is attached to the cipher port (R8 `ENC`, R9, R210). -/
inductive CipherPort where
  /-- The reference instantiation, the default of R8 (R219, R220 to R224). -/
  | aes128
  /-- A cipher that rejects every key: it answers `FAIL` always, which R210 and R213 allow. -/
  | failing
  /-- Any function that meets R210 and R211: the free value `Config.externalEnc`. -/
  | external
  deriving DecidableEq, Repr

/-- What is attached to the hash port (R8 `HASH`, R9, R214). -/
inductive HashPort where
  /-- The reference instantiation, the default of R8 (R219, R226 to R230). -/
  | sha256
  /-- A hash that answers `FAIL` always, which R214 and R217 allow. -/
  | failing
  /-- Any function that meets R214 and R215: the free value `Config.externalHash`. -/
  | external
  deriving DecidableEq, Repr

/-- The parameters of one engine instance (R8). `MMAX` and `KMAX` follow from the widths; `BUS_MAP` is read by no
rule (R63, R73); `NINST` is a parameter of the platform (`PlatformConfig`). -/
structure Config where
  /-- `LENW`, the width in bits of `MLEN`. -/
  lenw   : Nat
  /-- `KLENW`, the width in bits of `KLEN`. -/
  klenw  : Nat
  /-- `ENC`. -/
  cipher : CipherPort
  /-- `HASH`. -/
  hash   : HashPort
  deriving DecidableEq, Repr

/-- The default column of R8. -/
def Config.default : Config := { lenw := 32, klenw := 16, cipher := .aes128, hash := .sha256 }

/-- The parameters of a platform (R8): `NINST`, and the parameters its instances are built with. -/
structure PlatformConfig where
  /-- `NINST`. -/
  ninst  : Nat
  engine : Config
  deriving DecidableEq, Repr

/-- The default column of R8. -/
def PlatformConfig.default : PlatformConfig := { ninst := 1, engine := Config.default }

/-- `MMAX`, the size in bytes of the space `MSG` (R8, R29). -/
def Config.mmax (c : Config) : Nat := 2 ^ c.lenw - 1

/-- `KMAX`, the size in bytes of the space `KEY` (R8, R29). -/
def Config.kmax (c : Config) : Nat := 2 ^ c.klenw - 1

/-- FREE VALUE. A block-cipher primitive about which nothing is known but its type: a total, deterministic function
of key and block into a block or `FAIL` (`none`) (R210, R211, R213, R218, U1). -/
opaque Config.externalEnc : Block → Block → Option Block

/-- FREE VALUE. A hash primitive about which nothing is known but its type: a total, deterministic function of a byte
string into a digest or `FAIL` (`none`) (R214, R215, R217, R218, U1). -/
opaque Config.externalHash : List Byte → Option Digest

/-- `RC`, the reduction constant of the doubling (R7). -/
abbrev reductionConstant : Byte := 0x87

/-- `PADB`, the first byte of CMAC padding (R7). -/
abbrev padByte : Byte := 0x80

/-- `IPADC`, the inner pad constant (R7). -/
abbrev innerPadByte : Byte := 0x36

/-- `OPADC`, the outer pad constant (R7). -/
abbrev outerPadByte : Byte := 0x5c

end Sys2Proof
end

