-- ==== Sys2Proof/Syntax.lean ====
section
/-! DEFINITION. The commands (spec/30_encoding.md R80 to R83), the fields of the one format, and the host's actions
(spec/20_memory.md R68 to R71, spec/30_encoding.md R89, spec/44_system_and_sequencer.md R180, R186). -/

namespace Sys2Proof

/-- The seven commands, one constructor per row of spec/opcode_table.json (R83). No command has an operand field:
every operand is an implicit register or byte space (R85). -/
inductive Instr where
  /-- `SIGN.HMAC` (R140). -/
  | signHmac
  /-- `SIGN.CMAC` (R120). -/
  | signCmac
  /-- `VERIFY.HMAC` (R160). -/
  | verifyHmac
  /-- `VERIFY.CMAC` (R166). -/
  | verifyCmac
  /-- `DERIVE.CMAC` (R105). -/
  | deriveCmac
  /-- `DBL` (R103). -/
  | dbl
  /-- `CLEAR` (R198). -/
  | clear
  deriving DecidableEq, Repr

/-- Every command, in the order of the opcode map (R83). -/
def Instr.all : List Instr := [.signHmac, .signCmac, .verifyHmac, .verifyCmac, .deriveCmac, .dbl, .clear]

/-- The operations of R81; the reserved values of `OP` are not among them. -/
inductive Op where
  | sign
  | verify
  | derive
  | dbl
  | clear
  deriving DecidableEq, Repr

/-- The algorithms of R82; the reserved values of `ALG` are not among them. -/
inductive Alg where
  | hmacSha256
  | cmacAes128
  deriving DecidableEq, Repr

/-- The operation of a command (R83). -/
def Instr.op : Instr → Op
  | .signHmac => .sign
  | .signCmac => .sign
  | .verifyHmac => .verify
  | .verifyCmac => .verify
  | .deriveCmac => .derive
  | .dbl => .dbl
  | .clear => .clear

/-- The algorithm of a command; `DBL` and `CLEAR` have none (R82). -/
def Instr.alg : Instr → Option Alg
  | .signHmac => some .hmacSha256
  | .signCmac => some .cmacAes128
  | .verifyHmac => some .hmacSha256
  | .verifyCmac => some .cmacAes128
  | .deriveCmac => some .cmacAes128
  | .dbl => none
  | .clear => none

/-- The three fields of format `C` (R80): bits 31:8, 7:4 and 3:0. -/
structure FormatC where
  zero : BitVec 24
  alg  : BitVec 4
  op   : BitVec 4
  deriving DecidableEq, Repr

/-- The mnemonics of R83 and R88. -/
def Instr.mnemonic : Instr → String
  | .signHmac => "SIGN.HMAC"
  | .signCmac => "SIGN.CMAC"
  | .verifyHmac => "VERIFY.HMAC"
  | .verifyCmac => "VERIFY.CMAC"
  | .deriveCmac => "DERIVE.CMAC"
  | .dbl => "DBL"
  | .clear => "CLEAR"

/-- One thing that can happen next to an engine instance (R16, R180). A list of events fixes how the host, the engine
and reset interleave (R75). -/
inductive Event where
  /-- `HostRd(n)` (R68). -/
  | hostRd (n : Nat)
  /-- `HostWr(n, w)` (R69). -/
  | hostWr (n : Nat) (w : Word)
  /-- `HostRdB(s, i)` (R70). -/
  | hostRdB (sp i : Nat)
  /-- `HostWrB(s, i, b)` (R71). -/
  | hostWrB (sp i : Nat) (b : Byte)
  /-- The engine takes its step, if one is enabled (R180, R183). -/
  | engine
  /-- Reset fires (R270). -/
  | reset
  /-- `WAIT`: the host polls `STATUS` while the engine runs (R89). -/
  | wait
  /-- `READ sp, n`, with `n` the word that the host's last line returned: `RDB sp, 0` to `RDB sp, n-1` (R89, R90). -/
  | read (sp : Nat)
  /-- The write of `w` to `CMD` and the whole command it issues, as the one transition of R186. -/
  | command (w : Word)
  deriving DecidableEq, Repr

/-- What a host read returned. -/
inductive Answer where
  /-- The word of a `HostRd` (R68). -/
  | word (w : Word)
  /-- The byte of a `HostRdB` (R70). -/
  | byte (b : Byte)
  deriving DecidableEq, Repr

end Sys2Proof
end

