-- ==== Sys2Proof/WellFormed.lean ====
section
/-! DEFINITION. What makes a command word legal, check by check (spec/30_encoding.md R80 to R82, R86), and what makes
a configuration legal (spec/00_scope.md R8). -/

namespace Sys2Proof

/-- Why a word is illegal (R86). -/
inductive Illegal where
  /-- Bits 31:8 are not zero (R80). -/
  | zeroField
  /-- `OP` is 0x0 or 0x5 to 0xE (R81). -/
  | reservedOp
  /-- `SIGN` or `VERIFY` with `ALG` 0x2 to 0xF (R82). -/
  | reservedAlg
  /-- `DERIVE` with `ALG` other than 0x1, `DBL` or `CLEAR` with `ALG` other than 0x0 (R82). -/
  | wrongAlg
  deriving DecidableEq, Repr

/-- `OP` is one of the five values of R81. -/
def FormatC.opKnown (f : FormatC) : Bool := [1, 2, 3, 4, 0xF].contains f.op.toNat

/-- `ALG` is one of the two values of R82. -/
def FormatC.algKnown (f : FormatC) : Bool := f.alg.toNat ≤ 1

/-- `ALG` may stand beside `OP` (R82): both algorithms with `SIGN` and `VERIFY`, 0x1 with `DERIVE`, 0x0 with `DBL`
and `CLEAR`. -/
def FormatC.algFits (f : FormatC) : Bool :=
  if f.op.toNat ≤ 2 then true else if f.op.toNat = 3 then f.alg.toNat = 1 else f.alg.toNat = 0

/-- The checks of R86, each naming what it refuses. -/
def FormatC.check (f : FormatC) : Except Illegal Unit :=
  if f.zero ≠ 0 then .error .zeroField
  else if !f.opKnown then .error .reservedOp
  else if f.op.toNat ≤ 2 && !f.algKnown then .error .reservedAlg
  else if !f.algFits then .error .wrongAlg
  else .ok ()

/-- A word's fields pass every check. -/
def FormatC.wellFormed (f : FormatC) : Bool := f.check == .ok ()

/-- The code of an operation in `OP` (R81). -/
def Op.code : Op → BitVec 4
  | .sign => 0x1
  | .verify => 0x2
  | .derive => 0x3
  | .dbl => 0x4
  | .clear => 0xF

/-- The code of an algorithm in `ALG` (R82). -/
def Alg.code : Alg → BitVec 4
  | .hmacSha256 => 0x0
  | .cmacAes128 => 0x1

/-- The fields of a command's word: `DBL` and `CLEAR` carry `ALG = 0x0` (R82). -/
def Instr.format (i : Instr) : FormatC :=
  { zero := 0, alg := (i.alg.map Alg.code).getD 0, op := i.op.code }

/-- A command is well formed when its own fields pass the checks. It has no operands that could be wrong (R85). -/
def Instr.wellFormed (i : Instr) : Bool := i.format.wellFormed

/-- The constraints of R8 on the two widths. -/
def Config.wellFormed (c : Config) : Bool :=
  decide (6 ≤ c.lenw ∧ c.lenw ≤ 32) && decide (7 ≤ c.klenw ∧ c.klenw ≤ 32)

/-- The constraint of R8 on `NINST`, and those on the parameters of the instances. -/
def PlatformConfig.wellFormed (c : PlatformConfig) : Bool := decide (1 ≤ c.ninst) && c.engine.wellFormed

end Sys2Proof
end

