-- ==== Sys2Proof/Decode.lean ====
section
/-! DEFINITION. The decoder, total on every 32-bit word (spec/30_encoding.md R84, R86), and after it the encoder
(R80 to R83). -/

namespace Sys2Proof

/-- The fields of a word (R80): bit 0 is the least significant bit. -/
def FormatC.ofWord (w : Word) : FormatC :=
  { zero := w.extractLsb' 8 24, alg := w.extractLsb' 4 4, op := w.extractLsb' 0 4 }

/-- The `OP` field read (R81). -/
def decodeOp (op : BitVec 4) : Option Op :=
  if op = 0x1 then some .sign
  else if op = 0x2 then some .verify
  else if op = 0x3 then some .derive
  else if op = 0x4 then some .dbl
  else if op = 0xF then some .clear
  else none

/-- The `ALG` field read (R82). -/
def decodeAlg (alg : BitVec 4) : Option Alg :=
  if alg = 0x0 then some .hmacSha256
  else if alg = 0x1 then some .cmacAes128
  else none

/-- The command that an operation and an `ALG` field stand for, or why there is none (R82, R83, R86). -/
def decodeCommand (op : Op) (alg : BitVec 4) : Except Illegal Instr :=
  match op, decodeAlg alg with
  | .sign, some .hmacSha256 => .ok .signHmac
  | .sign, some .cmacAes128 => .ok .signCmac
  | .sign, none => .error .reservedAlg
  | .verify, some .hmacSha256 => .ok .verifyHmac
  | .verify, some .cmacAes128 => .ok .verifyCmac
  | .verify, none => .error .reservedAlg
  | .derive, some .cmacAes128 => .ok .deriveCmac
  | .derive, some .hmacSha256 => .error .wrongAlg
  | .derive, none => .error .wrongAlg
  | .dbl, some .hmacSha256 => .ok .dbl
  | .dbl, some .cmacAes128 => .error .wrongAlg
  | .dbl, none => .error .wrongAlg
  | .clear, some .hmacSha256 => .ok .clear
  | .clear, some .cmacAes128 => .error .wrongAlg
  | .clear, none => .error .wrongAlg

/-- The command that three fields stand for. -/
def decodeFormat (f : FormatC) : Except Illegal Instr :=
  if f.zero ≠ 0 then .error .zeroField
  else match decodeOp f.op with
    | none => .error .reservedOp
    | some op => decodeCommand op f.alg

/-- `decode` (R84): a command, or `ILLEGAL` with the reason. It depends on the word alone. -/
def decode (w : Word) : Except Illegal Instr := decodeFormat (FormatC.ofWord w)

/-- The command of a word, where it is legal. -/
def decode? (w : Word) : Option Instr := (decode w).toOption

/-- The decoder on a word numbered as spec/opcode_table.json numbers it: a command is one 32-bit word written to `CMD`
as a number (R80, R87), so a number that does not fit 32 bits is no command. -/
def decodeTableWord (nbits w : Nat) : Option Instr :=
  if nbits ≤ 32 ∧ w < 2 ^ 32 then decode? (BitVec.ofNat 32 w) else none

/-- The word with these fields (R80). -/
def FormatC.toWord (f : FormatC) : Word := f.zero ++ (f.alg ++ f.op)

/-- The word of a command (R83). -/
def encode (i : Instr) : Word := i.format.toWord

/-- The command written with this mnemonic (R88). -/
def parseMnemonic (m : String) : Option Instr := Instr.all.find? fun i => i.mnemonic == m

end Sys2Proof
end

