-- ==== Sys2Proof/Machine/State.lean ====
section
/-! DEFINITION. The state of one engine instance (spec/10_state.md R20 to R45), its reset value (R45), and the two
fields of the model's own: what happens next, and what the host has read. -/

namespace Sys2Proof.Machine

/-- The error kinds with a code in `STATUS.ERR` (R240). The codes 5 to 15 are never produced. -/
inductive ErrKind where
  | none
  | keyLengthInvalid
  | primitiveFailure
  | tagLengthMismatch
  | illegalCommand
  deriving DecidableEq, Repr

/-- The values of the phase register `PH` (R40): `IDLE` and the 20 step names of R184. -/
inductive Phase where
  | idle
  | dDbl
  | zClr
  | vLen
  | sChk
  | sL
  | sK1
  | sK2
  | cInit
  | cSel
  | cXor
  | cEnc
  | cFXor
  | cFEnc
  | hNorm
  | hPads
  | hInner
  | hOuter
  | oTag
  | oCmp
  | fin
  deriving DecidableEq, Repr

/-- A byte space too large to hold whole (`KEY`, `MSG`): the bytes that are not 0x00, by rising address. An address
that is not listed reads as 0x00, the value every byte has after reset (R45). -/
abbrev Memory := List Host.Cell

/-- From `lo` on: addresses strictly rising and no byte 0x00. -/
def Memory.wfFrom : Nat → Memory → Bool
  | _, [] => true
  | lo, (a, b) :: rest => decide (lo ≤ a) && (b != 0) && Memory.wfFrom (a + 1) rest

/-- The canonical form: equal spaces are equal lists. -/
def Memory.wf (m : Memory) : Bool := Memory.wfFrom 0 m

/-- Every listed address is an index of a space of this size (R29). -/
def Memory.within (size : Nat) (m : Memory) : Bool := m.all fun c => decide (c.1 < size)

/-- `STATUS`, field by field (R23, R41). Its reserved bits read 0 and ignore writes. -/
structure Status where
  busy : Bool
  done : Bool
  vok  : Bool
  cy   : Bool
  err  : ErrKind
  deriving DecidableEq, Repr

/-- What the host loads: the length registers (R25 to R27) and the spaces it may write (R29 to R33). `KLEN` and `MLEN`
hold KLENW and LENW bits in a word whose higher bits are zero (R21). -/
structure Inputs where
  klen  : Word
  mlen  : Word
  ctlen : BitVec 8
  key   : Memory
  msg   : Memory
  ctag  : Digest
  v     : Block
  deriving DecidableEq, Repr

/-- What the host reads back: `K1`, `K2` (R34), `TAG` (R35), `TLEN` (R28). -/
structure Outputs where
  k1   : Block
  k2   : Block
  tag  : Digest
  tlen : BitVec 8
  deriving DecidableEq, Repr

/-- The working registers and counters (R36 to R38), hidden from the host (R43). `n` and `blk` hold LENW-3 bits. -/
structure Work where
  l    : Block
  x    : Block
  y    : Block
  fb   : Block
  t    : Digest
  k0   : HashBlock
  ipad : HashBlock
  opad : HashBlock
  idig : Digest
  n    : Nat
  blk  : Nat
  deriving DecidableEq, Repr

/-- The state of one engine instance (R20). `script` and `answers` are the model's own: the order in which host,
engine and reset act (R75, R180), and the results of the host's reads (R68, R70). `cfg` holds the instance's
parameters (R8), which no transition changes. -/
structure State where
  cfg     : Config
  /-- `STATUS` (R23). -/
  stat    : Status
  /-- `CTRL.IE`, the only bit of `CTRL` that is not reserved (R24). -/
  ie      : Bool
  inp     : Inputs
  out     : Outputs
  work    : Work
  /-- `IR` (R39). -/
  ir      : Word
  /-- `PH` (R40). -/
  ph      : Phase
  script  : List Event
  answers : List Answer
  deriving DecidableEq, Repr

/-- Why the machine stops. -/
inductive Fault where
  /-- Raised by an engine step whose successor the spec does not give: the phase register names no step of the
  command in `IR`. R184 calls such a pair unreachable and lets a model give it any meaning or none (U8). Safe: the
  model stops where no reachable state of the hardware is. -/
  | strayPhase (ph : Phase) (ir : Word)
  deriving DecidableEq, Repr

/-- Why an instruction has no meaning. -/
inductive Refusal where
  /-- Raised by an arm of `exec` whose instruction has no meaning yet. Safe. No arm of this model raises it. -/
  | notModelled (mnemonic : String)
  deriving DecidableEq, Repr

/-- What a transition answers. -/
abbrev Result := Host.Outcome State Fault Refusal

/-- The flags after reset (R45). -/
def Status.zero : Status := { busy := false, done := false, vok := false, cy := false, err := .none }

/-- The inputs after reset (R45) and after `Z_CLR` (R199). -/
def Inputs.zero : Inputs := { klen := 0, mlen := 0, ctlen := 0, key := [], msg := [], ctag := 0, v := 0 }

/-- The outputs after reset (R45) and after every issue (R181). -/
def Outputs.zero : Outputs := { k1 := 0, k2 := 0, tag := 0, tlen := 0 }

/-- The working registers after reset (R45) and whenever `BUSY = 0` (R36 to R38). -/
def Work.zero : Work :=
  { l := 0, x := 0, y := 0, fb := 0, t := 0, k0 := 0, ipad := 0, opad := 0, idig := 0, n := 0, blk := 0 }

/-- The state after reset (R45), of an instance with the default parameters of R8, with nothing set to happen. -/
def State.reset : State :=
  { cfg := Config.default, stat := Status.zero, ie := false, inp := Inputs.zero, out := Outputs.zero
    work := Work.zero, ir := 0, ph := .idle, script := [], answers := [] }

end Sys2Proof.Machine
end

