-- ==== Sys2Proof/Machine/Bytes.lean ====
section
/-! DEFINITION. Bytes of a value and values of bytes: byte 0 is the most significant (spec/00_scope.md R11, R12;
spec/20_memory.md R61, R62). -/

namespace Sys2Proof.Machine

/-- Byte `i` of a value of `w / 8` bytes, for `i < w / 8` (R12). -/
def byteAt {w : Nat} (v : BitVec w) (i : Nat) : Byte := (v >>> (w - 8 * (i + 1))).setWidth 8

/-- The value with byte `i` replaced, for `i < w / 8`. -/
def setByteAt {w : Nat} (v : BitVec w) (i : Nat) (b : Byte) : BitVec w :=
  (v &&& ~~~((0xFF : BitVec 8).setWidth w <<< (w - 8 * (i + 1)))) ||| (b.setWidth w <<< (w - 8 * (i + 1)))

/-- The bytes of a value, in index order (R11). -/
def bytesOf {w : Nat} (v : BitVec w) : List Byte := (List.range (w / 8)).map (byteAt v)

/-- The value of a byte string, first byte most significant (R12). -/
def ofBytes (w : Nat) (bs : List Byte) : BitVec w := bs.foldl (fun acc b => (acc <<< 8) ||| b.setWidth w) 0

/-- `MemRead(SP, i, n)`: the `n` bytes of a space from index `i` on; no byte for `n = 0` (R66). -/
def memRead (read : Nat → Byte) (i n : Nat) : List Byte := (List.range n).map fun k => read (i + k)

/-- A register of `k` bits keeps the low `k` bits of a word (R21, R69). -/
def truncTo (k : Nat) (w : Word) : Word := BitVec.ofNat 32 (w.toNat % 2 ^ k)

end Sys2Proof.Machine
end

