-- ==== Sys2Proof/Machine/Flags.lean ====
section
/-! DEFINITION. Every flag and what computes it (spec/10_state.md R23, R24, R41, R42; spec/43_verify.md R162;
spec/60_exceptions.md R240). -/

namespace Sys2Proof.Machine

/-- The code of an error kind in `STATUS.ERR` (R240). -/
def errCode : ErrKind → BitVec 4
  | .none => 0
  | .keyLengthInvalid => 1
  | .primitiveFailure => 2
  | .tagLengthMismatch => 3
  | .illegalCommand => 4

/-- The word of `STATUS` from its fields: `ERR` in 11:8, `CY`, `VOK`, `DONE`, `BUSY` in 3:0, the rest 0 (R23). -/
def statusWord (st : Status) : Word :=
  (0 : BitVec 20) ++ errCode st.err ++ (0 : BitVec 4) ++ BitVec.ofBool st.cy ++ BitVec.ofBool st.vok ++
    BitVec.ofBool st.done ++ BitVec.ofBool st.busy

/-- The word of `CTRL`: `IE` in bit 0, the rest 0 (R24). -/
def ctrlWord (ie : Bool) : Word := (0 : BitVec 31) ++ BitVec.ofBool ie

/-- The output `irq`, at every moment (R42, R250). -/
def irq (s : State) : Bool := s.stat.done && s.ie

/-- `CY` of a doubling: the top bit of the operand (R103, R111). -/
def doublingCarry (v : Block) : Bool := v.msb

/-- `ct_eq(A, B)`: the bitwise or of all byte differences is 0x00 (R162). -/
def ctEq (a b : List Byte) : Bool := (List.zipWith (fun x y => x ^^^ y) a b).foldl (fun acc d => acc ||| d) 0 == 0

/-- `TAGLEN` of an algorithm (R7, R82). -/
def algTagLen : Alg → Nat
  | .hmacSha256 => 32
  | .cmacAes128 => 16

/-- `TAGLEN(ALG of IR)` for a command that has a tag (R161, R164, R188). -/
def tagLen (i : Instr) : Nat := (i.alg.map algTagLen).getD 0

end Sys2Proof.Machine
end

