-- ==== Sys2Proof/Machine/Aes128.lean ====
section
/-! DEFINITION. AES-128 encryption, the reference instantiation of the cipher port (spec/48_primitives.md R219 to
R224; from general knowledge there, G1). -/

namespace Sys2Proof.Machine

/-- The rows of R221's table: row = high digit, byte in the row = low digit. -/
def aesSboxRows : List Block :=
  [ 0x637c777bf26b6fc53001672bfed7ab76, 0xca82c97dfa5947f0add4a2af9ca472c0
  , 0xb7fd9326363ff7cc34a5e5f171d83115, 0x04c723c31896059a071280e2eb27b275
  , 0x09832c1a1b6e5aa0523bd6b329e32f84, 0x53d100ed20fcb15b6acbbe394a4c58cf
  , 0xd0efaafb434d338545f9027f503c9fa8, 0x51a3408f929d38f5bcb6da2110fff3d2
  , 0xcd0c13ec5f974417c4a77e3d645d1973, 0x60814fdc222a908846eeb814de5e0bdb
  , 0xe0323a0a4906245cc2d3ac629195e479, 0xe7c8376d8dd54ea96c56f4ea657aae08
  , 0xba78252e1ca6b4c6e8dd741f4bbd8b8a, 0x703eb5664803f60e613557b986c11d9e
  , 0xe1f8981169d98e949b1e87e9ce5528df, 0x8ca1890dbfe6426841992d0fb054bb16 ]

/-- `SBOX` (R221). -/
def aesSbox (a : Byte) : Byte := byteAt (aesSboxRows.getD (a.toNat / 16) 0) (a.toNat % 16)

/-- Multiplication by 0x02 in GF(2^8) (R220). -/
def aesXtime (a : Byte) : Byte := if a.msb then (a <<< 1) ^^^ 0x1b else a <<< 1

/-- `SubWord(RotWord(t))` (R222). -/
def aesSubRotWord (t : Word) : Word := ofBytes 32 ((bytesOf (t.rotateLeft 8)).map aesSbox)

/-- Word `j` of a round key (R222). -/
def aesKeyWord (k : Block) (j : Nat) : Word := (k >>> (96 - 32 * j)).setWidth 32

/-- Round key `r` from round key `r - 1` and `RCON[r]` (R222). -/
def aesNextKey (k : Block) (rcon : Byte) : Block :=
  let w0 : Word := aesKeyWord k 0 ^^^ (aesSubRotWord (aesKeyWord k 3) ^^^ (rcon.setWidth 32 <<< 24))
  let w1 : Word := aesKeyWord k 1 ^^^ w0
  let w2 : Word := aesKeyWord k 2 ^^^ w1
  let w3 : Word := aesKeyWord k 3 ^^^ w2
  w0 ++ w1 ++ w2 ++ w3

/-- `SubBytes` (R223). -/
def aesSubBytes (s : Block) : Block := ofBytes 128 ((bytesOf s).map aesSbox)

/-- `ShiftRows` (R223): byte `4c + r` comes from byte `4((c + r) mod 4) + r`. -/
def aesShiftRows (s : Block) : Block :=
  ofBytes 128 ((List.range 16).map fun i => byteAt s (4 * ((i / 4 + i % 4) % 4) + i % 4))

/-- Byte `i` of `MixColumns` (R223): with the column's bytes read from row `r = i mod 4` on, cyclically, it is
`02.a_r xor 03.a_(r+1) xor a_(r+2) xor a_(r+3)`. -/
def aesMixByte (s : Block) (i : Nat) : Byte :=
  let a := fun r => byteAt s (4 * (i / 4) + (i + r) % 4)
  aesXtime (a 0) ^^^ (aesXtime (a 1) ^^^ a 1) ^^^ a 2 ^^^ a 3

/-- `MixColumns` (R223). -/
def aesMixColumns (s : Block) : Block := ofBytes 128 ((List.range 16).map (aesMixByte s))

/-- The rounds, one per round constant, from the round key before them; the last has no `MixColumns` (R224). -/
def aesRounds (k : Block) : List Byte → Block → Block
  | [], s => s
  | [rcon], s => aesShiftRows (aesSubBytes s) ^^^ aesNextKey k rcon
  | rcon :: rest, s =>
    aesRounds (aesNextKey k rcon) rest (aesMixColumns (aesShiftRows (aesSubBytes s)) ^^^ aesNextKey k rcon)

/-- AES-128 encryption of a block (R224), with `RCON[1..10]` of R222. -/
def aesEncrypt (key block : Block) : Block :=
  aesRounds key [0x01, 0x02, 0x04, 0x08, 0x10, 0x20, 0x40, 0x80, 0x1b, 0x36] (block ^^^ key)

end Sys2Proof.Machine
end

