-- ==== Sys2Proof/Machine/Sha256.lean ====
section
/-! DEFINITION. SHA-256, the reference instantiation of the hash port (spec/48_primitives.md R219, R226 to R230; from
general knowledge there, G2). -/

namespace Sys2Proof.Machine

/-- `Ch` (R226). -/
def shaCh (x y z : Word) : Word := (x &&& y) ^^^ (~~~x &&& z)

/-- `Maj` (R226). -/
def shaMaj (x y z : Word) : Word := (x &&& y) ^^^ (x &&& z) ^^^ (y &&& z)

/-- `S0` (R226). -/
def shaBigS0 (x : Word) : Word := x.rotateRight 2 ^^^ x.rotateRight 13 ^^^ x.rotateRight 22

/-- `S1` (R226). -/
def shaBigS1 (x : Word) : Word := x.rotateRight 6 ^^^ x.rotateRight 11 ^^^ x.rotateRight 25

/-- `s0` (R226). -/
def shaSmallS0 (x : Word) : Word := x.rotateRight 7 ^^^ x.rotateRight 18 ^^^ (x >>> 3)

/-- `s1` (R226). -/
def shaSmallS1 (x : Word) : Word := x.rotateRight 17 ^^^ x.rotateRight 19 ^^^ (x >>> 10)

/-- `KC[0..63]`, eight to a line (R227). -/
def shaRoundConstants : List (List Word) :=
  [ [0x428a2f98, 0x71374491, 0xb5c0fbcf, 0xe9b5dba5, 0x3956c25b, 0x59f111f1, 0x923f82a4, 0xab1c5ed5]
  , [0xd807aa98, 0x12835b01, 0x243185be, 0x550c7dc3, 0x72be5d74, 0x80deb1fe, 0x9bdc06a7, 0xc19bf174]
  , [0xe49b69c1, 0xefbe4786, 0x0fc19dc6, 0x240ca1cc, 0x2de92c6f, 0x4a7484aa, 0x5cb0a9dc, 0x76f988da]
  , [0x983e5152, 0xa831c66d, 0xb00327c8, 0xbf597fc7, 0xc6e00bf3, 0xd5a79147, 0x06ca6351, 0x14292967]
  , [0x27b70a85, 0x2e1b2138, 0x4d2c6dfc, 0x53380d13, 0x650a7354, 0x766a0abb, 0x81c2c92e, 0x92722c85]
  , [0xa2bfe8a1, 0xa81a664b, 0xc24b8b70, 0xc76c51a3, 0xd192e819, 0xd6990624, 0xf40e3585, 0x106aa070]
  , [0x19a4c116, 0x1e376c08, 0x2748774c, 0x34b0bcb5, 0x391c0cb3, 0x4ed8aa4a, 0x5b9cca4f, 0x682e6ff3]
  , [0x748f82ee, 0x78a5636f, 0x84c87814, 0x8cc70208, 0x90befffa, 0xa4506ceb, 0xbef9a3f7, 0xc67178f2] ]

/-- The hash value `H[0..7]`, and the working variables `a..h` (R229). -/
structure ShaState where
  a : Word
  b : Word
  c : Word
  d : Word
  e : Word
  f : Word
  g : Word
  h : Word
  deriving DecidableEq, Repr

/-- The initial hash value (R227). -/
def shaInit : ShaState :=
  { a := 0x6a09e667, b := 0xbb67ae85, c := 0x3c6ef372, d := 0xa54ff53a
    e := 0x510e527f, f := 0x9b05688c, g := 0x1f83d9ab, h := 0x5be0cd19 }

/-- One round, given `KC[t] + W[t]` (R229). -/
def shaRound (s : ShaState) (kw : Word) : ShaState :=
  let t1 := s.h + shaBigS1 s.e + shaCh s.e s.f s.g + kw
  let t2 := shaBigS0 s.a + shaMaj s.a s.b s.c
  { a := t1 + t2, b := s.a, c := s.b, d := s.c, e := s.d + t1, f := s.e, g := s.f, h := s.g }

/-- `W[t]` for the next `n` values of `t`, put in front of `W[t-1], W[t-2], …` (R229). -/
def shaExtend : Nat → List Word → List Word
  | 0, ws => ws
  | n + 1, ws =>
    shaExtend n ((shaSmallS1 (ws.getD 1 0) + ws.getD 6 0 + shaSmallS0 (ws.getD 14 0) + ws.getD 15 0) :: ws)

/-- `W[0..63]` of a block (R229). -/
def shaSchedule (block : HashBlock) : List Word :=
  (shaExtend 48 ((List.range 16).map fun t => (block >>> (480 - 32 * t)).setWidth 32).reverse).reverse

/-- The compression of one block into the hash value (R229). -/
def shaCompress (h : ShaState) (block : HashBlock) : ShaState :=
  let r := (List.zipWith (fun k w => k + w) shaRoundConstants.flatten (shaSchedule block)).foldl shaRound h
  { a := h.a + r.a, b := h.b + r.b, c := h.c + r.c, d := h.d + r.d
    e := h.e + r.e, f := h.f + r.f, g := h.g + r.g, h := h.h + r.h }

/-- The padded input (R228). -/
def shaPad (s : List Byte) : List Byte :=
  s ++ 0x80 :: List.replicate ((119 - s.length % 64) % 64) 0 ++ bytesOf (BitVec.ofNat 64 (8 * s.length))

/-- The first `n` blocks of a padded input (R228). -/
def shaBlocks : Nat → List Byte → List HashBlock
  | 0, _ => []
  | n + 1, bs => ofBytes 512 (bs.take 64) :: shaBlocks n (bs.drop 64)

/-- SHA-256 of a byte string (R230). -/
def sha256 (s : List Byte) : Digest :=
  let h := (shaBlocks ((shaPad s).length / 64) (shaPad s)).foldl shaCompress shaInit
  h.a ++ h.b ++ h.c ++ h.d ++ h.e ++ h.f ++ h.g ++ h.h

end Sys2Proof.Machine
end

