-- ==== Sys2Proof/Machine/Ports.lean ====
section
/-! DEFINITION. The two ports to the primitives (spec/48_primitives.md R210 to R219): total, deterministic functions
that keep nothing between invocations; `none` stands for `FAIL`. -/

namespace Sys2Proof.Machine

/-- `ENC(K, B)` of an instance (R210, R211, R213). -/
def encPort (c : Config) (key block : Block) : Option Block :=
  match c.cipher with
  | .aes128 => some (aesEncrypt key block)
  | .failing => none
  | .external => Config.externalEnc key block

/-- `HASH(S)` of an instance (R214, R215, R217). -/
def hashPort (c : Config) (s : List Byte) : Option Digest :=
  match c.hash with
  | .sha256 => some (sha256 s)
  | .failing => none
  | .external => Config.externalHash s

/-- The state of a hash that is fed piece by piece: what it has been fed since `Init` (R215, R216). -/
abbrev HashFeed := List Byte

/-- `Init` (R215, R216): nothing of an earlier invocation remains. -/
def hashInit : HashFeed := []

/-- `Update(S)` (R215). -/
def hashUpdate (h : HashFeed) (s : List Byte) : HashFeed := h ++ s

/-- `Final` (R215). -/
def hashFinal (c : Config) (h : HashFeed) : Option Digest := hashPort c h

end Sys2Proof.Machine
end

