-- ==== Sys2Proof/Machine/Ops.lean ====
section
/-! DEFINITION. The operations the meanings share: bytes of the spaces (spec/20_memory.md), issue (R181, R182),
completion (R190), the abort action (R246), acknowledge (R197), release of the tag (R188), wipe (R199), reset (R270). -/

namespace Sys2Proof.Machine

/-- Byte `a` of a space: a listed byte, else 0x00 (R14, R45). -/
def Memory.read (m : Memory) (a : Nat) : Byte :=
  match m with
  | [] => 0
  | (k, b) :: rest => if k = a then b else Memory.read rest a

/-- Byte `a` of a space becomes `b`, in canonical form (R67, R71). -/
def Memory.write (m : Memory) (a : Nat) (b : Byte) : Memory :=
  match m with
  | [] => if b = 0 then [] else [(a, b)]
  | (k, v) :: rest =>
    if a < k then (if b = 0 then (k, v) :: rest else (a, b) :: (k, v) :: rest)
    else if a = k then (if b = 0 then rest else (a, b) :: rest)
    else (k, v) :: Memory.write rest a b

/-- The size in bytes of each byte space; no index is inside a space that does not exist (R29). -/
def spaceSize (c : Config) (sp : Nat) : Nat :=
  match sp with
  | 0 => c.kmax
  | 1 => c.mmax
  | 2 => 32
  | 3 => 16
  | 4 => 16
  | 5 => 16
  | 6 => 32
  | _ => 0

/-- Byte `i` of space `sp`, for `i` inside it (R29). -/
def spaceByte (s : State) (sp i : Nat) : Byte :=
  match sp with
  | 0 => s.inp.key.read i
  | 1 => s.inp.msg.read i
  | 2 => byteAt s.inp.ctag i
  | 3 => byteAt s.inp.v i
  | 4 => byteAt s.out.k1 i
  | 5 => byteAt s.out.k2 i
  | 6 => byteAt s.out.tag i
  | _ => 0

/-- Byte `i` of a space the host may write becomes `b`, for `i` inside it; a write to another space is dropped
(R29, R71). -/
def setSpaceByte (s : State) (sp i : Nat) (b : Byte) : State :=
  match sp with
  | 0 => { s with inp := { s.inp with key := s.inp.key.write i b } }
  | 1 => { s with inp := { s.inp with msg := s.inp.msg.write i b } }
  | 2 => { s with inp := { s.inp with ctag := setByteAt s.inp.ctag i b } }
  | 3 => { s with inp := { s.inp with v := setByteAt s.inp.v i b } }
  | _ => s

/-- `PH <- p`. -/
def goto (p : Phase) (s : State) : State := { s with ph := p }

/-- `first(i)`, the phase a command starts in (R181). -/
def firstPhase : Instr → Phase
  | .signHmac => .hNorm
  | .signCmac => .sChk
  | .verifyHmac => .vLen
  | .verifyCmac => .vLen
  | .deriveCmac => .sChk
  | .dbl => .dDbl
  | .clear => .zClr

/-- The issue actions, up to `IR <- w` (R181). -/
def issueActions (w : Word) (s : State) : State :=
  { s with
    out := Outputs.zero
    stat := { s.stat with vok := false, cy := false, err := .none, done := false }
    work := Work.zero
    ir := w }

/-- `BUSY <- 1; PH <- first(i)` (R181). -/
def beginCommand (i : Instr) (s : State) : State :=
  { s with stat := { s.stat with busy := true }, ph := firstPhase i }

/-- The end of the issue of an illegal word (R182). -/
def rejectCommand (s : State) : State :=
  { s with stat := { s.stat with err := .illegalCommand, done := true } }

/-- Command issue in a state with `BUSY = 0` (R181, R182). -/
def issue (w : Word) (s : State) : State :=
  match decode w with
  | .ok i => beginCommand i (issueActions w s)
  | .error _ => rejectCommand (issueActions w s)

/-- TAKING AN EXCEPTION: `raise <Kind>`, the abort action (R246). No state is saved, there is no vector and no mode. -/
def raise (k : ErrKind) (s : State) : State :=
  { s with
    work := Work.zero
    out := Outputs.zero
    stat := { s.stat with vok := false, err := k, busy := false, done := true }
    ph := .idle }

/-- What a host does after an exception instead of a return: the acknowledge of `DONE`, in a state with `BUSY = 0`
(R197, R252). -/
def acknowledge (s : State) : State := { s with stat := { s.stat with done := false } }

/-- Step `FIN`, the completion of every command that did not abort (R190). -/
def complete (s : State) : State :=
  { s with
    work := Work.zero
    out := if s.ir = encode .deriveCmac then s.out else { s.out with k1 := 0, k2 := 0 }
    stat := { s.stat with busy := false, done := true }
    ph := .idle }

/-- `TAG <- t; TLEN <- n` (R188). -/
def releaseTag (t : Digest) (n : Nat) (s : State) : State :=
  { s with out := { s.out with tag := t, tlen := BitVec.ofNat 8 n } }

/-- The wipe of `CLEAR`: every space, length register, flag but `BUSY` and `DONE`, and working register (R199). -/
def wipeAll (s : State) : State :=
  { s with
    inp := Inputs.zero
    out := Outputs.zero
    work := Work.zero
    stat := { s.stat with vok := false, cy := false, err := .none } }

/-- Reset, in any state (R270): every piece of engine state to the value of R45. The parameters of the instance, what
is still to happen and what the host has read are not the engine's state. -/
def resetEngine (s : State) : State :=
  { State.reset with cfg := s.cfg, script := s.script, answers := s.answers }

/-- The host receives the result of a read. -/
def answer (a : Answer) (s : State) : State := { s with answers := s.answers ++ [a] }

/-- The whole of a command as one transition (R186): dropped while `BUSY = 1` (R181), else the issue actions and then
the body that the command's pseudocode gives. -/
def runCommand (i : Instr) (s : State) (body : State → State) : Result :=
  .next (if s.stat.busy then s else body (beginCommand i (issueActions (encode i) s)))

end Sys2Proof.Machine
end

