-- ==== Sys2Proof/Machine/Operands.lean ====
section
/-! DEFINITION. The implicit operands of the commands (spec/30_encoding.md R85; spec/20_memory.md R62, R65, R66). -/

namespace Sys2Proof.Machine

/-- `KEY[0..KLEN-1]` (R25, R146). -/
def keyBytes (s : State) : List Byte := memRead s.inp.key.read 0 s.inp.klen.toNat

/-- `KEY[0..15]`, the key of the cipher (R62, R108). -/
def cipherKey (s : State) : Block := ofBytes 128 (memRead s.inp.key.read 0 16)

/-- `MSG[0..MLEN-1]` (R26, R148). -/
def msgBytes (s : State) : List Byte := memRead s.inp.msg.read 0 s.inp.mlen.toNat

/-- `MemRead(MSG, i, n)` (R66). -/
def msgRange (s : State) (i n : Nat) : List Byte := memRead s.inp.msg.read i n

/-- CMAC block `i`, `MSG[16*i .. 16*i+15]` (R62, R130). -/
def msgBlock (s : State) (i : Nat) : Block := ofBytes 128 (msgRange s (16 * i) 16)

/-- `MemRead(CTAG, 0, n)` (R164). -/
def ctagBytes (s : State) (n : Nat) : List Byte := memRead (byteAt s.inp.ctag) 0 n

/-- The command in `IR`, which a step reads to select its successor (R39). -/
def irCommand (s : State) : Option Instr := decode? s.ir

end Sys2Proof.Machine
end

