-- ==== Sys2Proof/Machine/Clear.lean ====
section
/-! DEFINITION. `CLEAR`, and the steps `Z_CLR`, `O_TAG`, `FIN` (spec/44_system_and_sequencer.md R188, R190, R198,
R199). -/

namespace Sys2Proof.Machine

/-- Step `Z_CLR` (R199). -/
def stepZClr (s : State) : Result := .next (goto .fin (wipeAll s))

/-- Step `O_TAG` (R188). `TLEN` is written while `BUSY = 1`, against R46 (f) read word for word (log entry 12). -/
def stepOTag (s : State) : Result :=
  match irCommand s with
  | some .signHmac => .next (goto .fin (releaseTag s.work.t (tagLen .signHmac) s))
  | some .signCmac => .next (goto .fin (releaseTag s.work.t (tagLen .signCmac) s))
  | _ => .fault (.strayPhase s.ph s.ir)

/-- Step `FIN` (R190). -/
def stepFin (s : State) : Result := .next (complete s)

/-- `CLEAR`, the whole command (R198). -/
def execClear (s : State) : Result := runCommand .clear s fun u => complete (wipeAll u)

end Sys2Proof.Machine
end

