-- ==== Sys2Proof/Machine/Double.lean ====
section
/-! DEFINITION. The doubling and the subkey derivation unit: `DBL`, `DERIVE.CMAC`, and the steps `D_DBL`, `S_CHK`,
`S_L`, `S_K1`, `S_K2` (spec/40_double_and_subkey.md). -/

namespace Sys2Proof.Machine

/-- `dbl` (R100): the shift left by one bit across the value, then 0x87 into byte 15 when the top bit of the operand
was 1. -/
def dbl (v : Block) : Block :=
  let s := v <<< 1
  if doublingCarry v then setByteAt s 15 (byteAt s 15 ^^^ reductionConstant) else s

/-- `subkeys(K)`: `(L, K1, K2)`, or `none` when the cipher fails (R104). -/
def subkeys (c : Config) (key : Block) : Option (Block × Block × Block) :=
  match encPort c key 0 with
  | none => none
  | some l => some (l, dbl l, dbl (dbl l))

/-- `V <- dbl(V); CY <- V[0][7]`, both from the old value (R15, R111). -/
def doubleV (s : State) : State :=
  { s with
    inp := { s.inp with v := dbl s.inp.v }
    stat := { s.stat with cy := doublingCarry s.inp.v } }

/-- Step `D_DBL` (R111). -/
def stepDDbl (s : State) : Result := .next (goto .fin (doubleV s))

/-- Step `S_CHK` (R107). -/
def stepSChk (s : State) : Result :=
  if s.inp.klen ≠ 16 then .next (raise .keyLengthInvalid s) else .next (goto .sL s)

/-- Step `S_L` (R108). -/
def stepSL (s : State) : Result :=
  match encPort s.cfg (cipherKey s) 0 with
  | none => .next (raise .primitiveFailure s)
  | some r => .next (goto .sK1 { s with work := { s.work with l := r } })

/-- Step `S_K1` (R109), of every command that has it: in `VERIFY.CMAC` too it writes the subkey, which R167 taken alone
would not let it (DESIGN CHOICE, log entry 22). -/
def stepSK1 (s : State) : Result :=
  .next (goto .sK2 { s with out := { s.out with k1 := dbl s.work.l } })

/-- Step `S_K2` (R110), of every command that has it (DESIGN CHOICE for `VERIFY.CMAC`: log entry 22). -/
def stepSK2 (s : State) : Result :=
  let t := { s with out := { s.out with k2 := dbl s.out.k1 } }
  match irCommand s with
  | some .deriveCmac => .next (goto .fin t)
  | some .signCmac => .next (goto .cInit t)
  | some .verifyCmac => .next (goto .cInit t)
  | _ => .fault (.strayPhase s.ph s.ir)

/-- `DBL`, the whole command (R103). -/
def execDbl (s : State) : Result := runCommand .dbl s fun u => complete (doubleV u)

/-- `DERIVE.CMAC`, the whole command (R105). -/
def execDeriveCmac (s : State) : Result :=
  runCommand .deriveCmac s fun u =>
    if u.inp.klen ≠ 16 then raise .keyLengthInvalid u
    else match subkeys u.cfg (cipherKey u) with
      | none => raise .primitiveFailure u
      | some (_, k1, k2) => complete { u with out := { u.out with k1 := k1, k2 := k2 } }

end Sys2Proof.Machine
end

