-- ==== Sys2Proof/Machine/Cmac.lean ====
section
/-! DEFINITION. The CMAC block chaining and padding controller: `SIGN.CMAC`, and the steps `C_INIT`, `C_SEL`, `C_XOR`,
`C_ENC`, `C_FXOR`, `C_FENC` (spec/41_cmac.md). -/

namespace Sys2Proof.Machine

/-- The block count of a message of this many bytes (R122). -/
def blockCount (len : Nat) : Nat := max 1 ((len + 15) / 16)

/-- `pad(S)`, for a string of at most 15 bytes (R124). -/
def padBlock (bs : List Byte) : List Byte := bs ++ padByte :: List.replicate (15 - bs.length) 0

/-- The final block is complete (R123): the message is not empty and its length is a multiple of 16. -/
def isComplete (len : Nat) : Bool := len != 0 && len % 16 == 0

/-- The final block of a message (R123), from the bytes of its last block. -/
def finalBlock (len : Nat) (last : List Byte) (k1 k2 : Block) : Block :=
  if isComplete len then ofBytes 128 last ^^^ k1 else ofBytes 128 (padBlock last) ^^^ k2

/-- The first `n` blocks of a message (R122). -/
def wholeBlocks (msg : List Byte) (n : Nat) : List Block :=
  (List.range n).map fun i => ofBytes 128 ((msg.drop (16 * i)).take 16)

/-- The chaining (R125), from an accumulator over the blocks in order. -/
def chain (c : Config) (key : Block) : List Block → Block → Option Block
  | [], x => some x
  | b :: rest, x =>
    match encPort c key (x ^^^ b) with
    | none => none
    | some y => chain c key rest y

/-- `cmac(K, M)` (R120, R121); `none` when a cipher invocation fails. -/
def cmac (c : Config) (key : Block) (msg : List Byte) : Option Block :=
  match subkeys c key with
  | none => none
  | some (_, k1, k2) =>
    let n := blockCount msg.length
    match chain c key (wholeBlocks msg (n - 1)) 0 with
    | none => none
    | some x => encPort c key (x ^^^ finalBlock msg.length (msg.drop (16 * (n - 1))) k1 k2)

/-- `X ‖ 0x00^16` (R120, R133). -/
def tagOfBlock (x : Block) : Digest := x ++ (0 : Block)

/-- A counter of LENW-3 bits keeps this much of a number (R38). -/
def counter (c : Config) (n : Nat) : Nat := n % 2 ^ (c.lenw - 3)

/-- Step `C_INIT` (R128). -/
def stepCInit (s : State) : Result :=
  .next (goto .cSel { s with
    work := { s.work with n := counter s.cfg (blockCount s.inp.mlen.toNat), x := 0, blk := 0 } })

/-- The bytes step `C_SEL` reads: 16 in the complete case, else `MLEN - 16*(N-1)` (R65, R129). -/
def lastBytes (s : State) : List Byte :=
  msgRange s (16 * (s.work.n - 1))
    (if isComplete s.inp.mlen.toNat then 16 else s.inp.mlen.toNat - 16 * (s.work.n - 1))

/-- Step `C_SEL` (R129). -/
def stepCSel (s : State) : Result :=
  .next (goto (if s.work.blk < s.work.n - 1 then .cXor else .cFXor) { s with
    work := { s.work with fb := finalBlock s.inp.mlen.toNat (lastBytes s) s.out.k1 s.out.k2 } })

/-- Step `C_XOR` (R130). -/
def stepCXor (s : State) : Result :=
  .next (goto .cEnc { s with work := { s.work with y := s.work.x ^^^ msgBlock s s.work.blk } })

/-- Step `C_ENC` (R131). -/
def stepCEnc (s : State) : Result :=
  match encPort s.cfg (cipherKey s) s.work.y with
  | none => .next (raise .primitiveFailure s)
  | some r =>
    .next (goto (if s.work.blk + 1 < s.work.n - 1 then .cXor else .cFXor) { s with
      work := { s.work with x := r, blk := counter s.cfg (s.work.blk + 1) } })

/-- Step `C_FXOR` (R132). -/
def stepCFXor (s : State) : Result :=
  .next (goto .cFEnc { s with work := { s.work with y := s.work.x ^^^ s.work.fb } })

/-- Step `C_FENC` (R133). -/
def stepCFEnc (s : State) : Result :=
  match encPort s.cfg (cipherKey s) s.work.y with
  | none => .next (raise .primitiveFailure s)
  | some r =>
    let t := { s with work := { s.work with x := r, t := tagOfBlock r } }
    match irCommand s with
    | some .signCmac => .next (goto .oTag t)
    | some .verifyCmac => .next (goto .oCmp t)
    | _ => .fault (.strayPhase s.ph s.ir)

/-- `SIGN.CMAC`, the whole command (R120). -/
def execSignCmac (s : State) : Result :=
  runCommand .signCmac s fun u =>
    if u.inp.klen ≠ 16 then raise .keyLengthInvalid u
    else match cmac u.cfg (cipherKey u) (msgBytes u) with
      | none => raise .primitiveFailure u
      | some x => complete (releaseTag (tagOfBlock x) (tagLen .signCmac) u)

end Sys2Proof.Machine
end

