-- ==== Sys2Proof/Machine/Hmac.lean ====
section
/-! DEFINITION. The HMAC key-padding and nested-hash sequencer: `SIGN.HMAC`, and the steps `H_NORM`, `H_PADS`,
`H_INNER`, `H_OUTER` (spec/42_hmac.md). -/

namespace Sys2Proof.Machine

/-- The first test of key normalisation: a key longer than 64 bytes is replaced by its digest (R142), however long it is
(DESIGN CHOICE against R214's bound, log entry 23). -/
def hashLongKey (c : Config) (key : List Byte) : Option (List Byte) :=
  if key.length > 64 then (hashPort c key).map bytesOf else some key

/-- The second test: a string shorter than 64 bytes is extended on the right with 0x00 (R142). -/
def zeroExtendKey (key : List Byte) : List Byte :=
  if key.length < 64 then key ++ List.replicate (64 - key.length) 0 else key

/-- `K0` of a key: the second test applied to the result of the first (R142, conflict C5). -/
def normalizeKey (c : Config) (key : List Byte) : Option HashBlock :=
  (hashLongKey c key).map fun k => ofBytes 512 (zeroExtendKey k)

/-- Every byte of `K0` xor a constant (R143). -/
def xorBytes (k0 : HashBlock) (b : Byte) : HashBlock := ofBytes 512 ((bytesOf k0).map fun x => x ^^^ b)

/-- `hmac(K, M)` (R140, R141, R144, R145); `none` when a hash invocation fails. -/
def hmac (c : Config) (key msg : List Byte) : Option Digest :=
  match normalizeKey c key with
  | none => none
  | some k0 =>
    match hashPort c (bytesOf (xorBytes k0 innerPadByte) ++ msg) with
    | none => none
    | some d => hashPort c (bytesOf (xorBytes k0 outerPadByte) ++ bytesOf d)

/-- Step `H_NORM`, its three cases (R146). A long key is hashed whole, also where `KLEN` is above the `64 + MMAX` bytes
that R214 calls the longest input of the hash (DESIGN CHOICE, log entry 23). -/
def stepHNorm (s : State) : Result :=
  if s.inp.klen.toNat > 64 then
    match hashPort s.cfg (keyBytes s) with
    | none => .next (raise .primitiveFailure s)
    | some d => .next (goto .hPads { s with work := { s.work with k0 := d ++ (0 : Digest) } })
  else if s.inp.klen.toNat < 64 then
    .next (goto .hPads { s with
      work := { s.work with k0 := ofBytes 512 (keyBytes s ++ List.replicate (64 - s.inp.klen.toNat) 0) } })
  else
    .next (goto .hPads { s with work := { s.work with k0 := ofBytes 512 (memRead s.inp.key.read 0 64) } })

/-- Step `H_PADS` (R147). -/
def stepHPads (s : State) : Result :=
  .next (goto .hInner { s with
    work := { s.work with ipad := xorBytes s.work.k0 innerPadByte, opad := xorBytes s.work.k0 outerPadByte } })

/-- Step `H_INNER` (R148). -/
def stepHInner (s : State) : Result :=
  match hashPort s.cfg (bytesOf s.work.ipad ++ msgBytes s) with
  | none => .next (raise .primitiveFailure s)
  | some d => .next (goto .hOuter { s with work := { s.work with idig := d } })

/-- Step `H_OUTER` (R149). -/
def stepHOuter (s : State) : Result :=
  match hashPort s.cfg (bytesOf s.work.opad ++ bytesOf s.work.idig) with
  | none => .next (raise .primitiveFailure s)
  | some d =>
    let t := { s with work := { s.work with t := d } }
    match irCommand s with
    | some .signHmac => .next (goto .oTag t)
    | some .verifyHmac => .next (goto .oCmp t)
    | _ => .fault (.strayPhase s.ph s.ir)

/-- `SIGN.HMAC`, the whole command (R140). -/
def execSignHmac (s : State) : Result :=
  runCommand .signHmac s fun u =>
    match hmac u.cfg (keyBytes u) (msgBytes u) with
    | none => raise .primitiveFailure u
    | some t => complete (releaseTag t (tagLen .signHmac) u)

end Sys2Proof.Machine
end

