-- ==== Sys2Proof/Machine/Verify.lean ====
section
/-! DEFINITION. The tag comparator: `VERIFY.HMAC`, `VERIFY.CMAC`, and the steps `V_LEN`, `O_CMP`
(spec/43_verify.md). -/

namespace Sys2Proof.Machine

/-- `ERR <- 3`, recorded and not an abort (R161, R243). -/
def noteTagLength (s : State) : State := { s with stat := { s.stat with err := .tagLengthMismatch } }

/-- `VOK <- ct_eq(T[0..n-1], CTAG[0..n-1])` (R162, R164). -/
def compareTag (t : Digest) (n : Nat) (s : State) : State :=
  { s with stat := { s.stat with vok := ctEq ((bytesOf t).take n) (ctagBytes s n) } }

/-- Step `V_LEN` (R161). -/
def stepVLen (s : State) : Result :=
  match irCommand s with
  | some .verifyHmac =>
    if s.inp.ctlen.toNat ≠ tagLen .verifyHmac then .next (goto .fin (noteTagLength s)) else .next (goto .hNorm s)
  | some .verifyCmac =>
    if s.inp.ctlen.toNat ≠ tagLen .verifyCmac then .next (goto .fin (noteTagLength s)) else .next (goto .sChk s)
  | _ => .fault (.strayPhase s.ph s.ir)

/-- Step `O_CMP` (R164). `VOK` is written while `BUSY = 1`, against R46 (g) read word for word (log entry 12). -/
def stepOCmp (s : State) : Result :=
  match irCommand s with
  | some .verifyHmac => .next (goto .fin (compareTag s.work.t (tagLen .verifyHmac) s))
  | some .verifyCmac => .next (goto .fin (compareTag s.work.t (tagLen .verifyCmac) s))
  | _ => .fault (.strayPhase s.ph s.ir)

/-- `VERIFY.HMAC`, the whole command (R160, R169). -/
def execVerifyHmac (s : State) : Result :=
  runCommand .verifyHmac s fun u =>
    if u.inp.ctlen.toNat ≠ tagLen .verifyHmac then complete (noteTagLength u)
    else match hmac u.cfg (keyBytes u) (msgBytes u) with
      | none => raise .primitiveFailure u
      | some t => complete (compareTag t (tagLen .verifyHmac) u)

/-- `VERIFY.CMAC`, the whole command (R166, R169). -/
def execVerifyCmac (s : State) : Result :=
  runCommand .verifyCmac s fun u =>
    if u.inp.ctlen.toNat ≠ tagLen .verifyCmac then complete (noteTagLength u)
    else if u.inp.klen ≠ 16 then raise .keyLengthInvalid u
    else match cmac u.cfg (cipherKey u) (msgBytes u) with
      | none => raise .primitiveFailure u
      | some x => complete (compareTag (tagOfBlock x) (tagLen .verifyCmac) u)

end Sys2Proof.Machine
end

