-- ==== Sys2Proof/Machine/Dispatch.lean ====
section
/-! DEFINITION. The meaning of every command: its word written to `CMD`, and the command run to its end
(spec/44_system_and_sequencer.md R186). -/

namespace Sys2Proof.Machine

def exec (i : Instr) (s : State) : Host.Outcome State Fault Refusal :=
  match i with
  | .signHmac => Sys2Proof.Machine.execSignHmac s
  | .signCmac => Sys2Proof.Machine.execSignCmac s
  | .verifyHmac => Sys2Proof.Machine.execVerifyHmac s
  | .verifyCmac => Sys2Proof.Machine.execVerifyCmac s
  | .deriveCmac => Sys2Proof.Machine.execDeriveCmac s
  | .dbl => Sys2Proof.Machine.execDbl s
  | .clear => Sys2Proof.Machine.execClear s

end Sys2Proof.Machine
end

