-- ==== Sys2Proof/Machine/HostPort.lean ====
section
/-! DEFINITION. The host's four access primitives (spec/20_memory.md R68 to R71; spec/10_state.md R21 to R29). -/

namespace Sys2Proof.Machine

/-- `HostRd(n)`: the word returned; it changes no state (R68, R195). -/
def hostRd (s : State) (n : Nat) : Word :=
  match n with
  | 1 => if s.stat.busy then 1 else statusWord s.stat
  | 2 => ctrlWord s.ie
  | 3 => s.inp.klen
  | 4 => s.inp.mlen
  | 5 => s.inp.ctlen.setWidth 32
  | 6 => if s.stat.busy then 0 else s.out.tlen.setWidth 32
  | _ => 0

/-- `HostWr(n, w)` (R69, R195): `CMD` issues (R181), `STATUS` acknowledges (R197), `CTRL` is written at any time,
the length registers while `BUSY = 0`. -/
def hostWr (n : Nat) (w : Word) (s : State) : State :=
  match n with
  | 0 => if s.stat.busy then s else issue w s
  | 1 => if w.getLsbD 1 && !s.stat.busy then acknowledge s else s
  | 2 => { s with ie := w.getLsbD 0 }
  | 3 => if s.stat.busy then s else { s with inp := { s.inp with klen := truncTo s.cfg.klenw w } }
  | 4 => if s.stat.busy then s else { s with inp := { s.inp with mlen := truncTo s.cfg.lenw w } }
  | 5 => if s.stat.busy then s else { s with inp := { s.inp with ctlen := w.setWidth 8 } }
  | _ => s

/-- `HostRdB(s, i)`: the byte returned; `KEY` reads 0x00; it changes no state (R70, R196). -/
def hostRdB (s : State) (sp i : Nat) : Byte :=
  if s.stat.busy then 0
  else if sp = 0 then 0
  else if i < spaceSize s.cfg sp then spaceByte s sp i else 0

/-- `HostWrB(s, i, b)` (R71, R196). -/
def hostWrB (sp i : Nat) (b : Byte) (s : State) : State :=
  if s.stat.busy then s
  else if i < spaceSize s.cfg sp then setSpaceByte s sp i b else s

end Sys2Proof.Machine
end

