-- ==== Sys2Proof/Machine/HostProgram.lean ====
section
/-! DEFINITION. The host's lines and their expansions (spec/30_encoding.md R88, R89), and the two host programs that
are the source's `Sign` and `Verify` (R90, R91, R255). -/

namespace Sys2Proof.Machine

/-- `WRB sp, i, b` for the bytes of a string, from index `i` on, ascending (R89). -/
def loadFrom (sp : Nat) : Nat → List Byte → List Event
  | _, [] => []
  | i, b :: rest => .hostWrB sp i b :: loadFrom sp (i + 1) rest

/-- `LOADKEY hex` (R89). -/
def loadKey (bs : List Byte) : List Event := loadFrom 0 0 bs ++ [.hostWr 3 (BitVec.ofNat 32 bs.length)]

/-- `LOADMSG hex` (R89). -/
def loadMsg (bs : List Byte) : List Event := loadFrom 1 0 bs ++ [.hostWr 4 (BitVec.ofNat 32 bs.length)]

/-- `LOADCTAG hex`: at most 32 bytes, and the length clamped at 255 (R89, R91, conflict C9). -/
def loadCtag (bs : List Byte) : List Event :=
  loadFrom 2 0 (bs.take 32) ++ [.hostWr 5 (BitVec.ofNat 32 (min 255 bs.length))]

/-- `LOADV hex` (R89). -/
def loadV (bs : List Byte) : List Event := loadFrom 3 0 bs

/-- `ISSUE mnemonic` (R89). -/
def issueLine (i : Instr) : Event := .hostWr 0 (encode i)

/-- `ACK` (R89). -/
def ackLine : Event := .hostWr 1 0x00000002

/-- `READ sp, n` (R89). -/
def readLines (sp n : Nat) : List Event := (List.range n).map fun i => .hostRdB sp i

/-- `SIGN.<alg>` (R82, R83). -/
def signInstr : Alg → Instr
  | .hmacSha256 => .signHmac
  | .cmacAes128 => .signCmac

/-- `VERIFY.<alg>` (R82, R83). -/
def verifyInstr : Alg → Instr
  | .hmacSha256 => .verifyHmac
  | .cmacAes128 => .verifyCmac

/-- The number in the last word that the host has read, which `READ` takes for its `n` (R90). A byte read since, or no
read at all, leaves it none, and none is 0: no program of R90 or R91 comes to that. -/
def lastWord (as : List Answer) : Nat :=
  match as.getLast? with
  | some (.word w) => w.toNat
  | _ => 0

/-- The program of `Sign(key, message, algorithm)`, line by line (R90). -/
def signProgram (alg : Alg) (key msg : List Byte) : List Event :=
  loadKey key ++ loadMsg msg ++ [issueLine (signInstr alg), .wait, .hostRd 1, .hostRd 6, .read 6, ackLine]

/-- The program of `Verify(key, message, tag, algorithm)`, line by line (R91). -/
def verifyProgram (alg : Alg) (key msg tag : List Byte) : List Event :=
  loadKey key ++ loadMsg msg ++ loadCtag tag ++ [issueLine (verifyInstr alg), .wait, .hostRd 1, ackLine]

/-- What R90 and R91 ask before a program may run: `BUSY = 0`, a key of at most `KMAX` and a message of at most `MMAX`
bytes. -/
def presentable (s : State) (key msg : List Byte) : Bool :=
  !s.stat.busy && decide (key.length ≤ s.cfg.kmax) && decide (msg.length ≤ s.cfg.mmax)

/-- The call `Sign(key, message, algorithm)`: its program is the host's next lines, or the call is refused, where the
arguments cannot be presented to this instance (R90, U7). -/
def signCall (alg : Alg) (key msg : List Byte) (s : State) : Option State :=
  if presentable s key msg then some { s with script := signProgram alg key msg ++ s.script } else none

/-- The call `Verify(key, message, tag, algorithm)`, likewise; a tag of any length can be presented (R91, U7). -/
def verifyCall (alg : Alg) (key msg tag : List Byte) (s : State) : Option State :=
  if presentable s key msg then some { s with script := verifyProgram alg key msg tag ++ s.script } else none

/-- What `Sign` returns: a tag, or an error of this kind (R90, R255). -/
inductive SignResult where
  | tag (t : List Byte)
  | error (kind : ErrKind)
  deriving DecidableEq, Repr

/-- What `Verify` returns: a boolean, or an error of this kind (R91, R255). -/
inductive VerifyResult where
  | verdict (b : Bool)
  | error (kind : ErrKind)
  deriving DecidableEq, Repr

/-- The field `ERR`, bits 11:8 of the word of `STATUS` (R23, R90). -/
def statusErr (w : Word) : BitVec 4 := w.extractLsb' 8 4

/-- The byte of an answer. -/
def answerByte : Answer → Option Byte
  | .byte b => some b
  | .word _ => none

/-- The error that `Sign` and `Verify` return for the codes 1 and 2 (R90, R91, R240). -/
def errorOfCode (e : BitVec 4) : Option ErrKind :=
  if e = 1 then some .keyLengthInvalid else if e = 2 then some .primitiveFailure else none

/-- What `Sign` returns, from what its reads answered: `STATUS`, `TLEN`, the bytes of `TAG` (R90). Other answers are
none of its program's. -/
def signResult (as : List Answer) : Option SignResult :=
  match as with
  | .word e :: .word _ :: t =>
    if statusErr e = 0 then some (.tag (t.filterMap answerByte)) else (errorOfCode (statusErr e)).map .error
  | _ => none

/-- What `Verify` returns, from what its read of `STATUS` answered (R91). -/
def verifyResult (as : List Answer) : Option VerifyResult :=
  match as with
  | [.word w] =>
    if statusErr w = 0 ∨ statusErr w = 3 then some (.verdict (w.getLsbD 2)) else (errorOfCode (statusErr w)).map .error
  | _ => none

end Sys2Proof.Machine
end

