-- ==== Sys2Proof/Machine/Sequencer.lean ====
section
/-! DEFINITION. The hard-wired sequencer (spec/44_system_and_sequencer.md R180, R183, R184). -/

namespace Sys2Proof.Machine

/-- The engine step: the one that `PH` names (R183, R184). -/
def engineStep (s : State) : Result :=
  match s.ph with
  | .idle => .fault (.strayPhase s.ph s.ir)
  | .dDbl => stepDDbl s
  | .zClr => stepZClr s
  | .vLen => stepVLen s
  | .sChk => stepSChk s
  | .sL => stepSL s
  | .sK1 => stepSK1 s
  | .sK2 => stepSK2 s
  | .cInit => stepCInit s
  | .cSel => stepCSel s
  | .cXor => stepCXor s
  | .cEnc => stepCEnc s
  | .cFXor => stepCFXor s
  | .cFEnc => stepCFEnc s
  | .hNorm => stepHNorm s
  | .hPads => stepHPads s
  | .hInner => stepHInner s
  | .hOuter => stepHOuter s
  | .oTag => stepOTag s
  | .oCmp => stepOCmp s
  | .fin => stepFin s

/-- The engine's turn: its step where `BUSY = 1`, nothing where `BUSY = 0` (R180). -/
def engineTurn (s : State) : Result := if s.stat.busy then engineStep s else .next s

/-- `n` turns of the engine with nothing between them. -/
def engineTurns : Nat → State → Result
  | 0, s => .next s
  | n + 1, s =>
    match engineTurn s with
    | .next t => engineTurns n t
    | .fault f => .fault f
    | .refused r => .refused r

/-- The steps a command takes when nothing aborts it (R134, R150, R170, R185), from the state at its issue. -/
def stepCount (i : Instr) (s : State) : Nat :=
  match i with
  | .signHmac => 6
  | .signCmac => 2 * blockCount s.inp.mlen.toNat + 8
  | .verifyHmac => if s.inp.ctlen.toNat = tagLen .verifyHmac then 7 else 2
  | .verifyCmac => if s.inp.ctlen.toNat = tagLen .verifyCmac then 2 * blockCount s.inp.mlen.toNat + 9 else 2
  | .deriveCmac => 5
  | .dbl => 2
  | .clear => 2

/-- The phases a command can be in while it runs (R185). -/
def phasesOf : Instr → List Phase
  | .signHmac => [.hNorm, .hPads, .hInner, .hOuter, .oTag, .fin]
  | .signCmac => [.sChk, .sL, .sK1, .sK2, .cInit, .cSel, .cXor, .cEnc, .cFXor, .cFEnc, .oTag, .fin]
  | .verifyHmac => [.vLen, .hNorm, .hPads, .hInner, .hOuter, .oCmp, .fin]
  | .verifyCmac => [.vLen, .sChk, .sL, .sK1, .sK2, .cInit, .cSel, .cXor, .cEnc, .cFXor, .cFEnc, .oCmp, .fin]
  | .deriveCmac => [.sChk, .sL, .sK1, .sK2, .fin]
  | .dbl => [.dDbl, .fin]
  | .clear => [.zClr, .fin]

/-- The step at hand invokes the cipher, once (R108, R131, R133). -/
def invokesCipher (s : State) : Bool := s.stat.busy && [Phase.sL, .cEnc, .cFEnc].contains s.ph

/-- The step at hand invokes the hash, once: `H_NORM` only for a key longer than 64 bytes (R146, R148, R149). -/
def invokesHash (s : State) : Bool :=
  s.stat.busy && (s.ph == .hInner || s.ph == .hOuter || (s.ph == .hNorm && decide (s.inp.klen.toNat > 64)))

/-- How many of the next `n` turns of the engine begin in a state of which `p` holds (R134, R150). -/
def countTurns (p : State → Bool) : Nat → State → Nat
  | 0, _ => 0
  | n + 1, s =>
    (if p s then 1 else 0) +
      match engineTurn s with
      | .next t => countTurns p n t
      | .fault _ => 0
      | .refused _ => 0

end Sys2Proof.Machine
end

