-- ==== Sys2Proof/Machine/Events.lean ====
section
/-! DEFINITION. What each event does (spec/44_system_and_sequencer.md R180, R186, R194; spec/20_memory.md R75). -/

namespace Sys2Proof.Machine

/-- A command word written and its command run to its end, as one transition (R186); an illegal word ends at once
(R182). -/
def performCommand (w : Word) (s : State) : Result :=
  match decode w with
  | .ok i => exec i s
  | .error _ => .next (hostWr 0 w s)

/-- `WAIT` (R89): the engine runs while `BUSY = 1`; the host stops polling when it has read `BUSY = 0` and
`DONE = 1`, and polls on otherwise. -/
def performWait (s : State) : Result :=
  if s.stat.busy then engineStep { s with script := .wait :: s.script }
  else if s.stat.done then .next s
  else .next { s with script := .wait :: s.script }

/-- `READ sp, n`, with `n` the word that the host's last line returned: its `n` lines are the host's next ones
(R89, R90). -/
def performRead (sp : Nat) (s : State) : State := { s with script := readLines sp (lastWord s.answers) ++ s.script }

/-- One event, taken off the script (R180): a host access, enabled in every state (R194); the engine's turn; reset;
or a host action made of these. -/
def perform (e : Event) (s : State) : Result :=
  match e with
  | .hostRd n => .next (answer (.word (hostRd s n)) s)
  | .hostWr n w => .next (hostWr n w s)
  | .hostRdB sp i => .next (answer (.byte (hostRdB s sp i)) s)
  | .hostWrB sp i b => .next (hostWrB sp i b s)
  | .engine => engineTurn s
  | .reset => .next (resetEngine s)
  | .wait => performWait s
  | .read sp => .next (performRead sp s)
  | .command w => performCommand w s

end Sys2Proof.Machine
end

