-- ==== Sys2Proof/Machine/Step.lean ====
section
/-! DEFINITION. One step of the machine (spec/44_system_and_sequencer.md R180), and a command put where the next step
finds it. -/

namespace Sys2Proof.Machine

/-- The next event of the script happens; when the script is empty the host is quiet, reset does not fire, and the
engine goes on by itself (R180, R187, R193). -/
def step (s : State) : Host.Outcome State Fault Refusal :=
  match s.script with
  | [] => engineTurn s
  | e :: rest => perform e { s with script := rest }

/-- The same state with the command word `w` as the host's next action: the machine fetches no instruction, its only
program text is the word written to `CMD` (R79, R271). Every command is one 32-bit word, so `nbits` decides
nothing (R87). -/
def State.withFetchWord (s : State) (_nbits w : Nat) : State :=
  { s with script := .command (BitVec.ofNat 32 w) :: s.script }

end Sys2Proof.Machine
end

