-- ==== Sys2Proof/Machine/Platform.lean ====
section
/-! DEFINITION. A platform of `NINST` engine instances that share nothing (spec/60_exceptions.md R262;
spec/20_memory.md R78: one host per instance). -/

namespace Sys2Proof.Machine

/-- The instances of a platform: there is at least one (R8, R262). -/
structure Platform where
  first  : State
  others : List State
  deriving DecidableEq, Repr

/-- The instances in order. An instance has no identifier register: its place here is where the platform puts it. -/
def Platform.engines (p : Platform) : List State := p.first :: p.others

/-- `NINST` of a platform. -/
def Platform.ninst (p : Platform) : Nat := p.engines.length

/-- Instance `k` becomes `t`. -/
def Platform.put (p : Platform) (k : Nat) (t : State) : Platform :=
  match k with
  | 0 => { p with first := t }
  | j + 1 => { p with others := p.others.set j t }

/-- A platform with these parameters: all instances start in the reset state (R262). Parameters that R8 does not allow,
`NINST = 0` among them, make no platform. -/
def Platform.reset (c : PlatformConfig) : Option Platform :=
  if c.wellFormed then
    some { first := { State.reset with cfg := c.engine }
           others := List.replicate (c.ninst - 1) { State.reset with cfg := c.engine } }
  else none

/-- Instance `k` takes its next step, and no other instance takes part in it (R262). -/
def Platform.stepAt (k : Nat) (p : Platform) : Host.Outcome Platform Fault Refusal :=
  match p.engines[k]? with
  | none => .next p
  | some s =>
    match step s with
    | .next t => .next (p.put k t)
    | .fault f => .fault f
    | .refused r => .refused r

end Sys2Proof.Machine
end

