-- ==== Sys2Proof/Safety.lean ====
section
/-! DEFINITION. What a safe run is: the invariants of spec/10_state.md R46 with what else every reachable state has
(R38, R40, R66, spec/44_system_and_sequencer.md R184, R185); and the functions and relations the claims are stated
with. -/

namespace Sys2Proof.Machine

/-- The phases after the key length has been checked and before the tag is known: those of the cipher (R184). -/
def cipherPhases : List Phase := [.sL, .sK1, .sK2, .cInit, .cSel, .cXor, .cEnc, .cFXor, .cFEnc]

/-- The phases in which the block count is set (R184). -/
def loopPhases : List Phase := [.cSel, .cXor, .cEnc, .cFXor, .cFEnc]

/-- `IR` holds a `SIGN` word. -/
abbrev irIsSign (s : State) : Prop := s.ir = encode .signHmac ∨ s.ir = encode .signCmac

/-- `IR` holds a `VERIFY` word. -/
abbrev irIsVerify (s : State) : Prop := s.ir = encode .verifyHmac ∨ s.ir = encode .verifyCmac

/-- The invariant of the machine. -/
structure Inv (s : State) : Prop where
  /-- The parameters meet R8. -/
  config : s.cfg.wellFormed = true
  /-- `KLEN` and `MLEN` hold KLENW and LENW bits (R21, R25, R26). -/
  lengthsFit : s.inp.klen.toNat < 2 ^ s.cfg.klenw ∧ s.inp.mlen.toNat < 2 ^ s.cfg.lenw
  /-- `KEY` is in canonical form, inside its size (R29). -/
  keyForm : s.inp.key.wf = true ∧ s.inp.key.within s.cfg.kmax = true
  /-- `MSG` is in canonical form, inside its size (R29). -/
  msgForm : s.inp.msg.wf = true ∧ s.inp.msg.within s.cfg.mmax = true
  /-- `N` and `BLK` hold LENW-3 bits (R38). -/
  countersFit : s.work.n < 2 ^ (s.cfg.lenw - 3) ∧ s.work.blk < 2 ^ (s.cfg.lenw - 3)
  /-- R46 (a). -/
  busyPhase : s.stat.busy = true ↔ s.ph ≠ .idle
  /-- R46 (b). -/
  idleWork : s.stat.busy = false → s.work = Work.zero
  /-- R46 (c). -/
  busyNotDone : ¬ (s.stat.busy = true ∧ s.stat.done = true)
  /-- R46 (e), the values of `TLEN`. -/
  tlenValues : s.out.tlen = 0 ∨ s.out.tlen = 16 ∨ s.out.tlen = 32
  /-- R46 (e), the bytes of `TAG` past `TLEN`. -/
  tagRest : ∀ i, s.out.tlen.toNat ≤ i → i < 32 → byteAt s.out.tag i = 0
  /-- R46 (f), with the phase `FIN` beside `BUSY = 0` (log entry 12). -/
  tagOwner : s.out.tlen ≠ 0 → s.stat.err = .none ∧ (s.stat.busy = false ∨ s.ph = .fin) ∧ irIsSign s
  /-- R46 (g), with the phase `FIN` beside `BUSY = 0` (log entry 12). -/
  vokOwner : s.stat.vok = true → s.stat.err = .none ∧ (s.stat.busy = false ∨ s.ph = .fin) ∧ irIsVerify s
  /-- R46 (h). -/
  subkeysOwner : s.stat.busy = false → s.out.k1 ≠ 0 ∨ s.out.k2 ≠ 0 → s.ir = encode .deriveCmac ∧ s.stat.err = .none
  /-- `PH` is a phase of the command in `IR` (R185). -/
  sequence : s.stat.busy = true → ∃ i, irCommand s = some i ∧ s.ph ∈ phasesOf i
  /-- While a command runs, `ERR` is 0, or 3 on the way from `V_LEN` to `FIN` (R41, R161). -/
  errWhileBusy : s.stat.busy = true →
    s.stat.err = .none ∨ (s.stat.err = .tagLengthMismatch ∧ s.ph = .fin ∧ irIsVerify s)
  /-- The cipher is used only with a key of 16 bytes (R66, R107). -/
  keyChecked : s.ph ∈ cipherPhases → s.inp.klen = 16
  /-- `N` is the block count and `BLK` never passes `N - 1` (R38, R40). -/
  loopCount : s.ph ∈ loopPhases → s.work.n = blockCount s.inp.mlen.toNat ∧ s.work.blk ≤ s.work.n - 1
  /-- A block is chained only with `BLK <= N - 2` (R130). -/
  loopInside : s.ph = .cXor ∨ s.ph = .cEnc → s.work.blk < s.work.n - 1
  /-- At `O_TAG` of `SIGN.CMAC`, `T[16..31]` is zero (R133, R188). -/
  tagTail : s.ph = .oTag → s.ir = encode .signCmac → ∃ x, s.work.t = tagOfBlock x

/-- R46 as it is written. Its parts (f) and (g) and the steps `O_TAG` (R188) and `O_CMP` (R164) exclude each other in the
one state before `FIN` (spec/95_test_vectors.md, row 13 of T-1 and row 6 of T-2; log entry 12), so it is claimed of
every state of the invariant that is not in phase `FIN`. -/
structure Rule46 (s : State) : Prop where
  a : s.stat.busy = false ↔ s.ph = .idle
  b : s.stat.busy = false → s.work = Work.zero
  c : ¬ (s.stat.busy = true ∧ s.stat.done = true)
  d : (errCode s.stat.err).toNat ≤ 4
  e : (s.out.tlen = 0 ∨ s.out.tlen = 16 ∨ s.out.tlen = 32) ∧ ∀ i, s.out.tlen.toNat ≤ i → i < 32 → byteAt s.out.tag i = 0
  f : s.out.tlen ≠ 0 → s.stat.err = .none ∧ s.stat.busy = false ∧ irIsSign s
  g : s.stat.vok = true → s.stat.err = .none ∧ s.stat.busy = false ∧ irIsVerify s
  h : s.stat.busy = false → s.out.k1 ≠ 0 ∨ s.out.k2 ≠ 0 → s.ir = encode .deriveCmac ∧ s.stat.err = .none

/-- R46 (f) and (g), of `TLEN` and `VOK` as the host reads them (R68). -/
structure Rule46Host (s : State) : Prop where
  f : hostRd s 6 ≠ 0 → s.stat.err = .none ∧ s.stat.busy = false ∧ irIsSign s
  g : (hostRd s 1).getLsbD 2 = true → s.stat.err = .none ∧ s.stat.busy = false ∧ irIsVerify s

/-- The machine goes on. -/
def Continues (s : State) : Prop := ∃ t, step s = .next t

/-- The state after a command that did not abort, from the state `s` at its issue: the inputs, the parameters, `CTRL`
and the model's own fields as they were, every working register wiped (R181, R190, R192). -/
def endState (i : Instr) (s : State) (out : Outputs) (vok cy : Bool) (err : ErrKind) : State :=
  { s with
    stat := { busy := false, done := true, vok := vok, cy := cy, err := err }
    out := out
    work := Work.zero
    ir := encode i
    ph := .idle }

/-- `Sign(key, message, algorithm)` as a function of its arguments (R90, R121, R141). -/
def pureSign (c : Config) (alg : Alg) (key msg : List Byte) : SignResult :=
  match alg with
  | .hmacSha256 =>
    match hmac c key msg with
    | some t => .tag (bytesOf t)
    | none => .error .primitiveFailure
  | .cmacAes128 =>
    if key.length ≠ 16 then .error .keyLengthInvalid
    else match cmac c (ofBytes 128 key) msg with
      | some x => .tag (bytesOf x)
      | none => .error .primitiveFailure

/-- `Verify(key, message, tag, algorithm)` as a function of its arguments: the tag's length is checked first
(R91, R165, R169). -/
def pureVerify (c : Config) (alg : Alg) (key msg tag : List Byte) : VerifyResult :=
  if tag.length ≠ algTagLen alg then .verdict false
  else match pureSign c alg key msg with
    | .tag t => .verdict (decide (t = tag))
    | .error e => .error e

/-- Two states in which a command reads the same (R47): the parameters, the lengths, the bytes inside the lengths,
`CTAG` and `V`. -/
structure SameOperands (s t : State) : Prop where
  cfg   : s.cfg = t.cfg
  klen  : s.inp.klen = t.inp.klen
  mlen  : s.inp.mlen = t.inp.mlen
  ctlen : s.inp.ctlen = t.inp.ctlen
  ctag  : s.inp.ctag = t.inp.ctag
  v     : s.inp.v = t.inp.v
  key   : ∀ i, i < s.inp.klen.toNat → s.inp.key.read i = t.inp.key.read i
  msg   : ∀ i, i < s.inp.mlen.toNat → s.inp.msg.read i = t.inp.msg.read i

/-- Neither primitive of an instance ever fails. -/
def NeverFails (c : Config) : Prop :=
  (∀ k b, encPort c k b ≠ none) ∧ ∀ m, hashPort c m ≠ none

/-- The phase after `n` turns of the engine. -/
def phaseAfter (n : Nat) (s : State) : Option Phase :=
  match engineTurns n s with
  | .next t => some t.ph
  | .fault _ => none
  | .refused _ => none

/-- The pair `C_XOR`, `C_ENC` this many times (R185). -/
def loopSequence : Nat → List Phase
  | 0 => []
  | n + 1 => .cXor :: .cEnc :: loopSequence n

/-- The steps of a CMAC computation from `S_CHK` to `C_FENC`, for a block count (R185). -/
def cmacSequence (n : Nat) : List Phase :=
  [.sChk, .sL, .sK1, .sK2, .cInit, .cSel] ++ loopSequence (n - 1) ++ [.cFXor, .cFEnc]

/-- The step sequence of a command when nothing aborts it, from the state at its issue (R185). -/
def phaseSequence (i : Instr) (s : State) : List Phase :=
  match i with
  | .dbl => [.dDbl, .fin]
  | .clear => [.zClr, .fin]
  | .deriveCmac => [.sChk, .sL, .sK1, .sK2, .fin]
  | .signCmac => cmacSequence (blockCount s.inp.mlen.toNat) ++ [.oTag, .fin]
  | .verifyCmac =>
    if s.inp.ctlen = 16 then .vLen :: cmacSequence (blockCount s.inp.mlen.toNat) ++ [.oCmp, .fin] else [.vLen, .fin]
  | .signHmac => [.hNorm, .hPads, .hInner, .hOuter, .oTag, .fin]
  | .verifyHmac =>
    if s.inp.ctlen = 32 then [.vLen, .hNorm, .hPads, .hInner, .hOuter, .oCmp, .fin] else [.vLen, .fin]

/-- The state right after the issue of a legal command (R181). -/
def issued (i : Instr) (s : State) : State := beginCommand i (issueActions (encode i) s)

/-- The two states are one but for the script and what the host has read. -/
def SameEngine (s t : State) : Prop := { s with script := t.script, answers := t.answers } = t

/-- What a host can read is the same in both states: every register and every byte (R68, R70). -/
def SameToHost (s t : State) : Prop :=
  (∀ n, hostRd s n = hostRd t n) ∧ (∀ sp i, hostRdB s sp i = hostRdB t sp i) ∧ irq s = irq t

end Sys2Proof.Machine
end

