-- ==== Sys2Proof/Certificates/Slice0/Obligations.lean ====
section
/-! DEFINITION. The statements about the MAC engine, from the numbered rules of spec/. -/

open Sys2Proof Sys2Proof.Machine

/-! ## The command words -/

/-- R83: the seven words and what each decodes to; beside them words of file 95 that are illegal, with the check of
R86 that refuses each. -/
def Obligations.SpecWordsDecode : Prop :=
  (decode 0x00000001 = .ok .signHmac ∧ decode 0x00000011 = .ok .signCmac ∧ decode 0x00000002 = .ok .verifyHmac ∧
    decode 0x00000012 = .ok .verifyCmac ∧ decode 0x00000013 = .ok .deriveCmac ∧ decode 0x00000004 = .ok .dbl ∧
    decode 0x0000000F = .ok .clear) ∧
  (decode 0x00000000 = .error .reservedOp ∧ decode 0x00000003 = .error .wrongAlg ∧
    decode 0x00000014 = .error .wrongAlg ∧ decode 0x0000001F = .error .wrongAlg ∧
    decode 0x00000021 = .error .reservedAlg ∧ decode 0x0000000E = .error .reservedOp ∧
    decode 0x80000011 = .error .zeroField)

/-- Decoding the word of any command gives the command back, through the host's numbering of the word as well, and the
command is well formed. -/
def Obligations.EncodedCommandDecodesToItself : Prop :=
  ∀ i : Instr, decode (encode i) = .ok i ∧ decodeTableWord 32 (encode i).toNat = some i ∧ i.wellFormed = true

/-- R84: a word equal to one of the seven decodes to its command, and every other word to `ILLEGAL`. -/
def Obligations.OnlySevenWordsAreLegal : Prop :=
  ∀ w : Word, (∀ i, decode w = .ok i ↔ w = encode i) ∧ ((∃ e, decode w = .error e) ↔ ∀ i, w ≠ encode i)

/-- R86: which words are illegal, from the number the word is, and that issuing one is not undefined: `ERR = 4`,
`DONE = 1`, no step and no primitive, the outputs wiped, everything else as it was. -/
def Obligations.IllegalWordsAreReported : Prop :=
  ∀ (s : State) (w : Word), s.stat.busy = false →
    (w.toNat / 256 ≠ 0 ∨ w.toNat % 16 = 0 ∨ (5 ≤ w.toNat % 16 ∧ w.toNat % 16 ≤ 14) ∨
      (w.toNat % 16 ≤ 2 ∧ 2 ≤ w.toNat / 16 % 16) ∨ (w.toNat % 16 = 3 ∧ w.toNat / 16 % 16 ≠ 1) ∨
      (w.toNat % 16 = 4 ∧ w.toNat / 16 % 16 ≠ 0) ∨ (w.toNat % 16 = 15 ∧ w.toNat / 16 % 16 ≠ 0) ↔
      ∃ e, decode w = .error e) ∧
    ((∃ e, decode w = .error e) →
      hostWr 0 w s = { s with
        out := Outputs.zero, work := Work.zero, ir := w
        stat := { busy := false, done := true, vok := false, cy := false, err := .illegalCommand } } ∧
      performCommand w s = .next (hostWr 0 w s))

/-! ## A step -/

/-- A step runs the command whose word stands next: it is `exec` of the command, in the state with the word taken off
the script; and `withFetchWord` puts a word there. A word that is no command ends at once (R182, R186). That a command
comes from the script is the model's choice (log entries 1 and 2). -/
def Obligations.StepRunsTheDecodedCommand : Prop :=
  (∀ (s : State) (w : Word) (rest : List Event) (i : Instr), s.script = .command w :: rest → decode w = .ok i →
    step s = exec i { s with script := rest }) ∧
  (∀ (s : State) (w : Word) (rest : List Event) (e : Illegal), s.script = .command w :: rest → decode w = .error e →
    step s = .next (hostWr 0 w { s with script := rest })) ∧
  (∀ (s : State) (nbits w : Nat) (i : Instr), decodeTableWord nbits w = some i →
    step (s.withFetchWord nbits w) = exec i s)

/-- R180: what each kind of transition does when it is next in the order of things, and that with nothing set to happen
the engine alone goes on, and does nothing while `BUSY = 0`. That the order stands in the script, and the host's reads in
the answers, is the model's choice (log entries 1 and 4); so is the clause of `READ`, a step of the host alone that is no
transition of R180 and puts the lines of R89 into the script, as many as the word read last says (log entry 17). -/
def Obligations.StepIsOneTransition : Prop :=
  ∀ (s : State) (rest : List Event),
    (∀ n, s.script = .hostRd n :: rest →
      step s = .next { s with script := rest, answers := s.answers ++ [.word (hostRd s n)] }) ∧
    (∀ n w, s.script = .hostWr n w :: rest → step s = .next (hostWr n w { s with script := rest })) ∧
    (∀ sp i, s.script = .hostRdB sp i :: rest →
      step s = .next { s with script := rest, answers := s.answers ++ [.byte (hostRdB s sp i)] }) ∧
    (∀ sp i b, s.script = .hostWrB sp i b :: rest → step s = .next (hostWrB sp i b { s with script := rest })) ∧
    (∀ sp w as, s.script = .read sp :: rest → s.answers = as ++ [.word w] →
      step s = .next { s with script := (List.range w.toNat).map (fun i => .hostRdB sp i) ++ rest }) ∧
    (s.script = .reset :: rest → step s = .next (resetEngine { s with script := rest })) ∧
    (s.script = .engine :: rest → s.stat.busy = true → step s = engineStep { s with script := rest }) ∧
    (s.script = .engine :: rest → s.stat.busy = false → step s = .next { s with script := rest }) ∧
    (s.script = [] → s.stat.busy = true → step s = engineStep s) ∧
    (s.script = [] → s.stat.busy = false → step s = .next s)

/-- R89, `WAIT`: while `BUSY = 1` the engine takes its steps and the host goes on polling; the host goes on with its
next line once it has read `BUSY = 0` and `DONE = 1`; until then it polls. That an enabled engine step is taken at once
while the host waits is the model's choice (log entry 1; R187 assumes that it is taken in the end). -/
def Obligations.WaitPollsUntilDone : Prop :=
  ∀ (s : State) (rest : List Event), s.script = .wait :: rest →
    (s.stat.busy = true → step s = engineStep s) ∧
    (s.stat.busy = false → s.stat.done = true → step s = .next { s with script := rest }) ∧
    (s.stat.busy = false → s.stat.done = false → step s = .next s)

/-! ## Issue -/

/-- R181, R182: the issue actions of a legal word, with the phase each command starts in; of an illegal word; and a
write to `CMD` while `BUSY = 1`, which is dropped. -/
def Obligations.CommandIssue : Prop :=
  (∀ (s : State) (i : Instr), s.stat.busy = false →
    hostWr 0 (encode i) s = { s with
      out := { k1 := 0, k2 := 0, tag := 0, tlen := 0 }, work := Work.zero, ir := encode i
      stat := { busy := true, done := false, vok := false, cy := false, err := .none }
      ph := match i with
        | .signHmac => .hNorm
        | .signCmac => .sChk
        | .verifyHmac => .vLen
        | .verifyCmac => .vLen
        | .deriveCmac => .sChk
        | .dbl => .dDbl
        | .clear => .zClr }) ∧
  (∀ (s : State) (w : Word) (e : Illegal), s.stat.busy = false → decode w = .error e →
    hostWr 0 w s = { s with
      out := { k1 := 0, k2 := 0, tag := 0, tlen := 0 }, work := Work.zero, ir := w
      stat := { busy := false, done := true, vok := false, cy := false, err := .illegalCommand } }) ∧
  (∀ (s : State) (w : Word), s.stat.busy = true → hostWr 0 w s = s)

/-- R22, R280: while a command is in progress a command word is dropped, whether it is written as a step of the host or
as a whole command. -/
def Obligations.CommandWhileBusyIsDropped : Prop :=
  ∀ (s : State), s.stat.busy = true →
    (∀ i, exec i s = .next s) ∧
    (∀ w rest, s.script = .hostWr 0 w :: rest → step s = .next { s with script := rest }) ∧
    (∀ w rest, s.script = .command w :: rest → step s = .next { s with script := rest })

/-! ## The doubling -/

/-- R100: the doubling byte by byte. -/
def Obligations.DoublingShiftsAndReduces : Prop :=
  ∀ v : Block,
    (∀ i, i < 15 → byteAt (dbl v) i = (byteAt v i <<< 1) ||| (byteAt v (i + 1) >>> 7)) ∧
    byteAt (dbl v) 15 =
      if (byteAt v 0).getLsbD 7 then (byteAt v 15 <<< 1) ^^^ 0x87 else byteAt v 15 <<< 1

/-- R101, first sentence: the doubling of the value as an integer. -/
def Obligations.DoublingAsInteger : Prop :=
  ∀ v : Block, (dbl v).toNat = ((2 * v.toNat) % 2 ^ 128) ^^^ (if 2 ^ 127 ≤ v.toNat then 0x87 else 0)

/-- R102 (b) to (f): the doubling fixes zero, leaves the operand's top bit in bit 0, is undone as (d) says, is linear
over xor, and reduces by the operand's top bit. -/
def Obligations.DoublingIsLinearBijection : Prop :=
  dbl 0 = 0 ∧
  (∀ v : Block, (byteAt (dbl v) 15).getLsbD 0 = (byteAt v 0).getLsbD 7) ∧
  Function.Bijective dbl ∧
  (∀ v d : Block, d = dbl v →
    v = ((if d.getLsbD 0 then d ^^^ 0x87 else d) >>> 1) ||| (if d.getLsbD 0 then (1 : Block) <<< 127 else 0)) ∧
  (∀ a b : Block, dbl (a ^^^ b) = dbl a ^^^ dbl b) ∧
  dbl ((0x80 : Block) <<< 120) = 0x87

/-! ## The commands -/

/-- R103, `DBL`: the result, and everything it leaves as it was; the two steps it takes; its corner cases and its
example. -/
def Obligations.DblDoublesV : Prop :=
  (∀ s : State, s.stat.busy = false →
    exec .dbl s = .next (endState .dbl { s with inp := { s.inp with v := dbl s.inp.v } } Outputs.zero false
      ((byteAt s.inp.v 0).getLsbD 7) .none) ∧
    phaseAfter 0 (issued .dbl s) = some .dDbl ∧ phaseAfter 1 (issued .dbl s) = some .fin ∧
    engineTurns 2 (issued .dbl s) = exec .dbl s) ∧
  dbl 0 = 0 ∧ dbl 0x80000000000000000000000000000000 = 0x87 ∧
  dbl 0xffffffffffffffffffffffffffffffff = 0xffffffffffffffffffffffffffffff79 ∧
  dbl 0x7fffffffffffffffffffffffffffffff = 0xfffffffffffffffffffffffffffffffe ∧
  dbl 0x7df76b0c1ab899b33e42f047b91b546f = 0xfbeed618357133667c85e08f7236a8de

/-- R105, `DERIVE.CMAC`: the subkeys left readable, or the error, and everything it leaves as it was. -/
def Obligations.DeriveLeavesSubkeys : Prop :=
  ∀ s : State, s.stat.busy = false →
    (s.inp.klen ≠ 16 →
      exec .deriveCmac s = .next (endState .deriveCmac s Outputs.zero false false .keyLengthInvalid)) ∧
    (s.inp.klen = 16 → encPort s.cfg (cipherKey s) 0 = none →
      exec .deriveCmac s = .next (endState .deriveCmac s Outputs.zero false false .primitiveFailure)) ∧
    (∀ l, s.inp.klen = 16 → encPort s.cfg (cipherKey s) 0 = some l →
      exec .deriveCmac s =
        .next (endState .deriveCmac s { k1 := dbl l, k2 := dbl (dbl l), tag := 0, tlen := 0 } false false .none))

/-- R121, `SIGN.CMAC`: `TAG[0..15] = cmac(KEY[0..15], MSG[0..MLEN-1])`, `TAG[16..31]` zero, `TLEN = 16`, or the error;
and everything it leaves as it was. -/
def Obligations.SignCmacReleasesTag : Prop :=
  ∀ s : State, s.stat.busy = false →
    (s.inp.klen ≠ 16 →
      exec .signCmac s = .next (endState .signCmac s Outputs.zero false false .keyLengthInvalid)) ∧
    (s.inp.klen = 16 → cmac s.cfg (cipherKey s) (msgBytes s) = none →
      exec .signCmac s = .next (endState .signCmac s Outputs.zero false false .primitiveFailure)) ∧
    (∀ x, s.inp.klen = 16 → cmac s.cfg (cipherKey s) (msgBytes s) = some x →
      exec .signCmac s =
        .next (endState .signCmac s { k1 := 0, k2 := 0, tag := x ++ (0 : Block), tlen := 16 } false false .none))

/-- R141, `SIGN.HMAC`: `TAG = hmac(KEY[0..KLEN-1], MSG[0..MLEN-1])`, `TLEN = 32`, or the error; and everything it
leaves as it was. -/
def Obligations.SignHmacReleasesTag : Prop :=
  ∀ s : State, s.stat.busy = false →
    (hmac s.cfg (keyBytes s) (msgBytes s) = none →
      exec .signHmac s = .next (endState .signHmac s Outputs.zero false false .primitiveFailure)) ∧
    (∀ t, hmac s.cfg (keyBytes s) (msgBytes s) = some t →
      exec .signHmac s =
        .next (endState .signHmac s { k1 := 0, k2 := 0, tag := t, tlen := 32 } false false .none))

/-- R160, R170, `VERIFY.HMAC`: every outcome, and everything it leaves as it was. -/
def Obligations.VerifyHmacOutcomes : Prop :=
  ∀ s : State, s.stat.busy = false →
    (s.inp.ctlen ≠ 32 →
      exec .verifyHmac s = .next (endState .verifyHmac s Outputs.zero false false .tagLengthMismatch)) ∧
    (s.inp.ctlen = 32 → hmac s.cfg (keyBytes s) (msgBytes s) = none →
      exec .verifyHmac s = .next (endState .verifyHmac s Outputs.zero false false .primitiveFailure)) ∧
    (∀ t, s.inp.ctlen = 32 → hmac s.cfg (keyBytes s) (msgBytes s) = some t →
      exec .verifyHmac s = .next (endState .verifyHmac s Outputs.zero (decide (s.inp.ctag = t)) false .none))

/-- R166, R169, R170, `VERIFY.CMAC`: every outcome, the tag length checked before the key length, and everything it
leaves as it was. -/
def Obligations.VerifyCmacOutcomes : Prop :=
  ∀ s : State, s.stat.busy = false →
    (s.inp.ctlen ≠ 16 →
      exec .verifyCmac s = .next (endState .verifyCmac s Outputs.zero false false .tagLengthMismatch)) ∧
    (s.inp.ctlen = 16 → s.inp.klen ≠ 16 →
      exec .verifyCmac s = .next (endState .verifyCmac s Outputs.zero false false .keyLengthInvalid)) ∧
    (s.inp.ctlen = 16 → s.inp.klen = 16 → cmac s.cfg (cipherKey s) (msgBytes s) = none →
      exec .verifyCmac s = .next (endState .verifyCmac s Outputs.zero false false .primitiveFailure)) ∧
    (∀ x, s.inp.ctlen = 16 → s.inp.klen = 16 → cmac s.cfg (cipherKey s) (msgBytes s) = some x →
      exec .verifyCmac s =
        .next (endState .verifyCmac s Outputs.zero
          (decide (∀ i : Fin 16, byteAt s.inp.ctag i = byteAt x i)) false .none))

/-- R198, `CLEAR`: everything but `CTRL` wiped, in two steps; `irq` rises when `IE = 1`; after an acknowledge the state
differs from the reset state only in `IR` and `CTRL`; and a `SIGN.CMAC` that follows aborts with `ERR = 1`. -/
def Obligations.ClearWipesTheEngine : Prop :=
  ∀ s : State, s.stat.busy = false →
    exec .clear s = .next (endState .clear { s with inp := Inputs.zero } Outputs.zero false false .none) ∧
    phaseAfter 0 (issued .clear s) = some .zClr ∧ phaseAfter 1 (issued .clear s) = some .fin ∧
    engineTurns 2 (issued .clear s) = exec .clear s ∧
    (∀ t, exec .clear s = .next t →
      irq t = s.ie ∧ hostWr 1 2 t = { resetEngine s with ir := 0x0000000F, ie := s.ie } ∧
      (∃ u, exec .signCmac t = .next u ∧ u.stat.err = .keyLengthInvalid ∧ u.out = Outputs.zero))

/-- R136, R153: no command but `CLEAR` changes `KEY`, `KLEN`, `MSG`, `MLEN`, `CTAG`, `CTLEN`, none but `DBL` and `CLEAR`
changes `V`, and none changes `CTRL` or the parameters. -/
def Obligations.CommandsLeaveInputs : Prop :=
  ∀ (i : Instr) (s t : State), exec i s = .next t →
    t.ie = s.ie ∧ t.cfg = s.cfg ∧ t.script = s.script ∧ t.answers = s.answers ∧
    (i ≠ .clear → t.inp = { s.inp with v := t.inp.v }) ∧
    (i ≠ .clear → i ≠ .dbl → t.inp.v = s.inp.v)

/-! ## The functions the commands compute -/

/-- R104: the subkeys of a key. -/
def Obligations.SubkeysOfKey : Prop :=
  ∀ (c : Config) (key : Block),
    (encPort c key 0 = none → subkeys c key = none) ∧
    (∀ l, encPort c key 0 = some l → subkeys c key = some (l, dbl l, dbl (dbl l)))

/-- R122: the block count. -/
def Obligations.BlockCountCoversMessage : Prop :=
  ∀ len : Nat, 1 ≤ blockCount len ∧ len ≤ 16 * blockCount len ∧
    (len = 0 → blockCount len = 1) ∧ (len ≠ 0 → 16 * (blockCount len - 1) < len) ∧
    (∀ i, i < blockCount len - 1 → 16 * i + 16 ≤ len)

/-- R123, R124: the final block's bytes, in the complete and in the incomplete case. -/
def Obligations.FinalBlockSelection : Prop :=
  ∀ (msg : List Byte) (k1 k2 : Block),
    (msg ≠ [] → msg.length % 16 = 0 → ∀ i, i < 16 →
      byteAt (finalBlock msg.length (msg.drop (16 * (blockCount msg.length - 1))) k1 k2) i =
        msg.getD (16 * (blockCount msg.length - 1) + i) 0 ^^^ byteAt k1 i) ∧
    (msg = [] ∨ msg.length % 16 ≠ 0 → ∀ i, i < 16 →
      byteAt (finalBlock msg.length (msg.drop (16 * (blockCount msg.length - 1))) k1 k2) i =
        (if 16 * (blockCount msg.length - 1) + i < msg.length then msg.getD (16 * (blockCount msg.length - 1) + i) 0
          else if 16 * (blockCount msg.length - 1) + i = msg.length then 0x80 else 0) ^^^ byteAt k2 i)

/-- R127: a message of at most one block is enciphered once, with the subkey its length selects; for the empty message
the block is `K2` with its top bit inverted. -/
def Obligations.SingleBlockMessages : Prop :=
  ∀ (c : Config) (key l : Block) (msg : List Byte), encPort c key 0 = some l →
    (msg.length = 16 → cmac c key msg = encPort c key (ofBytes 128 msg ^^^ dbl l)) ∧
    (msg.length < 16 → cmac c key msg = encPort c key (ofBytes 128 (padBlock msg) ^^^ dbl (dbl l))) ∧
    (msg = [] → cmac c key msg = encPort c key (dbl (dbl l) ^^^ ((0x80 : Block) <<< 120)))

/-- R125, R126: the accumulator starts at zero and takes the first `N - 1` blocks of the message in order, each as it
is; the final step enciphers the accumulator xor the final block. -/
def Obligations.ChainingTakesBlocksInOrder : Prop :=
  (∀ (c : Config) (key x : Block), chain c key [] x = some x) ∧
  (∀ (c : Config) (key x : Block) (b1 b2 : List Block),
    chain c key (b1 ++ b2) x = (chain c key b1 x).bind fun y => chain c key b2 y) ∧
  (∀ (c : Config) (key x b : Block), chain c key [b] x = encPort c key (x ^^^ b)) ∧
  (∀ (msg : List Byte) (n i : Nat), i < n → 16 * n ≤ msg.length → ∀ j, j < 16 →
    byteAt ((wholeBlocks msg n).getD i 0) j = msg.getD (16 * i + j) 0) ∧
  (∀ (c : Config) (key l : Block) (msg : List Byte), encPort c key 0 = some l →
    cmac c key msg = (chain c key (wholeBlocks msg (blockCount msg.length - 1)) 0).bind fun x =>
      encPort c key (x ^^^
        finalBlock msg.length (msg.drop (16 * (blockCount msg.length - 1))) (dbl l) (dbl (dbl l))))

/-- R142: key normalisation, its three cases. -/
def Obligations.KeyNormalisation : Prop :=
  ∀ (c : Config) (key : List Byte),
    (key.length > 64 → hashPort c key = none → normalizeKey c key = none) ∧
    (∀ d, key.length > 64 → hashPort c key = some d → normalizeKey c key = some (d ++ (0 : Digest))) ∧
    (key.length ≤ 64 → ∃ k0, normalizeKey c key = some k0 ∧ ∀ i, i < 64 → byteAt k0 i = key.getD i 0)

/-- R143 to R145: the pads byte by byte, and the two hashes. -/
def Obligations.NestedHash : Prop :=
  (∀ (k0 : HashBlock) (b : Byte) (i : Nat), i < 64 → byteAt (xorBytes k0 b) i = byteAt k0 i ^^^ b) ∧
  (∀ (c : Config) (key msg : List Byte) (k0 : HashBlock) (d : Digest), normalizeKey c key = some k0 →
    hashPort c (bytesOf (xorBytes k0 0x36) ++ msg) = some d →
    hmac c key msg = hashPort c (bytesOf (xorBytes k0 0x5c) ++ bytesOf d)) ∧
  (∀ (c : Config) (key msg : List Byte) (k0 : HashBlock), normalizeKey c key = some k0 →
    hashPort c (bytesOf (xorBytes k0 0x36) ++ msg) = none → hmac c key msg = none) ∧
  (∀ (c : Config) (key msg : List Byte), normalizeKey c key = none → hmac c key msg = none)

/-- R162: the comparison is the or of all byte differences, and its value is that of equality. -/
def Obligations.ConstantTimeCompareIsEquality : Prop :=
  ∀ a b : List Byte, a.length = b.length →
    (ctEq a b = true ↔ (List.zipWith (fun x y => x ^^^ y) a b).foldl (fun acc d => acc ||| d) 0 = 0) ∧
    (ctEq a b = true ↔ a = b)

/-- R215, R216: a hash fed in pieces, from `Init`, answers what it answers to the concatenation. -/
def Obligations.IncrementalFeeding : Prop :=
  ∀ (c : Config) (pieces : List (List Byte)),
    hashFinal c (pieces.foldl hashUpdate hashInit) = hashPort c pieces.flatten

/-- R165: with no error of kind 1 or 2, `VOK = 1` exactly when the claimed tag has the right length and is the tag that
`SIGN` of the same algorithm produces; and a wrong length gives `VOK = 0` whatever else. -/
def Obligations.VerifyAgreesWithSign : Prop :=
  ∀ (s : State) (alg : Alg), s.stat.busy = false → ∃ t u,
    exec (signInstr alg) s = .next t ∧ exec (verifyInstr alg) s = .next u ∧
    (t.stat.err = .none → (u.stat.vok = true ↔
      s.inp.ctlen.toNat = algTagLen alg ∧ ∀ i, i < algTagLen alg → byteAt s.inp.ctag i = byteAt t.out.tag i)) ∧
    (s.inp.ctlen.toNat ≠ algTagLen alg → u.stat.vok = false) ∧
    (s.inp.ctlen.toNat = algTagLen alg → u.stat.err = t.stat.err)

/-- R168, round trip: the tag that a `SIGN` released, copied to `CTAG` with its length, verifies. -/
def Obligations.SignThenVerifySucceeds : Prop :=
  ∀ (s t : State) (alg : Alg) (ctag : Digest), s.stat.busy = false →
    exec (signInstr alg) s = .next t → t.stat.err = .none →
    (∀ i, i < t.out.tlen.toNat → byteAt ctag i = byteAt t.out.tag i) →
    ∃ u, exec (verifyInstr alg) { t with inp := { t.inp with ctag := ctag, ctlen := t.out.tlen } } = .next u ∧
      u.stat.vok = true ∧ u.stat.err = .none

/-! ## The host's accesses -/

/-- R68, with the codes of R240: the word of every scalar register; a read answers a word and no state, so it changes
none. -/
def Obligations.HostReadsRegisters : Prop :=
  ∀ s : State,
    hostRd s 0 = 0 ∧
    (s.stat.busy = true → hostRd s 1 = 0x00000001 ∧ hostRd s 6 = 0) ∧
    (s.stat.busy = false →
      (hostRd s 1).getLsbD 0 = false ∧ (hostRd s 1).getLsbD 1 = s.stat.done ∧
      (hostRd s 1).getLsbD 2 = s.stat.vok ∧ (hostRd s 1).getLsbD 3 = s.stat.cy ∧
      (hostRd s 1).extractLsb' 4 4 = 0 ∧ (hostRd s 1).extractLsb' 8 4 =
        (match s.stat.err with
          | .none => 0
          | .keyLengthInvalid => 1
          | .primitiveFailure => 2
          | .tagLengthMismatch => 3
          | .illegalCommand => 4) ∧
      (hostRd s 1).extractLsb' 12 20 = 0 ∧ (hostRd s 6).toNat = s.out.tlen.toNat) ∧
    hostRd s 2 = (if s.ie then 1 else 0) ∧ hostRd s 3 = s.inp.klen ∧ hostRd s 4 = s.inp.mlen ∧
    (hostRd s 5).toNat = s.inp.ctlen.toNat ∧
    (∀ n, 7 ≤ n → hostRd s n = 0)

/-- R69: what a write to each scalar register does, truncation included. -/
def Obligations.HostWritesRegisters : Prop :=
  ∀ (s : State) (w : Word),
    (s.stat.busy = false → hostWr 0 w s = issue w s) ∧ (s.stat.busy = true → hostWr 0 w s = s) ∧
    hostWr 1 w s =
      (if w.getLsbD 1 = true ∧ s.stat.busy = false then { s with stat := { s.stat with done := false } } else s) ∧
    hostWr 2 w s = { s with ie := w.getLsbD 0 } ∧
    (s.stat.busy = true → hostWr 3 w s = s ∧ hostWr 4 w s = s ∧ hostWr 5 w s = s) ∧
    (s.cfg.wellFormed = true → s.stat.busy = false →
      (∃ t, hostWr 3 w s = { s with inp := { s.inp with klen := t } } ∧ t.toNat = w.toNat % 2 ^ s.cfg.klenw) ∧
      (∃ t, hostWr 4 w s = { s with inp := { s.inp with mlen := t } } ∧ t.toNat = w.toNat % 2 ^ s.cfg.lenw) ∧
      (∃ t, hostWr 5 w s = { s with inp := { s.inp with ctlen := t } } ∧ t.toNat = w.toNat % 256)) ∧
    (∀ n, 6 ≤ n → hostWr n w s = s)

/-- R70: the byte a host read returns; a read answers a byte and no state, so it changes none. -/
def Obligations.HostReadsBytes : Prop :=
  ∀ (s : State) (sp i : Nat),
    (s.stat.busy = true → hostRdB s sp i = 0) ∧
    (s.stat.busy = false → sp = 0 ∨ 7 ≤ sp → hostRdB s sp i = 0) ∧
    (s.stat.busy = false →
      (hostRdB s 1 i = if i < 2 ^ s.cfg.lenw - 1 then s.inp.msg.read i else 0) ∧
      (hostRdB s 2 i = if i < 32 then byteAt s.inp.ctag i else 0) ∧
      (hostRdB s 3 i = if i < 16 then byteAt s.inp.v i else 0) ∧
      (hostRdB s 4 i = if i < 16 then byteAt s.out.k1 i else 0) ∧
      (hostRdB s 5 i = if i < 16 then byteAt s.out.k2 i else 0) ∧
      (hostRdB s 6 i = if i < 32 then byteAt s.out.tag i else 0))

/-- R71: a byte write changes that one byte and nothing else, or is dropped. -/
def Obligations.HostWritesOneByte : Prop :=
  ∀ (s : State) (sp i : Nat) (b : Byte), s.inp.key.wf = true → s.inp.msg.wf = true →
    (s.stat.busy = true ∨ 4 ≤ sp ∨ spaceSize s.cfg sp ≤ i → hostWrB sp i b s = s) ∧
    (s.stat.busy = false → sp ≤ 3 → i < spaceSize s.cfg sp →
      spaceByte (hostWrB sp i b s) sp i = b ∧
      (∀ sp' i', i' < spaceSize s.cfg sp' → sp' ≠ sp ∨ i' ≠ i →
        spaceByte (hostWrB sp i b s) sp' i' = spaceByte s sp' i') ∧
      hostWrB sp i b s = { s with inp := { (hostWrB sp i b s).inp with
        klen := s.inp.klen, mlen := s.inp.mlen, ctlen := s.inp.ctlen } })

/-- R76, R195, R196: while `BUSY = 1` no host access changes anything but `CTRL`, and the host reads `STATUS` as
0x00000001 and zero from `TLEN` and every byte space. -/
def Obligations.BusyFreezesTheInputs : Prop :=
  ∀ s : State, s.stat.busy = true →
    (∀ n w, n ≠ 2 → hostWr n w s = s) ∧ (∀ w, hostWr 2 w s = { s with ie := w.getLsbD 0 }) ∧
    (∀ sp i b, hostWrB sp i b s = s) ∧ (∀ sp i, hostRdB s sp i = 0) ∧
    hostRd s 1 = 0x00000001 ∧ hostRd s 6 = 0 ∧ hostRd s 0 = 0 ∧ hostRd s 2 = (if s.ie then 1 else 0) ∧
    hostRd s 3 = s.inp.klen ∧ hostRd s 4 = s.inp.mlen ∧ (hostRd s 5).toNat = s.inp.ctlen.toNat

/-- R72: a read has no side effect on the engine, and every write but an issue leaves the state it leaves when done
twice. The script and the answers are the model's own fields (log entries 1 and 4). -/
def Obligations.AccessesAreRepeatable : Prop :=
  (∀ (s t : State) (rest : List Event) (n : Nat), s.script = .hostRd n :: rest → step s = .next t →
    SameEngine s t) ∧
  (∀ (s t : State) (rest : List Event) (sp i : Nat), s.script = .hostRdB sp i :: rest → step s = .next t →
    SameEngine s t) ∧
  (∀ (s : State) (n : Nat) (w : Word), n ≠ 0 → hostWr n w (hostWr n w s) = hostWr n w s) ∧
  (∀ (s : State) (sp i : Nat) (b : Byte), s.inp.key.wf = true → s.inp.msg.wf = true →
    hostWrB sp i b (hostWrB sp i b s) = hostWrB sp i b s)

/-- R42, R197, R250: `irq` at every moment, and that an acknowledge lowers it and keeps every result readable. -/
def Obligations.AcknowledgeLowersIrq : Prop :=
  (∀ s : State, irq s = (s.stat.done && s.ie)) ∧
  (∀ (s : State) (w : Word), s.stat.busy = false → w.getLsbD 1 = true →
    hostWr 1 w s = { s with stat := { s.stat with done := false } } ∧ irq (hostWr 1 w s) = false) ∧
  (∀ s : State, irq (hostWr 2 0 s) = false) ∧
  (∀ (s : State) (w : Word), s.stat.busy = false → s.ie = true →
    (irq (hostWr 0 w s) = true ↔ ∃ e, decode w = .error e))

/-- R30, R43: whatever `KEY`, the working registers, `IR` and `PH` hold, the host reads the same. -/
def Obligations.HiddenStateIsNotReadable : Prop :=
  ∀ (s : State) (key : Memory) (work : Work) (ir : Word) (ph : Phase),
    SameToHost s { s with inp := { s.inp with key := key }, work := work, ir := ir, ph := ph }

/-- The canonical form of a byte space: a write keeps it, reads back, and leaves every other byte as it was; and two
spaces in canonical form that read alike are the same list. This is the model's own form of a space (log entry 5). -/
def Obligations.CanonicalByteSpaces : Prop :=
  (∀ (m : Memory) (a : Nat) (b : Byte), m.wf = true →
    Memory.wf (m.write a b) = true ∧ (m.write a b).read a = b ∧ ∀ k, k ≠ a → (m.write a b).read k = m.read k) ∧
  (∀ m k : Memory, m.wf = true → k.wf = true → (∀ a, m.read a = k.read a) → m = k)

/-! ## The steps of the sequencer -/

/-- R107 to R111: the steps of the doubling and subkey unit. That `S_K1` and `S_K2` write the subkeys in a `VERIFY.CMAC`
too is the model's choice (R109 and R110 against R167, log entry 22). -/
def Obligations.SubkeySteps : Prop :=
  ∀ s : State, s.stat.busy = true →
    (s.ph = .dDbl → engineTurn s = .next { s with
      inp := { s.inp with v := dbl s.inp.v }
      stat := { s.stat with cy := (byteAt s.inp.v 0).getLsbD 7 }, ph := .fin }) ∧
    (s.ph = .sChk → s.inp.klen ≠ 16 → engineTurn s = .next (raise .keyLengthInvalid s)) ∧
    (s.ph = .sChk → s.inp.klen = 16 → engineTurn s = .next { s with ph := .sL }) ∧
    (s.ph = .sL → encPort s.cfg (cipherKey s) 0 = none → engineTurn s = .next (raise .primitiveFailure s)) ∧
    (∀ r, s.ph = .sL → encPort s.cfg (cipherKey s) 0 = some r →
      engineTurn s = .next { s with work := { s.work with l := r }, ph := .sK1 }) ∧
    (s.ph = .sK1 → engineTurn s = .next { s with out := { s.out with k1 := dbl s.work.l }, ph := .sK2 }) ∧
    (s.ph = .sK2 → s.ir = 0x00000013 →
      engineTurn s = .next { s with out := { s.out with k2 := dbl s.out.k1 }, ph := .fin }) ∧
    (s.ph = .sK2 → s.ir = 0x00000011 ∨ s.ir = 0x00000012 →
      engineTurn s = .next { s with out := { s.out with k2 := dbl s.out.k1 }, ph := .cInit })

/-- R128 to R133: the steps of the CMAC controller, in states in which the counters are in their ranges (R38). -/
def Obligations.CmacSteps : Prop :=
  ∀ s : State, s.stat.busy = true → Inv s →
    (s.ph = .cInit → engineTurn s = .next { s with
      work := { s.work with n := max 1 ((s.inp.mlen.toNat + 15) / 16), x := 0, blk := 0 }, ph := .cSel }) ∧
    (s.ph = .cSel → s.inp.mlen.toNat ≠ 0 → s.inp.mlen.toNat % 16 = 0 → engineTurn s = .next { s with
      work := { s.work with fb := ofBytes 128 (msgRange s (16 * (s.work.n - 1)) 16) ^^^ s.out.k1 }
      ph := if s.work.blk < s.work.n - 1 then .cXor else .cFXor }) ∧
    (∀ r, s.ph = .cSel → s.inp.mlen.toNat = 0 ∨ s.inp.mlen.toNat % 16 ≠ 0 →
      r = s.inp.mlen.toNat - 16 * (s.work.n - 1) → engineTurn s = .next { s with
      work := { s.work with
        fb := ofBytes 128 (msgRange s (16 * (s.work.n - 1)) r ++ [0x80] ++ List.replicate (15 - r) 0) ^^^ s.out.k2 }
      ph := if s.work.blk < s.work.n - 1 then .cXor else .cFXor }) ∧
    (s.ph = .cXor → engineTurn s = .next { s with
      work := { s.work with y := s.work.x ^^^ ofBytes 128 (msgRange s (16 * s.work.blk) 16) }, ph := .cEnc }) ∧
    (s.ph = .cEnc → encPort s.cfg (cipherKey s) s.work.y = none →
      engineTurn s = .next (raise .primitiveFailure s)) ∧
    (∀ r, s.ph = .cEnc → encPort s.cfg (cipherKey s) s.work.y = some r → engineTurn s = .next { s with
      work := { s.work with x := r, blk := s.work.blk + 1 }
      ph := if s.work.blk + 1 < s.work.n - 1 then .cXor else .cFXor }) ∧
    (s.ph = .cFXor → engineTurn s = .next { s with
      work := { s.work with y := s.work.x ^^^ s.work.fb }, ph := .cFEnc }) ∧
    (s.ph = .cFEnc → encPort s.cfg (cipherKey s) s.work.y = none →
      engineTurn s = .next (raise .primitiveFailure s)) ∧
    (∀ r, s.ph = .cFEnc → encPort s.cfg (cipherKey s) s.work.y = some r → engineTurn s = .next { s with
      work := { s.work with x := r, t := r ++ (0 : Block) }
      ph := if s.ir = 0x00000011 then .oTag else .oCmp })

/-- R146 to R149: the steps of the HMAC sequencer. -/
def Obligations.HmacSteps : Prop :=
  ∀ s : State, s.stat.busy = true →
    (s.ph = .hNorm → 64 < s.inp.klen.toNat → hashPort s.cfg (memRead s.inp.key.read 0 s.inp.klen.toNat) = none →
      engineTurn s = .next (raise .primitiveFailure s)) ∧
    (∀ d, s.ph = .hNorm → 64 < s.inp.klen.toNat →
      hashPort s.cfg (memRead s.inp.key.read 0 s.inp.klen.toNat) = some d →
      engineTurn s = .next { s with work := { s.work with k0 := d ++ (0 : Digest) }, ph := .hPads }) ∧
    (s.ph = .hNorm → s.inp.klen.toNat ≤ 64 → engineTurn s = .next { s with
      work := { s.work with k0 := ofBytes 512 (memRead s.inp.key.read 0 s.inp.klen.toNat ++
        List.replicate (64 - s.inp.klen.toNat) 0) }, ph := .hPads }) ∧
    (s.ph = .hPads → engineTurn s = .next { s with
      work := { s.work with ipad := xorBytes s.work.k0 0x36, opad := xorBytes s.work.k0 0x5c }, ph := .hInner }) ∧
    (s.ph = .hInner → hashPort s.cfg (bytesOf s.work.ipad ++ msgBytes s) = none →
      engineTurn s = .next (raise .primitiveFailure s)) ∧
    (∀ d, s.ph = .hInner → hashPort s.cfg (bytesOf s.work.ipad ++ msgBytes s) = some d →
      engineTurn s = .next { s with work := { s.work with idig := d }, ph := .hOuter }) ∧
    (s.ph = .hOuter → hashPort s.cfg (bytesOf s.work.opad ++ bytesOf s.work.idig) = none →
      engineTurn s = .next (raise .primitiveFailure s)) ∧
    (∀ d, s.ph = .hOuter → hashPort s.cfg (bytesOf s.work.opad ++ bytesOf s.work.idig) = some d →
      (s.ir = 0x00000001 → engineTurn s = .next { s with work := { s.work with t := d }, ph := .oTag }) ∧
      (s.ir = 0x00000002 → engineTurn s = .next { s with work := { s.work with t := d }, ph := .oCmp }))

/-- R161, R164: the steps of the tag comparator. -/
def Obligations.ComparatorSteps : Prop :=
  ∀ s : State, s.stat.busy = true →
    (s.ph = .vLen → s.ir = 0x00000002 → s.inp.ctlen = 32 → engineTurn s = .next { s with ph := .hNorm }) ∧
    (s.ph = .vLen → s.ir = 0x00000012 → s.inp.ctlen = 16 → engineTurn s = .next { s with ph := .sChk }) ∧
    (s.ph = .vLen → (s.ir = 0x00000002 ∧ s.inp.ctlen ≠ 32) ∨ (s.ir = 0x00000012 ∧ s.inp.ctlen ≠ 16) →
      engineTurn s = .next { s with stat := { s.stat with err := .tagLengthMismatch }, ph := .fin }) ∧
    (s.ph = .oCmp → s.ir = 0x00000002 → engineTurn s = .next { s with
      stat := { s.stat with vok := decide (∀ i : Fin 32, byteAt s.work.t i = byteAt s.inp.ctag i) }, ph := .fin }) ∧
    (s.ph = .oCmp → s.ir = 0x00000012 → engineTurn s = .next { s with
      stat := { s.stat with vok := decide (∀ i : Fin 16, byteAt s.work.t i = byteAt s.inp.ctag i) }, ph := .fin })

/-- R188, R190, R199: the release of the tag, the completion, and the wipe. -/
def Obligations.ReleaseCompletionAndWipe : Prop :=
  ∀ s : State, s.stat.busy = true →
    (s.ph = .oTag → s.ir = 0x00000001 → engineTurn s = .next { s with
      out := { s.out with tag := s.work.t, tlen := 32 }, ph := .fin }) ∧
    (s.ph = .oTag → s.ir = 0x00000011 → engineTurn s = .next { s with
      out := { s.out with tag := s.work.t, tlen := 16 }, ph := .fin }) ∧
    (s.ph = .fin → s.ir = 0x00000013 → engineTurn s = .next { s with
      work := Work.zero, stat := { s.stat with busy := false, done := true }, ph := .idle }) ∧
    (s.ph = .fin → s.ir ≠ 0x00000013 → engineTurn s = .next { s with
      work := Work.zero, out := { s.out with k1 := 0, k2 := 0 }
      stat := { s.stat with busy := false, done := true }, ph := .idle }) ∧
    (s.ph = .zClr → engineTurn s = .next { s with
      inp := { klen := 0, mlen := 0, ctlen := 0, key := [], msg := [], ctag := 0, v := 0 }
      out := { k1 := 0, k2 := 0, tag := 0, tlen := 0 }, work := Work.zero
      stat := { s.stat with vok := false, cy := false, err := .none }, ph := .fin })

/-- R191, R241, R242, R246: in which steps a command aborts, that what that step checks or invokes failed, and all that
the abort action writes. -/
def Obligations.AbortsArePrecise : Prop :=
  ∀ (s t : State), s.stat.busy = true → engineTurn s = .next t → t.stat.busy = false →
    s.ph = .fin ∨
    (∃ k, ((s.ph = .sChk ∧ s.inp.klen ≠ 16 ∧ k = .keyLengthInvalid) ∨
        (((s.ph = .sL ∧ encPort s.cfg (cipherKey s) 0 = none) ∨
            ((s.ph = .cEnc ∨ s.ph = .cFEnc) ∧ encPort s.cfg (cipherKey s) s.work.y = none) ∨
            (s.ph = .hNorm ∧ 64 < s.inp.klen.toNat ∧ hashPort s.cfg (keyBytes s) = none) ∨
            (s.ph = .hInner ∧ hashPort s.cfg (bytesOf s.work.ipad ++ msgBytes s) = none) ∨
            (s.ph = .hOuter ∧ hashPort s.cfg (bytesOf s.work.opad ++ bytesOf s.work.idig) = none)) ∧
          k = .primitiveFailure)) ∧
      t = { s with
        out := { k1 := 0, k2 := 0, tag := 0, tlen := 0 }, work := Work.zero
        stat := { busy := false, done := true, vok := false, cy := s.stat.cy, err := k }, ph := .idle })

/-- R31, R39, R67: what no engine step changes: `CTRL`, `IR`, the parameters; and but for `Z_CLR` the lengths, `KEY`,
`MSG` and `CTAG`; and but for `D_DBL` and `Z_CLR` the value `V`. -/
def Obligations.EngineStepFrame : Prop :=
  ∀ s t : State, engineTurn s = .next t →
    t.ie = s.ie ∧ t.ir = s.ir ∧ t.cfg = s.cfg ∧ t.script = s.script ∧ t.answers = s.answers ∧
    (s.ph ≠ .zClr → t.inp = { s.inp with v := t.inp.v }) ∧
    (s.ph ≠ .zClr → s.ph ≠ .dDbl → t.inp.v = s.inp.v)

/-! ## Headline results -/

/-- R186: the stepwise sequencer and the one transition of each command end in the same state: from the issue of any
command, in any state of the invariant with `BUSY = 0`, the engine's turns lead to what `exec` answers. -/
def Obligations.SequencerRefinesCommands : Prop :=
  ∀ (s : State) (i : Instr), Inv s → s.stat.busy = false →
    engineTurns (stepCount i s) (issued i s) = exec i s

/-- R185, R193: a command that nothing aborts takes exactly the steps of the table, one after the other, and ends in the
first state with `BUSY = 0`, in which `DONE = 1`. -/
def Obligations.CommandsTakeTheStepsOfTheTable : Prop :=
  ∀ (s : State) (i : Instr), Inv s → s.stat.busy = false → NeverFails s.cfg →
    (i = .signCmac ∨ i = .verifyCmac ∨ i = .deriveCmac → s.inp.klen = 16) →
    (phaseSequence i s).length = stepCount i s ∧
    (∀ k p, (phaseSequence i s)[k]? = some p →
      ∃ t, engineTurns k (issued i s) = .next t ∧ t.stat.busy = true ∧ t.ph = p) ∧
    (∃ t, engineTurns (stepCount i s) (issued i s) = .next t ∧ t.stat.busy = false ∧ t.stat.done = true)

/-- R134, R150, R161: how often a command that nothing aborts invokes each primitive. -/
def Obligations.PrimitiveInvocations : Prop :=
  ∀ (s : State) (i : Instr), Inv s → s.stat.busy = false → NeverFails s.cfg →
    (i = .signCmac ∨ i = .verifyCmac ∨ i = .deriveCmac → s.inp.klen = 16) →
    countTurns invokesCipher (stepCount i s) (issued i s) =
      (match i with
        | .signCmac => blockCount s.inp.mlen.toNat + 1
        | .verifyCmac => if s.inp.ctlen = 16 then blockCount s.inp.mlen.toNat + 1 else 0
        | .deriveCmac => 1
        | .signHmac => 0
        | .verifyHmac => 0
        | .dbl => 0
        | .clear => 0) ∧
    countTurns invokesHash (stepCount i s) (issued i s) =
      (match i with
        | .signHmac => if s.inp.klen.toNat ≤ 64 then 2 else 3
        | .verifyHmac => if s.inp.ctlen = 32 then (if s.inp.klen.toNat ≤ 64 then 2 else 3) else 0
        | .signCmac => 0
        | .verifyCmac => 0
        | .deriveCmac => 0
        | .dbl => 0
        | .clear => 0)

/-- R46 and what else every reachable state has: every step keeps the invariant, whatever happens next. Parts (f) and (g)
of R46 are read with the phase `FIN` beside `BUSY = 0` (log entry 12): outside that phase the state meets R46 word for
word, and in every state what the host reads does. -/
def Obligations.StepKeepsInvariant : Prop :=
  ∀ s t : State, Inv s → step s = .next t → Inv t ∧ (t.ph ≠ .fin → Rule46 t) ∧ Rule46Host t

/-- R45: the reset state meets the invariant, for the default parameters and for any others that R8 allows. -/
def Obligations.ResetMeetsInvariant : Prop :=
  Inv State.reset ∧ ∀ s : State, s.cfg.wellFormed = true → Inv (resetEngine s)

/-- R183, R187: in a state of the invariant the machine always goes on: no fault and no refusal. -/
def Obligations.MachineAlwaysContinues : Prop :=
  ∀ s : State, Inv s → Continues s

/-- R187: every command in progress ends, within a bound that its message length gives. -/
def Obligations.CommandsInProgressEnd : Prop :=
  ∀ s : State, Inv s → s.stat.busy = true →
    ∃ n t, n ≤ 2 * blockCount s.inp.mlen.toNat + 9 ∧ engineTurns n s = .next t ∧ t.stat.busy = false ∧
      t.stat.done = true

/-- R45, R270: reset, in any state, also in the middle of a command. That it keeps the parameters, the script and the
answers is the model's choice (log entries 6, 1 and 4). -/
def Obligations.ResetZeroesTheEngine : Prop :=
  ∀ s : State,
    resetEngine s = {
      cfg := s.cfg, script := s.script, answers := s.answers
      stat := { busy := false, done := false, vok := false, cy := false, err := .none }, ie := false
      inp := { klen := 0, mlen := 0, ctlen := 0, key := [], msg := [], ctag := 0, v := 0 }
      out := { k1 := 0, k2 := 0, tag := 0, tlen := 0 }
      work := { l := 0, x := 0, y := 0, fb := 0, t := 0, k0 := 0, ipad := 0, opad := 0, idig := 0, n := 0, blk := 0 }
      ir := 0, ph := .idle } ∧
    irq (resetEngine s) = false

/-- R47: the result of a command depends on its operands alone: nothing computed for one command, and no byte at or
past a declared length, is an input of another. -/
def Obligations.ResultsDependOnOperandsOnly : Prop :=
  ∀ (i : Instr) (s t s' t' : State), s.stat.busy = false → t.stat.busy = false → SameOperands s t →
    exec i s = .next s' → exec i t = .next t' →
    s'.out = t'.out ∧ s'.stat = t'.stat ∧ s'.inp.v = t'.inp.v

/-- R163 (a): with primitives that do not fail, the steps of a `VERIFY` depend on the lengths alone, not on a byte of
`KEY`, `MSG`, `CTAG` or of the computed tag. -/
def Obligations.VerifyStepsDependOnLengthsOnly : Prop :=
  ∀ (alg : Alg) (s t : State), s.stat.busy = false → t.stat.busy = false → s.cfg = t.cfg → NeverFails s.cfg →
    s.inp.klen = t.inp.klen → s.inp.mlen = t.inp.mlen → s.inp.ctlen = t.inp.ctlen →
    ∀ n, phaseAfter n (issued (verifyInstr alg) s) = phaseAfter n (issued (verifyInstr alg) t)

/-- R90: the call `Sign` is refused where its arguments cannot be presented or a command runs; otherwise its program, run
by the stepwise machine, comes to its end, with `DONE = 0` after the closing acknowledge, and what its reads answered
gives the tag of the key and the message it was given, or the error and no tag byte. How a program runs is the model's
choice (log entries 1 and 17). -/
def Obligations.SignProgramReturnsTheTag : Prop :=
  ∀ (s : State) (alg : Alg) (key msg : List Byte), Inv s →
    (signCall alg key msg s = none ↔ s.stat.busy = true ∨ s.cfg.kmax < key.length ∨ s.cfg.mmax < msg.length) ∧
    (∀ u, signCall alg key msg s = some u → ∃ n t as, Host.Core.run Sys2Proof.core n u = .next t ∧
      t.script = s.script ∧ t.stat.busy = false ∧ t.stat.done = false ∧ t.answers = s.answers ++ as ∧
      signResult as = some (pureSign s.cfg alg key msg) ∧
      (∀ k, pureSign s.cfg alg key msg = .error k → as.length = 2 ∧ hostRd t 6 = 0))

/-- R91: the call `Verify` is refused where its arguments cannot be presented or a command runs; otherwise its program,
run by the stepwise machine, comes to its end, with `DONE = 0` after the closing acknowledge, and what its read answered
gives whether the tag it was given is the tag of the key and the message, whatever that tag's length, or the error. How a
program runs is the model's choice (log entries 1 and 17). -/
def Obligations.VerifyProgramDecidesTheTag : Prop :=
  ∀ (s : State) (alg : Alg) (key msg tag : List Byte), Inv s →
    (verifyCall alg key msg tag s = none ↔ s.stat.busy = true ∨ s.cfg.kmax < key.length ∨ s.cfg.mmax < msg.length) ∧
    (∀ u, verifyCall alg key msg tag s = some u → ∃ n t as, Host.Core.run Sys2Proof.core n u = .next t ∧
      t.script = s.script ∧ t.stat.busy = false ∧ t.stat.done = false ∧ t.answers = s.answers ++ as ∧
      verifyResult as = some (pureVerify s.cfg alg key msg tag))

/-- R8, R262: a platform has at least one instance, and all of its instances start in the reset state; the step of one
instance is the step of that instance alone, and leaves every other instance as it was. -/
def Obligations.InstancesShareNothing : Prop :=
  (∀ c : PlatformConfig,
    (Platform.reset c = none ↔ c.ninst = 0 ∨ c.engine.wellFormed = false) ∧
    (∀ p, Platform.reset c = some p → p.engines = List.replicate c.ninst { State.reset with cfg := c.engine })) ∧
  ∀ (k : Nat) (p : Platform),
    1 ≤ p.ninst ∧
    (∀ s t, p.engines[k]? = some s → step s = .next t →
      ∃ q, p.stepAt k = .next q ∧ q.engines[k]? = some t) ∧
    (∀ q, p.stepAt k = .next q →
      q.ninst = p.ninst ∧ ∀ j, j ≠ k → q.engines[j]? = p.engines[j]?)
end

