-- ==== Sys2Proof/Laws/Bytes.lean ====
section
/-! SUPPORT. Laws of the byte view of a value (Machine/Bytes.lean). -/

namespace Sys2Proof.Machine

theorem getLsbD_byteAt {w : Nat} (v : BitVec w) (i j : Nat) :
    (byteAt v i).getLsbD j = (decide (j < 8) && v.getLsbD (w - 8 * (i + 1) + j)) := by
  simp [byteAt]

theorem getLsbD_setByteAt {w : Nat} (v : BitVec w) (i : Nat) (b : Byte) (j : Nat) :
    (setByteAt v i b).getLsbD j =
      (decide (j < w) && if w - 8 * (i + 1) ≤ j ∧ j < w - 8 * (i + 1) + 8 then b.getLsbD (j - (w - 8 * (i + 1)))
        else v.getLsbD j) := by
  by_cases hj : j < w
  · have hff : ∀ k, (0xFF : BitVec 8).getLsbD k = decide (k < 8) := by
      intro k
      by_cases hk : k < 8
      · have : k = 0 ∨ k = 1 ∨ k = 2 ∨ k = 3 ∨ k = 4 ∨ k = 5 ∨ k = 6 ∨ k = 7 := by omega
        rcases this with rfl | rfl | rfl | rfl | rfl | rfl | rfl | rfl <;> rfl
      · simp [hk, BitVec.getLsbD_of_ge (255#8) k (by omega)]
    simp only [setByteAt, BitVec.getLsbD_or, BitVec.getLsbD_and, BitVec.getLsbD_not, BitVec.getLsbD_shiftLeft,
      BitVec.getLsbD_setWidth, hj, decide_true, Bool.true_and, hff]
    by_cases h1 : j < w - 8 * (i + 1)
    · have : ¬ (w - 8 * (i + 1) ≤ j) := by omega
      simp [h1, this]
    · have h1' : w - 8 * (i + 1) ≤ j := by omega
      have h2 : j - (w - 8 * (i + 1)) < w := by omega
      by_cases h3 : j < w - 8 * (i + 1) + 8
      · have : j - (w - 8 * (i + 1)) < 8 := by omega
        simp [h1, h1', h2, h3, this]
      · have h4 : ¬ j - (w - 8 * (i + 1)) < 8 := by omega
        simp [h1, h2, h3, h4, BitVec.getLsbD_of_ge b _ (by omega : 8 ≤ j - (w - 8 * (i + 1)))]
  · simp [hj, BitVec.getLsbD_of_ge _ _ (Nat.not_lt.mp hj)]

/-- A byte just written reads back. -/
theorem byteAt_setByteAt_same {w : Nat} (v : BitVec w) (i : Nat) (b : Byte) (h : 8 * (i + 1) ≤ w) :
    byteAt (setByteAt v i b) i = b := by
  apply BitVec.eq_of_getLsbD_eq
  intro j hj
  rw [getLsbD_byteAt, getLsbD_setByteAt]
  have h1 : w - 8 * (i + 1) + j < w := by omega
  simp [hj, h1]

/-- A byte write leaves every other byte as it was. -/
theorem byteAt_setByteAt_ne {w : Nat} (v : BitVec w) (i k : Nat) (b : Byte) (hi : 8 * (i + 1) ≤ w)
    (hk : 8 * (k + 1) ≤ w) (h : k ≠ i) : byteAt (setByteAt v i b) k = byteAt v k := by
  apply BitVec.eq_of_getLsbD_eq
  intro j hj
  rw [getLsbD_byteAt, getLsbD_byteAt, getLsbD_setByteAt]
  have h1 : w - 8 * (k + 1) + j < w := by omega
  have h2 : ¬ (w - 8 * (i + 1) ≤ w - 8 * (k + 1) + j ∧ w - 8 * (k + 1) + j < w - 8 * (i + 1) + 8) := by omega
  rw [if_neg h2]
  simp [h1]

/-- A value is its bytes. -/
theorem eq_of_byteAt_eq {n : Nat} (v u : BitVec (8 * n)) (h : ∀ i, i < n → byteAt v i = byteAt u i) : v = u := by
  apply BitVec.eq_of_getLsbD_eq
  intro j hj
  have h1 := congrArg (fun b : Byte => b.getLsbD (j % 8)) (h (n - 1 - j / 8) (by omega))
  simp only [getLsbD_byteAt] at h1
  have h2 : j % 8 < 8 := Nat.mod_lt _ (by decide)
  have h3 : 8 * n - 8 * (n - 1 - j / 8 + 1) + j % 8 = j := by omega
  simpa [h2, h3] using h1

@[simp] theorem length_bytesOf {w : Nat} (v : BitVec w) : (bytesOf v).length = w / 8 := by simp [bytesOf]

theorem getElem_bytesOf {w : Nat} (v : BitVec w) (i : Nat) (h : i < (bytesOf v).length) :
    (bytesOf v)[i] = byteAt v i := by simp [bytesOf]

@[simp] theorem length_memRead (read : Nat → Byte) (i n : Nat) : (memRead read i n).length = n := by simp [memRead]

theorem getElem_memRead (read : Nat → Byte) (i n k : Nat) (h : k < (memRead read i n).length) :
    (memRead read i n)[k] = read (i + k) := by simp [memRead]

/-- Bits of a byte string's value: bit `j` is bit `j mod 8` of the byte `j / 8` places from the end (R12). -/
theorem getLsbD_ofBytes (w : Nat) (bs : List Byte) (j : Nat) (hj : j < w) :
    (ofBytes w bs).getLsbD j =
      (decide (j / 8 < bs.length) && (bs.getD (bs.length - 1 - j / 8) 0).getLsbD (j % 8)) := by
  have key : ∀ (bs : List Byte) (acc : BitVec w) (j : Nat), j < w →
      (bs.foldl (fun (a : BitVec w) (b : Byte) => (a <<< 8) ||| b.setWidth w) acc).getLsbD j =
        if j / 8 < bs.length then (bs.getD (bs.length - 1 - j / 8) 0).getLsbD (j % 8)
        else acc.getLsbD (j - 8 * bs.length) := by
    intro bs
    induction bs with
    | nil => intro acc j _; simp
    | cons b rest ih =>
      intro acc j hj
      rw [List.foldl_cons, ih _ _ hj]
      by_cases h1 : j / 8 < rest.length
      · have h2 : j / 8 < (b :: rest).length := by simp; omega
        have h3 : (b :: rest).length - 1 - j / 8 = (rest.length - 1 - j / 8) + 1 := by simp; omega
        rw [if_pos h1, if_pos h2, h3, List.getD_cons_succ]
      · rw [if_neg h1]
        by_cases h2 : j / 8 < (b :: rest).length
        · have h3 : (b :: rest).length - 1 - j / 8 = 0 := by simp; omega
          have h4 : j / 8 = rest.length := by simp at h2; omega
          have h5 : j - 8 * rest.length = j % 8 := by omega
          have h6 : j % 8 < 8 := Nat.mod_lt _ (by decide)
          have h7 : j % 8 < w := by omega
          rw [if_pos h2, h3, List.getD_cons_zero, h5]
          simp [h6, h7]
        · simp at h2
          have h5 : ¬ j - 8 * rest.length < 8 := by omega
          have h6 : j - 8 * rest.length < w := by omega
          have h7 : j - 8 * rest.length - 8 = j - 8 * (b :: rest).length := by simp; omega
          have h8 : b.getLsbD (j - 8 * rest.length) = false := BitVec.getLsbD_of_ge b _ (by omega)
          rw [if_neg (by simp; omega), BitVec.getLsbD_or, BitVec.getLsbD_shiftLeft, BitVec.getLsbD_setWidth, h7, h8]
          simp [h5, h6]
  have := key bs 0 j hj
  simp only [ofBytes]
  rw [this]
  by_cases h : j / 8 < bs.length <;> simp [h]

/-- Byte `i` of a byte string's value is its byte `i`. -/
theorem byteAt_ofBytes (n : Nat) (bs : List Byte) (hl : bs.length = n) (i : Nat) (hi : i < n) :
    byteAt (ofBytes (8 * n) bs) i = bs.getD i 0 := by
  apply BitVec.eq_of_getLsbD_eq
  intro j hj
  rw [getLsbD_byteAt, getLsbD_ofBytes _ _ _ (by omega)]
  have h1 : (8 * n - 8 * (i + 1) + j) / 8 = n - (i + 1) := by omega
  have h2 : (8 * n - 8 * (i + 1) + j) % 8 = j := by omega
  have h3 : bs.length - 1 - (n - (i + 1)) = i := by omega
  have h4 : n - (i + 1) < bs.length := by omega
  rw [h1, h2, h3]
  simp [hj, h4]

theorem bytesOf_ofBytes (n : Nat) (bs : List Byte) (hl : bs.length = n) : bytesOf (ofBytes (8 * n) bs) = bs := by
  apply List.ext_getElem (by simp [hl])
  intro i h1 h2
  rw [getElem_bytesOf, byteAt_ofBytes n bs hl i (by omega)]
  simp [List.getElem?_eq_getElem h2]

theorem ofBytes_bytesOf (n : Nat) (v : BitVec (8 * n)) : ofBytes (8 * n) (bytesOf v) = v := by
  apply eq_of_byteAt_eq
  intro i hi
  rw [byteAt_ofBytes n _ (by simp) i hi, ← getElem_bytesOf v i (by simpa using hi)]
  simp [List.getElem?_eq_getElem (by simpa using hi : i < (bytesOf v).length)]

/-- Two values with the same bytes are equal. -/
theorem bytesOf_injective (n : Nat) (v u : BitVec (8 * n)) (h : bytesOf v = bytesOf u) : v = u := by
  rw [← ofBytes_bytesOf n v, h, ofBytes_bytesOf]

end Sys2Proof.Machine
end

