-- ==== Sys2Proof/Laws/State.lean ====
section
/-! SUPPORT. What each named update of the state (Machine/Ops.lean, Machine/Double.lean, Machine/Verify.lean,
Machine/Events.lean, Machine/Platform.lean) does to each field: one lemma per field per update. -/

namespace Sys2Proof.Machine

@[simp] theorem goto_cfg (p : Phase) (s : State) : (goto p s).cfg = s.cfg := rfl
@[simp] theorem goto_stat (p : Phase) (s : State) : (goto p s).stat = s.stat := rfl
@[simp] theorem goto_ie (p : Phase) (s : State) : (goto p s).ie = s.ie := rfl
@[simp] theorem goto_inp (p : Phase) (s : State) : (goto p s).inp = s.inp := rfl
@[simp] theorem goto_out (p : Phase) (s : State) : (goto p s).out = s.out := rfl
@[simp] theorem goto_work (p : Phase) (s : State) : (goto p s).work = s.work := rfl
@[simp] theorem goto_ir (p : Phase) (s : State) : (goto p s).ir = s.ir := rfl
@[simp] theorem goto_ph (p : Phase) (s : State) : (goto p s).ph = p := rfl
@[simp] theorem goto_script (p : Phase) (s : State) : (goto p s).script = s.script := rfl
@[simp] theorem goto_answers (p : Phase) (s : State) : (goto p s).answers = s.answers := rfl

@[simp] theorem issueActions_cfg (w : Word) (s : State) : (issueActions w s).cfg = s.cfg := rfl
@[simp] theorem issueActions_stat (w : Word) (s : State) : (issueActions w s).stat = { s.stat with vok := false, cy := false, err := .none, done := false } := rfl
@[simp] theorem issueActions_ie (w : Word) (s : State) : (issueActions w s).ie = s.ie := rfl
@[simp] theorem issueActions_inp (w : Word) (s : State) : (issueActions w s).inp = s.inp := rfl
@[simp] theorem issueActions_out (w : Word) (s : State) : (issueActions w s).out = Outputs.zero := rfl
@[simp] theorem issueActions_work (w : Word) (s : State) : (issueActions w s).work = Work.zero := rfl
@[simp] theorem issueActions_ir (w : Word) (s : State) : (issueActions w s).ir = w := rfl
@[simp] theorem issueActions_ph (w : Word) (s : State) : (issueActions w s).ph = s.ph := rfl
@[simp] theorem issueActions_script (w : Word) (s : State) : (issueActions w s).script = s.script := rfl
@[simp] theorem issueActions_answers (w : Word) (s : State) : (issueActions w s).answers = s.answers := rfl

@[simp] theorem beginCommand_cfg (i : Instr) (s : State) : (beginCommand i s).cfg = s.cfg := rfl
@[simp] theorem beginCommand_stat (i : Instr) (s : State) : (beginCommand i s).stat = { s.stat with busy := true } := rfl
@[simp] theorem beginCommand_ie (i : Instr) (s : State) : (beginCommand i s).ie = s.ie := rfl
@[simp] theorem beginCommand_inp (i : Instr) (s : State) : (beginCommand i s).inp = s.inp := rfl
@[simp] theorem beginCommand_out (i : Instr) (s : State) : (beginCommand i s).out = s.out := rfl
@[simp] theorem beginCommand_work (i : Instr) (s : State) : (beginCommand i s).work = s.work := rfl
@[simp] theorem beginCommand_ir (i : Instr) (s : State) : (beginCommand i s).ir = s.ir := rfl
@[simp] theorem beginCommand_ph (i : Instr) (s : State) : (beginCommand i s).ph = firstPhase i := rfl
@[simp] theorem beginCommand_script (i : Instr) (s : State) : (beginCommand i s).script = s.script := rfl
@[simp] theorem beginCommand_answers (i : Instr) (s : State) : (beginCommand i s).answers = s.answers := rfl

@[simp] theorem rejectCommand_cfg (s : State) : (rejectCommand s).cfg = s.cfg := rfl
@[simp] theorem rejectCommand_stat (s : State) : (rejectCommand s).stat = { s.stat with err := .illegalCommand, done := true } := rfl
@[simp] theorem rejectCommand_ie (s : State) : (rejectCommand s).ie = s.ie := rfl
@[simp] theorem rejectCommand_inp (s : State) : (rejectCommand s).inp = s.inp := rfl
@[simp] theorem rejectCommand_out (s : State) : (rejectCommand s).out = s.out := rfl
@[simp] theorem rejectCommand_work (s : State) : (rejectCommand s).work = s.work := rfl
@[simp] theorem rejectCommand_ir (s : State) : (rejectCommand s).ir = s.ir := rfl
@[simp] theorem rejectCommand_ph (s : State) : (rejectCommand s).ph = s.ph := rfl
@[simp] theorem rejectCommand_script (s : State) : (rejectCommand s).script = s.script := rfl
@[simp] theorem rejectCommand_answers (s : State) : (rejectCommand s).answers = s.answers := rfl

@[simp] theorem raise_cfg (k : ErrKind) (s : State) : (raise k s).cfg = s.cfg := rfl
@[simp] theorem raise_stat (k : ErrKind) (s : State) : (raise k s).stat = { s.stat with vok := false, err := k, busy := false, done := true } := rfl
@[simp] theorem raise_ie (k : ErrKind) (s : State) : (raise k s).ie = s.ie := rfl
@[simp] theorem raise_inp (k : ErrKind) (s : State) : (raise k s).inp = s.inp := rfl
@[simp] theorem raise_out (k : ErrKind) (s : State) : (raise k s).out = Outputs.zero := rfl
@[simp] theorem raise_work (k : ErrKind) (s : State) : (raise k s).work = Work.zero := rfl
@[simp] theorem raise_ir (k : ErrKind) (s : State) : (raise k s).ir = s.ir := rfl
@[simp] theorem raise_ph (k : ErrKind) (s : State) : (raise k s).ph = .idle := rfl
@[simp] theorem raise_script (k : ErrKind) (s : State) : (raise k s).script = s.script := rfl
@[simp] theorem raise_answers (k : ErrKind) (s : State) : (raise k s).answers = s.answers := rfl

@[simp] theorem acknowledge_cfg (s : State) : (acknowledge s).cfg = s.cfg := rfl
@[simp] theorem acknowledge_stat (s : State) : (acknowledge s).stat = { s.stat with done := false } := rfl
@[simp] theorem acknowledge_ie (s : State) : (acknowledge s).ie = s.ie := rfl
@[simp] theorem acknowledge_inp (s : State) : (acknowledge s).inp = s.inp := rfl
@[simp] theorem acknowledge_out (s : State) : (acknowledge s).out = s.out := rfl
@[simp] theorem acknowledge_work (s : State) : (acknowledge s).work = s.work := rfl
@[simp] theorem acknowledge_ir (s : State) : (acknowledge s).ir = s.ir := rfl
@[simp] theorem acknowledge_ph (s : State) : (acknowledge s).ph = s.ph := rfl
@[simp] theorem acknowledge_script (s : State) : (acknowledge s).script = s.script := rfl
@[simp] theorem acknowledge_answers (s : State) : (acknowledge s).answers = s.answers := rfl

@[simp] theorem complete_cfg (s : State) : (complete s).cfg = s.cfg := rfl
@[simp] theorem complete_stat (s : State) : (complete s).stat = { s.stat with busy := false, done := true } := rfl
@[simp] theorem complete_ie (s : State) : (complete s).ie = s.ie := rfl
@[simp] theorem complete_inp (s : State) : (complete s).inp = s.inp := rfl
@[simp] theorem complete_out (s : State) : (complete s).out = if s.ir = encode .deriveCmac then s.out else { s.out with k1 := 0, k2 := 0 } := rfl
@[simp] theorem complete_work (s : State) : (complete s).work = Work.zero := rfl
@[simp] theorem complete_ir (s : State) : (complete s).ir = s.ir := rfl
@[simp] theorem complete_ph (s : State) : (complete s).ph = .idle := rfl
@[simp] theorem complete_script (s : State) : (complete s).script = s.script := rfl
@[simp] theorem complete_answers (s : State) : (complete s).answers = s.answers := rfl

@[simp] theorem releaseTag_cfg (t : Digest) (n : Nat) (s : State) : (releaseTag t n s).cfg = s.cfg := rfl
@[simp] theorem releaseTag_stat (t : Digest) (n : Nat) (s : State) : (releaseTag t n s).stat = s.stat := rfl
@[simp] theorem releaseTag_ie (t : Digest) (n : Nat) (s : State) : (releaseTag t n s).ie = s.ie := rfl
@[simp] theorem releaseTag_inp (t : Digest) (n : Nat) (s : State) : (releaseTag t n s).inp = s.inp := rfl
@[simp] theorem releaseTag_out (t : Digest) (n : Nat) (s : State) : (releaseTag t n s).out = { s.out with tag := t, tlen := BitVec.ofNat 8 n } := rfl
@[simp] theorem releaseTag_work (t : Digest) (n : Nat) (s : State) : (releaseTag t n s).work = s.work := rfl
@[simp] theorem releaseTag_ir (t : Digest) (n : Nat) (s : State) : (releaseTag t n s).ir = s.ir := rfl
@[simp] theorem releaseTag_ph (t : Digest) (n : Nat) (s : State) : (releaseTag t n s).ph = s.ph := rfl
@[simp] theorem releaseTag_script (t : Digest) (n : Nat) (s : State) : (releaseTag t n s).script = s.script := rfl
@[simp] theorem releaseTag_answers (t : Digest) (n : Nat) (s : State) : (releaseTag t n s).answers = s.answers := rfl

@[simp] theorem wipeAll_cfg (s : State) : (wipeAll s).cfg = s.cfg := rfl
@[simp] theorem wipeAll_stat (s : State) : (wipeAll s).stat = { s.stat with vok := false, cy := false, err := .none } := rfl
@[simp] theorem wipeAll_ie (s : State) : (wipeAll s).ie = s.ie := rfl
@[simp] theorem wipeAll_inp (s : State) : (wipeAll s).inp = Inputs.zero := rfl
@[simp] theorem wipeAll_out (s : State) : (wipeAll s).out = Outputs.zero := rfl
@[simp] theorem wipeAll_work (s : State) : (wipeAll s).work = Work.zero := rfl
@[simp] theorem wipeAll_ir (s : State) : (wipeAll s).ir = s.ir := rfl
@[simp] theorem wipeAll_ph (s : State) : (wipeAll s).ph = s.ph := rfl
@[simp] theorem wipeAll_script (s : State) : (wipeAll s).script = s.script := rfl
@[simp] theorem wipeAll_answers (s : State) : (wipeAll s).answers = s.answers := rfl

@[simp] theorem resetEngine_cfg (s : State) : (resetEngine s).cfg = s.cfg := rfl
@[simp] theorem resetEngine_stat (s : State) : (resetEngine s).stat = Status.zero := rfl
@[simp] theorem resetEngine_ie (s : State) : (resetEngine s).ie = false := rfl
@[simp] theorem resetEngine_inp (s : State) : (resetEngine s).inp = Inputs.zero := rfl
@[simp] theorem resetEngine_out (s : State) : (resetEngine s).out = Outputs.zero := rfl
@[simp] theorem resetEngine_work (s : State) : (resetEngine s).work = Work.zero := rfl
@[simp] theorem resetEngine_ir (s : State) : (resetEngine s).ir = 0 := rfl
@[simp] theorem resetEngine_ph (s : State) : (resetEngine s).ph = .idle := rfl
@[simp] theorem resetEngine_script (s : State) : (resetEngine s).script = s.script := rfl
@[simp] theorem resetEngine_answers (s : State) : (resetEngine s).answers = s.answers := rfl

@[simp] theorem answer_cfg (a : Answer) (s : State) : (answer a s).cfg = s.cfg := rfl
@[simp] theorem answer_stat (a : Answer) (s : State) : (answer a s).stat = s.stat := rfl
@[simp] theorem answer_ie (a : Answer) (s : State) : (answer a s).ie = s.ie := rfl
@[simp] theorem answer_inp (a : Answer) (s : State) : (answer a s).inp = s.inp := rfl
@[simp] theorem answer_out (a : Answer) (s : State) : (answer a s).out = s.out := rfl
@[simp] theorem answer_work (a : Answer) (s : State) : (answer a s).work = s.work := rfl
@[simp] theorem answer_ir (a : Answer) (s : State) : (answer a s).ir = s.ir := rfl
@[simp] theorem answer_ph (a : Answer) (s : State) : (answer a s).ph = s.ph := rfl
@[simp] theorem answer_script (a : Answer) (s : State) : (answer a s).script = s.script := rfl
@[simp] theorem answer_answers (a : Answer) (s : State) : (answer a s).answers = s.answers ++ [a] := rfl

@[simp] theorem doubleV_cfg (s : State) : (doubleV s).cfg = s.cfg := rfl
@[simp] theorem doubleV_stat (s : State) : (doubleV s).stat = { s.stat with cy := doublingCarry s.inp.v } := rfl
@[simp] theorem doubleV_ie (s : State) : (doubleV s).ie = s.ie := rfl
@[simp] theorem doubleV_inp (s : State) : (doubleV s).inp = { s.inp with v := dbl s.inp.v } := rfl
@[simp] theorem doubleV_out (s : State) : (doubleV s).out = s.out := rfl
@[simp] theorem doubleV_work (s : State) : (doubleV s).work = s.work := rfl
@[simp] theorem doubleV_ir (s : State) : (doubleV s).ir = s.ir := rfl
@[simp] theorem doubleV_ph (s : State) : (doubleV s).ph = s.ph := rfl
@[simp] theorem doubleV_script (s : State) : (doubleV s).script = s.script := rfl
@[simp] theorem doubleV_answers (s : State) : (doubleV s).answers = s.answers := rfl

@[simp] theorem noteTagLength_cfg (s : State) : (noteTagLength s).cfg = s.cfg := rfl
@[simp] theorem noteTagLength_stat (s : State) : (noteTagLength s).stat = { s.stat with err := .tagLengthMismatch } := rfl
@[simp] theorem noteTagLength_ie (s : State) : (noteTagLength s).ie = s.ie := rfl
@[simp] theorem noteTagLength_inp (s : State) : (noteTagLength s).inp = s.inp := rfl
@[simp] theorem noteTagLength_out (s : State) : (noteTagLength s).out = s.out := rfl
@[simp] theorem noteTagLength_work (s : State) : (noteTagLength s).work = s.work := rfl
@[simp] theorem noteTagLength_ir (s : State) : (noteTagLength s).ir = s.ir := rfl
@[simp] theorem noteTagLength_ph (s : State) : (noteTagLength s).ph = s.ph := rfl
@[simp] theorem noteTagLength_script (s : State) : (noteTagLength s).script = s.script := rfl
@[simp] theorem noteTagLength_answers (s : State) : (noteTagLength s).answers = s.answers := rfl

@[simp] theorem compareTag_cfg (t : Digest) (n : Nat) (s : State) : (compareTag t n s).cfg = s.cfg := rfl
@[simp] theorem compareTag_stat (t : Digest) (n : Nat) (s : State) : (compareTag t n s).stat = { s.stat with vok := ctEq ((bytesOf t).take n) (ctagBytes s n) } := rfl
@[simp] theorem compareTag_ie (t : Digest) (n : Nat) (s : State) : (compareTag t n s).ie = s.ie := rfl
@[simp] theorem compareTag_inp (t : Digest) (n : Nat) (s : State) : (compareTag t n s).inp = s.inp := rfl
@[simp] theorem compareTag_out (t : Digest) (n : Nat) (s : State) : (compareTag t n s).out = s.out := rfl
@[simp] theorem compareTag_work (t : Digest) (n : Nat) (s : State) : (compareTag t n s).work = s.work := rfl
@[simp] theorem compareTag_ir (t : Digest) (n : Nat) (s : State) : (compareTag t n s).ir = s.ir := rfl
@[simp] theorem compareTag_ph (t : Digest) (n : Nat) (s : State) : (compareTag t n s).ph = s.ph := rfl
@[simp] theorem compareTag_script (t : Digest) (n : Nat) (s : State) : (compareTag t n s).script = s.script := rfl
@[simp] theorem compareTag_answers (t : Digest) (n : Nat) (s : State) : (compareTag t n s).answers = s.answers := rfl

@[simp] theorem performRead_cfg (sp : Nat) (s : State) : (performRead sp s).cfg = s.cfg := rfl
@[simp] theorem performRead_stat (sp : Nat) (s : State) : (performRead sp s).stat = s.stat := rfl
@[simp] theorem performRead_ie (sp : Nat) (s : State) : (performRead sp s).ie = s.ie := rfl
@[simp] theorem performRead_inp (sp : Nat) (s : State) : (performRead sp s).inp = s.inp := rfl
@[simp] theorem performRead_out (sp : Nat) (s : State) : (performRead sp s).out = s.out := rfl
@[simp] theorem performRead_work (sp : Nat) (s : State) : (performRead sp s).work = s.work := rfl
@[simp] theorem performRead_ir (sp : Nat) (s : State) : (performRead sp s).ir = s.ir := rfl
@[simp] theorem performRead_ph (sp : Nat) (s : State) : (performRead sp s).ph = s.ph := rfl
@[simp] theorem performRead_answers (sp : Nat) (s : State) : (performRead sp s).answers = s.answers := rfl

/-- The lines of a `READ` after a read of the word `w` (R89). -/
theorem lastWord_append_word (as : List Answer) (w : Word) : lastWord (as ++ [.word w]) = w.toNat := by simp [lastWord]

/-! ## A platform -/

@[simp] theorem engines_put (p : Platform) (k : Nat) (t : State) : (p.put k t).engines = p.engines.set k t := by
  cases k <;> rfl

@[simp] theorem ninst_put (p : Platform) (k : Nat) (t : State) : (p.put k t).ninst = p.ninst := by
  simp [Platform.ninst]

/-- R8: there is an instance. -/
theorem ninst_pos (p : Platform) : 1 ≤ p.ninst := by simp [Platform.ninst, Platform.engines]

/-- The instances a platform starts with (R262). -/
theorem engines_reset (c : PlatformConfig) (p : Platform) (h : Platform.reset c = some p) :
    p.engines = List.replicate c.ninst { State.reset with cfg := c.engine } := by
  unfold Platform.reset at h
  split at h
  · rename_i hc
    have hn : 1 ≤ c.ninst := by simp [PlatformConfig.wellFormed] at hc; exact hc.1
    injection h with h
    subst h
    obtain ⟨n, hn⟩ := Nat.exists_eq_add_of_le hn
    simp [Platform.engines, hn, Nat.add_comm 1 n, List.replicate_succ]
  · cases h

end Sys2Proof.Machine
end

