-- ==== Sys2Proof/Laws/Engine.lean ====
section
/-! SUPPORT. Laws of the engine: its turns, what a step can do, the operands as byte strings, and the shared form of the
whole commands. -/

namespace Sys2Proof.Machine

/-! ## Turns -/

theorem engineTurn_busy (s : State) (h : s.stat.busy = true) : engineTurn s = engineStep s := by simp [engineTurn, h]

theorem engineTurn_idle (s : State) (h : s.stat.busy = false) : engineTurn s = .next s := by simp [engineTurn, h]

/-- An idle engine stays as it is, however many turns it is given (R180). -/
theorem engineTurns_idle (n : Nat) (s : State) (h : s.stat.busy = false) : engineTurns n s = .next s := by
  induction n with
  | zero => rfl
  | succ n ih => simp only [engineTurns, engineTurn_idle s h, ih]

/-- One step peeled off a run of turns. -/
theorem engineTurns_succ (n : Nat) (s t : State) (hb : s.stat.busy = true) (h : engineStep s = .next t) :
    engineTurns (n + 1) s = engineTurns n t := by
  simp only [engineTurns, engineTurn_busy s hb, h]

/-- Runs of turns one after the other. -/
theorem engineTurns_add (m n : Nat) (s t : State) (h : engineTurns m s = .next t) :
    engineTurns (m + n) s = engineTurns n t := by
  induction m generalizing s with
  | zero =>
    rw [engineTurns] at h
    injection h with h
    rw [h, Nat.zero_add]
  | succ m ih =>
    rw [show m + 1 + n = m + n + 1 by omega]
    simp only [engineTurns] at h ⊢
    cases hs : engineTurn s with
    | next u =>
      rw [hs] at h
      exact ih u h
    | fault f =>
      rw [hs] at h
      cases h
    | refused r =>
      rw [hs] at h
      cases h

/-- After an abort nothing more happens. -/
@[simp] theorem engineTurns_raise (n : Nat) (k : ErrKind) (s : State) :
    engineTurns n (raise k s) = .next (raise k s) := engineTurns_idle n _ rfl

/-! ## A step -/

/-- Everything an engine step can do: abort, complete, or go on to another step, still busy. -/
theorem engineStep_next (s t : State) (h : engineStep s = .next t) :
    (∃ k, t = raise k s) ∨ (s.ph = .fin ∧ t = complete s) ∨
      (t.stat.busy = s.stat.busy ∧ t.stat.done = s.stat.done ∧ t.ph ≠ .idle ∧ t.ir = s.ir ∧ t.cfg = s.cfg ∧ t.ie = s.ie ∧
        t.script = s.script ∧ t.answers = s.answers) := by
  cases hp : s.ph <;>
    simp only [engineStep, hp, stepDDbl, stepZClr, stepVLen, stepSChk, stepSL, stepSK1, stepSK2, stepCInit, stepCSel,
      stepCXor, stepCEnc, stepCFXor, stepCFEnc, stepHNorm, stepHPads, stepHInner, stepHOuter, stepOTag, stepOCmp,
      stepFin] at h <;>
    (repeat' split at h) <;>
    first
      | cases h; done
      | (injection h with h; exact .inl ⟨_, h.symm⟩)
      | (injection h with h; exact .inr (.inl ⟨rfl, h.symm⟩))
      | (injection h with h; subst h; refine .inr (.inr ⟨rfl, rfl, ?_, rfl, rfl, rfl, rfl, rfl⟩); simp)

/-! ## Operands -/

/-- The command in `IR` is the one whose word stands there (R39). -/
theorem irCommand_of_ir (s : State) (i : Instr) (h : s.ir = encode i) : irCommand s = some i := by
  unfold irCommand
  rw [h]
  cases i <;> decide

@[simp] theorem length_keyBytes (s : State) : (keyBytes s).length = s.inp.klen.toNat := by simp [keyBytes]

@[simp] theorem length_msgBytes (s : State) : (msgBytes s).length = s.inp.mlen.toNat := by simp [msgBytes]

/-- The blocks of the message string are the blocks the engine reads from `MSG` (R62). -/
theorem wholeBlocks_msgBytes (s : State) (n : Nat) (h : 16 * n ≤ s.inp.mlen.toNat) :
    wholeBlocks (msgBytes s) n = (List.range n).map (msgBlock s) := by
  apply List.map_congr_left
  intro i hi
  rw [List.mem_range] at hi
  unfold msgBlock
  congr 1
  apply List.ext_getElem
  · simp [msgRange]
    omega
  · intro k h1 h2
    simp [msgBytes, msgRange, memRead]

/-- The bytes of the message string past its first `16 (N - 1)` are the bytes step `C_SEL` reads (R129). -/
theorem drop_msgBytes (s : State) (n : Nat) (hn : n = blockCount s.inp.mlen.toNat) :
    (msgBytes s).drop (16 * (n - 1)) =
      msgRange s (16 * (n - 1)) (if isComplete s.inp.mlen.toNat then 16 else s.inp.mlen.toNat - 16 * (n - 1)) := by
  apply List.ext_getElem
  · subst hn
    unfold blockCount
    by_cases hc : isComplete s.inp.mlen.toNat
    · simp [msgRange, hc]
      simp [isComplete] at hc
      omega
    · simp [msgRange, hc]
  · intro i h1 h2
    simp [msgBytes, msgRange, memRead]

/-- A block count fits the counters (R38). -/
theorem blockCount_lt (k len : Nat) (hk : 6 ≤ k) (h : len < 2 ^ k) : blockCount len < 2 ^ (k - 3) := by
  have e : 2 ^ k = 2 ^ (k - 3) * 2 ^ 3 := by
    rw [← Nat.pow_add]
    congr 1
    omega
  have e1 : 2 ^ 3 ≤ 2 ^ (k - 3) := Nat.pow_le_pow_right (by omega) (by omega)
  unfold blockCount
  omega

/-- A counter holds a number that fits it. -/
theorem counter_of_lt (c : Config) (n : Nat) (h : n < 2 ^ (c.lenw - 3)) : counter c n = n := Nat.mod_eq_of_lt h

@[simp] theorem byteAt_zero {w : Nat} (i : Nat) : byteAt (0 : BitVec w) i = 0 := by simp [byteAt]

/-- `T[16..31]` of a CMAC tag is zero (R133). -/
theorem byteAt_tagOfBlock_high (x : Block) (i : Nat) (h1 : 16 ≤ i) (h2 : i < 32) : byteAt (tagOfBlock x) i = 0 := by
  apply BitVec.eq_of_getLsbD_eq
  intro j hj
  rw [getLsbD_byteAt]
  have h3 : 256 - 8 * (i + 1) + j < 128 := by omega
  simp only [tagOfBlock, BitVec.getLsbD_append, h3, if_true]
  simp

/-- `T[0..15]` of a CMAC tag is the last cipher output (R133). -/
theorem byteAt_tagOfBlock_low (x : Block) (i : Nat) (h : i < 16) : byteAt (tagOfBlock x) i = byteAt x i := by
  apply BitVec.eq_of_getLsbD_eq
  intro j hj
  rw [getLsbD_byteAt, getLsbD_byteAt]
  have h3 : ¬ 256 - 8 * (i + 1) + j < 128 := by omega
  simp only [tagOfBlock, BitVec.getLsbD_append, h3, if_false]
  rw [show 256 - 8 * (i + 1) + j - 128 = 128 - 8 * (i + 1) + j by omega]

/-! ## Whole commands -/

theorem runCommand_busy (i : Instr) (s : State) (body : State → State) (h : s.stat.busy = true) :
    runCommand i s body = .next s := by simp [runCommand, h]

theorem runCommand_idle (i : Instr) (s : State) (body : State → State) (h : s.stat.busy = false) :
    runCommand i s body = .next (body (issued i s)) := by simp [runCommand, h, issued]

/-- A command as one transition always answers a next state (R186). -/
theorem exec_next (i : Instr) (s : State) : ∃ t, exec i s = .next t := by
  cases i <;> exact ⟨_, rfl⟩

end Sys2Proof.Machine
end

