-- ==== Sys2Proof/Laws/Invariant.lean ====
section
/-! SUPPORT. What the invariant says beside its fields, and a check of it that can be evaluated, for states that are not
in phase `O_TAG`. -/

namespace Sys2Proof.Machine

/-- R46 word for word, outside the phase `FIN` (log entry 12). -/
theorem rule46_of_inv (s : State) (h : Inv s) (hp : s.ph ≠ .fin) : Rule46 s where
  a := by
    have := h.busyPhase
    cases hb : s.stat.busy <;> simp_all
  b := h.idleWork
  c := h.busyNotDone
  d := by cases s.stat.err <;> decide
  e := ⟨h.tlenValues, h.tagRest⟩
  f ht := let ⟨he, hb, hi⟩ := h.tagOwner ht; ⟨he, hb.resolve_right hp, hi⟩
  g hv := let ⟨he, hb, hi⟩ := h.vokOwner hv; ⟨he, hb.resolve_right hp, hi⟩
  h := h.subkeysOwner

/-- R167 of `TAG` and `TLEN`, in every state: a `VERIFY` in progress or ended leaves both zero. -/
theorem verify_shows_no_tag (s : State) (h : Inv s) (hv : irIsVerify s) :
    s.out.tlen = 0 ∧ ∀ i, i < 32 → byteAt s.out.tag i = 0 := by
  have h0 : s.out.tlen = 0 := by
    by_contra hn
    have hs := (h.tagOwner hn).2.2
    rcases hv with hv | hv <;> rcases hs with hs | hs <;> rw [hv] at hs <;> revert hs <;> decide
  exact ⟨h0, fun i hi => h.tagRest i (by simp [h0]) hi⟩

/-- R167 of `K1` and `K2`, in every state in which no command runs: a `VERIFY` that has ended leaves both zero (log
entry 22). -/
theorem verify_leaves_no_subkeys (s : State) (h : Inv s) (hv : irIsVerify s) (hb : s.stat.busy = false) :
    s.out.k1 = 0 ∧ s.out.k2 = 0 := by
  by_contra hn
  have hd := (h.subkeysOwner hb (by tauto)).1
  rcases hv with hv | hv <;> rw [hv] at hd <;> revert hd <;> decide

/-- R214's bound on the inputs of `H_NORM`, `H_INNER` and `H_OUTER`, on every instance whose `KMAX` is within it (log
entry 23). -/
theorem hash_inputs_bounded (s : State) (h : Inv s) (hk : s.cfg.kmax ≤ 64 + s.cfg.mmax) :
    (keyBytes s).length ≤ 64 + s.cfg.mmax ∧
    (bytesOf s.work.ipad ++ msgBytes s).length ≤ 64 + s.cfg.mmax ∧
    (bytesOf s.work.opad ++ bytesOf s.work.idig).length ≤ 64 + s.cfg.mmax := by
  have hc := h.config
  have hl := h.lengthsFit
  simp only [Config.wellFormed, Bool.and_eq_true, decide_eq_true_eq] at hc
  have h6 : 2 ^ 6 ≤ 2 ^ s.cfg.lenw := Nat.pow_le_pow_right (by omega) hc.1.1
  simp [bytesOf, Config.mmax, Config.kmax] at hk ⊢
  omega

/-- Every part of `Inv`, as one Bool. -/
def invCheck (s : State) : Bool :=
  s.cfg.wellFormed &&
  decide (s.inp.klen.toNat < 2 ^ s.cfg.klenw ∧ s.inp.mlen.toNat < 2 ^ s.cfg.lenw) &&
  (s.inp.key.wf && s.inp.key.within s.cfg.kmax) &&
  (s.inp.msg.wf && s.inp.msg.within s.cfg.mmax) &&
  decide (s.work.n < 2 ^ (s.cfg.lenw - 3) ∧ s.work.blk < 2 ^ (s.cfg.lenw - 3)) &&
  (s.stat.busy == decide (s.ph ≠ .idle)) &&
  (s.stat.busy || decide (s.work = Work.zero)) &&
  !(s.stat.busy && s.stat.done) &&
  decide (s.out.tlen = 0 ∨ s.out.tlen = 16 ∨ s.out.tlen = 32) &&
  (List.range 32).all (fun i => decide (i < s.out.tlen.toNat) || decide (byteAt s.out.tag i = 0)) &&
  decide (s.out.tlen ≠ 0 → s.stat.err = .none ∧ (s.stat.busy = false ∨ s.ph = .fin) ∧ irIsSign s) &&
  decide (s.stat.vok = true → s.stat.err = .none ∧ (s.stat.busy = false ∨ s.ph = .fin) ∧ irIsVerify s) &&
  decide (s.stat.busy = false → s.out.k1 ≠ 0 ∨ s.out.k2 ≠ 0 → s.ir = encode .deriveCmac ∧ s.stat.err = .none) &&
  (!s.stat.busy || Instr.all.any (fun i => decide (s.ir = encode i) && decide (s.ph ∈ phasesOf i))) &&
  decide (s.stat.busy = true → s.stat.err = .none ∨ (s.stat.err = .tagLengthMismatch ∧ s.ph = .fin ∧ irIsVerify s)) &&
  decide (s.ph ∈ cipherPhases → s.inp.klen = 16) &&
  decide (s.ph ∈ loopPhases → s.work.n = blockCount s.inp.mlen.toNat ∧ s.work.blk ≤ s.work.n - 1) &&
  decide (s.ph = .cXor ∨ s.ph = .cEnc → s.work.blk < s.work.n - 1) &&
  decide (s.ph ≠ .oTag)

theorem inv_of_invCheck (s : State) (h : invCheck s = true) : Inv s := by
  simp only [invCheck, Bool.and_eq_true, decide_eq_true_eq] at h
  obtain ⟨⟨⟨⟨⟨⟨⟨⟨⟨⟨⟨⟨⟨⟨⟨⟨⟨⟨h1, h2⟩, h3⟩, h4⟩, h5⟩, h6⟩, h7⟩, h8⟩, h9⟩, h10⟩, h11⟩, h12⟩, h13⟩, h14⟩, h15⟩, h16⟩, h17⟩, h18⟩,
    h19⟩ := h
  refine ⟨h1, h2, h3, h4, h5, ?_, ?_, ?_, h9, ?_, h11, h12, h13, ?_, h15, h16, h17, h18, fun h => absurd h h19⟩
  · rw [beq_iff_eq] at h6
    rw [h6, decide_eq_true_eq]
  · intro hb
    simpa [hb] using h7
  · rintro ⟨hb, hd⟩
    simp [hb, hd] at h8
  · intro i hi h32
    rw [List.all_eq_true] at h10
    have := h10 i (List.mem_range.mpr h32)
    simpa [Nat.not_lt.mpr hi] using this
  · intro hb
    simp only [hb, Bool.not_true, Bool.false_or, List.any_eq_true, Bool.and_eq_true, decide_eq_true_eq] at h14
    obtain ⟨i, -, hi, hm⟩ := h14
    exact ⟨i, irCommand_of_ir s i hi, hm⟩

end Sys2Proof.Machine
end

