-- ==== Sys2Proof/Laws/Memory.lean ====
section
/-! SUPPORT. Laws of the sparse byte spaces (Machine/Ops.lean): read after write, and that a write keeps the canonical
form and the size. -/

namespace Sys2Proof.Machine

theorem Memory.wfFrom_mono (m : Memory) (lo lo' : Nat) (h : lo' ≤ lo) (hw : Memory.wfFrom lo m = true) :
    Memory.wfFrom lo' m = true := by
  cases m with
  | nil => rfl
  | cons c rest =>
    simp only [Memory.wfFrom, Bool.and_eq_true, decide_eq_true_eq] at hw ⊢
    exact ⟨⟨by omega, hw.1.2⟩, hw.2⟩

/-- Below the first address there is nothing. -/
theorem Memory.read_below (m : Memory) (lo a : Nat) (hw : Memory.wfFrom lo m = true) (h : a < lo) :
    m.read a = 0 := by
  induction m generalizing lo with
  | nil => rfl
  | cons c rest ih =>
    simp only [Memory.wfFrom, Bool.and_eq_true, decide_eq_true_eq] at hw
    have : ¬ c.1 = a := by omega
    simp only [Memory.read, this, if_false]
    exact ih _ hw.2 (by omega)

/-- Read after write (R67, R71). -/
theorem Memory.read_write (m : Memory) (lo a k : Nat) (b : Byte) (hw : Memory.wfFrom lo m = true) :
    (m.write a b).read k = if k = a then b else m.read k := by
  induction m generalizing lo with
  | nil =>
    by_cases hk : k = a
    · subst hk
      by_cases hb : b = 0#8 <;> simp [Memory.write, Memory.read, hb]
    · have hk' : ¬ a = k := fun h => hk h.symm
      by_cases hb : b = 0#8 <;> simp [Memory.write, Memory.read, hb, hk, hk']
  | cons c rest ih =>
    obtain ⟨x, v⟩ := c
    simp only [Memory.wfFrom, Bool.and_eq_true, decide_eq_true_eq] at hw
    have below : ∀ y, y < x + 1 → Memory.read rest y = 0 := fun y hy => Memory.read_below rest _ y hw.2 hy
    unfold Memory.write
    by_cases h1 : a < x
    · by_cases hb : b = 0
      · simp only [h1, hb, if_true]
        by_cases hk : k = a
        · subst hk
          simp [Memory.read, below k (by omega)]
          omega
        · simp [hk]
      · simp only [h1, hb, if_true, if_false]
        by_cases hk : k = a
        · simp [Memory.read, hk]
        · have : ¬ a = k := fun h => hk h.symm
          simp [Memory.read, hk, this]
    · by_cases h2 : a = x
      · subst h2
        by_cases hb : b = 0
        · simp only [h1, hb, if_true, if_false]
          by_cases hk : k = a
          · subst hk; simp [below k (by omega)]
          · have : ¬ a = k := fun h => hk h.symm
            simp [Memory.read, hk, this]
        · simp only [h1, hb, if_true, if_false]
          by_cases hk : k = a
          · simp [Memory.read, hk]
          · have : ¬ a = k := fun h => hk h.symm
            simp [Memory.read, hk, this]
      · simp only [h1, h2, if_false, Memory.read]
        rw [ih _ hw.2]
        by_cases hk : k = a
        · have : ¬ x = a := fun h => h2 h.symm
          simp [hk, this]
        · simp [hk]

theorem Memory.wfFrom_write (m : Memory) (lo a : Nat) (b : Byte) (h : lo ≤ a) (hw : Memory.wfFrom lo m = true) :
    Memory.wfFrom lo (m.write a b) = true := by
  induction m generalizing lo with
  | nil => by_cases hb : b = 0#8 <;> simp [Memory.write, Memory.wfFrom, hb, h]
  | cons c rest ih =>
    obtain ⟨x, v⟩ := c
    have hw' := hw
    simp only [Memory.wfFrom, Bool.and_eq_true, decide_eq_true_eq] at hw
    unfold Memory.write
    by_cases h1 : a < x
    · by_cases hb : b = 0
      · simpa [h1, hb] using hw'
      · simp only [h1, hb, if_true, if_false, Memory.wfFrom, Bool.and_eq_true, decide_eq_true_eq]
        exact ⟨⟨h, by simpa using hb⟩, ⟨by omega, hw.1.2⟩, hw.2⟩
    · by_cases h2 : a = x
      · subst h2
        by_cases hb : b = 0
        · simp only [h1, hb, if_true, if_false]
          exact Memory.wfFrom_mono rest _ _ (by omega) hw.2
        · simp only [h1, hb, if_true, if_false, Memory.wfFrom, Bool.and_eq_true, decide_eq_true_eq]
          exact ⟨⟨h, by simpa using hb⟩, hw.2⟩
      · simp only [h1, h2, if_false, Memory.wfFrom, Bool.and_eq_true, decide_eq_true_eq]
        exact ⟨hw.1, ih _ (by omega) hw.2⟩

theorem Memory.within_write (m : Memory) (size a : Nat) (b : Byte) (h : a < size) (hm : m.within size = true) :
    Memory.within size (m.write a b) = true := by
  induction m with
  | nil => by_cases hb : b = 0#8 <;> simp [Memory.write, Memory.within, hb, h]
  | cons c rest ih =>
    obtain ⟨x, v⟩ := c
    simp only [Memory.within, List.all_cons, Bool.and_eq_true, decide_eq_true_eq] at hm
    have hrec := ih hm.2
    unfold Memory.write
    split
    · split
      · simpa only [Memory.within, List.all_cons, Bool.and_eq_true, decide_eq_true_eq] using hm
      · simpa only [Memory.within, List.all_cons, Bool.and_eq_true, decide_eq_true_eq] using And.intro h hm
    · split
      · split
        · exact hm.2
        · simpa only [Memory.within, List.all_cons, Bool.and_eq_true, decide_eq_true_eq] using And.intro h hm.2
      · simpa only [Memory.within, List.all_cons, Bool.and_eq_true, decide_eq_true_eq] using And.intro hm.1 hrec

/-- Every memory operation keeps the canonical form: the one that writes. -/
theorem Memory.wf_write (m : Memory) (a : Nat) (b : Byte) (hw : m.wf = true) : Memory.wf (m.write a b) = true :=
  Memory.wfFrom_write m 0 a b (Nat.zero_le _) hw

theorem Memory.read_write_same (m : Memory) (a : Nat) (b : Byte) (hw : m.wf = true) : (m.write a b).read a = b := by
  rw [Memory.read_write m 0 a a b hw, if_pos rfl]

theorem Memory.read_write_ne (m : Memory) (a k : Nat) (b : Byte) (hw : m.wf = true) (h : k ≠ a) :
    (m.write a b).read k = m.read k := by
  rw [Memory.read_write m 0 a k b hw, if_neg h]

end Sys2Proof.Machine
end

