-- ==== Sys2Proof/Laws/PerInstr.lean ====
section
/-! SUPPORT. Statements about every command as syntax, one lemma per constructor. -/

/-- The mnemonic of a command names that command (R88). -/
def Sys2Proof.Laws.Mnemonics.Statement (i : Sys2Proof.Instr) : Prop := Sys2Proof.parseMnemonic i.mnemonic = some i

namespace Sys2Proof.Laws.Mnemonics

theorem signHmac : Statement .signHmac := by unfold Statement; decide

theorem signCmac : Statement .signCmac := by unfold Statement; decide

theorem verifyHmac : Statement .verifyHmac := by unfold Statement; decide

theorem verifyCmac : Statement .verifyCmac := by unfold Statement; decide

theorem deriveCmac : Statement .deriveCmac := by unfold Statement; decide

theorem dbl : Statement .dbl := by unfold Statement; decide

theorem clear : Statement .clear := by unfold Statement; decide

end Sys2Proof.Laws.Mnemonics
end

