-- ==== Sys2Proof/Tests/Slice0.lean ====
section
/-! SUPPORT. The package's own tests: the encodings, the checks, the examples of spec/95_test_vectors.md and of
spec/48_primitives.md, and a witness for every statement that has hypotheses. Every expected value is one the spec
prints. -/

set_option maxRecDepth 100000

open Sys2Proof Sys2Proof.Machine

namespace Sys2Proof.Tests

/-! ## States to test on -/

/-- A byte space that holds this string from index 0 on. -/
def cells (bs : List Byte) : Memory := (bs.zipIdx.filter fun p => p.1 != 0).map fun p => (p.2, p.1)

/-- The reset state with these inputs loaded. -/
def loaded (key msg : List Byte) (ctlen : BitVec 8) (ctag : Digest) (v : Block) : State :=
  { State.reset with
    inp :=
      { klen := BitVec.ofNat 32 key.length, mlen := BitVec.ofNat 32 msg.length, ctlen := ctlen, key := cells key
        msg := cells msg, ctag := ctag, v := v } }

/-- The reset state of an instance with the least parameters of R8. -/
def small : State := { State.reset with cfg := { Config.default with lenw := 6, klenw := 7 } }

/-- The state of an instance whose primitives fail. -/
def failingPorts (s : State) : State := { s with cfg := { s.cfg with cipher := .failing, hash := .failing } }

/-- The same, in the middle of a command: `BUSY = 1`, at this phase, with this word in `IR`. -/
def midway (ph : Phase) (ir : Word) (s : State) : State :=
  { s with ph := ph, ir := ir, stat := { s.stat with busy := true } }

/-- The same, in the CMAC controller, with these counters. -/
def looping (ph : Phase) (ir : Word) (n blk : Nat) (s : State) : State :=
  { midway ph ir s with work := { Work.zero with n := n, blk := blk } }

/-- The state after the next step, when the host writes this word to `CMD` and waits. -/
def afterWord (w : Nat) (s : State) : State :=
  match step (s.withFetchWord 32 w) with
  | .next t => t
  | .fault _ => s
  | .refused _ => s

/-- `KN` of file 95. -/
def kn : List Byte := bytesOf (0x2b7e151628aed2a6abf7158809cf4f3c : Block)

/-- `MN[0..n-1]` of file 95. -/
def mn (n : Nat) : List Byte :=
  (bytesOf ((0x6bc1bee22e409f96e93d7e117393172aae2d8a571e03ac9c9eb76fac45af8e51 : Digest) ++
    (0x30c81c46a35ce411e5fbc1191a0a52eff69f2445df4f9b17ad2b417be66c3710 : Digest))).take n

/-- `KH` of file 95. -/
def kh : List Byte := List.replicate 20 0x0b

/-- `MH` of file 95. -/
def mh : List Byte := bytesOf (0x4869205468657265 : BitVec 64)

/-- `TN` of file 95, in `CTAG[0..15]`, with zeros after it. -/
def tn : Digest := (0xbb1d6929e95937287fa37d129b756746 : Block) ++ (0 : Block)

/-- `TH` of file 95. -/
def th : Digest := 0xb0344c61d8db38535ca8afceaf0bf12b881dc200c9833da726e9376c2e32cff7

/-! ## Encodings (spec/30_encoding.md R80 to R83, file 95 section 7) -/

theorem test_decode_sign_hmac : decode 0b00000000000000000000000000000001 = .ok .signHmac := by decide
theorem test_decode_sign_cmac : decode 0b00000000000000000000000000010001 = .ok .signCmac := by decide
theorem test_decode_verify_hmac : decode 0b00000000000000000000000000000010 = .ok .verifyHmac := by decide
theorem test_decode_verify_cmac : decode 0b00000000000000000000000000010010 = .ok .verifyCmac := by decide
theorem test_decode_derive_cmac : decode 0b00000000000000000000000000010011 = .ok .deriveCmac := by decide
theorem test_decode_dbl : decode 0b00000000000000000000000000000100 = .ok .dbl := by decide
theorem test_decode_clear : decode 0b00000000000000000000000000001111 = .ok .clear := by decide

/-- I-1 to I-13 of file 95. -/
theorem test_decode_illegal_words :
    ([0x00000000, 0x00000003, 0x00000014, 0x0000001F, 0x00000021, 0x00000005, 0x00000010, 0x00000111, 0x80000011,
      0xFFFFFFFF, 0x0000000E, 0x00000023, 0x000000F1] : List Word).map decode? = List.replicate 13 none := by decide

theorem test_encode_words :
    Instr.all.map encode =
      [0x00000001, 0x00000011, 0x00000002, 0x00000012, 0x00000013, 0x00000004, 0x0000000F] := by decide

theorem test_decodeTableWord_rejects_long_words : decodeTableWord 32 0x100000011 = none := by decide

/-! ## Ill-formed words and configurations -/

theorem test_check_refuses_zero_field : FormatC.check { zero := 0x800000, alg := 1, op := 1 } = .error .zeroField := by
  decide
theorem test_check_refuses_reserved_op : FormatC.check { zero := 0, alg := 0, op := 5 } = .error .reservedOp := by
  decide
theorem test_check_refuses_reserved_alg : FormatC.check { zero := 0, alg := 0xF, op := 1 } = .error .reservedAlg := by
  decide
theorem test_check_refuses_derive_hmac : FormatC.check { zero := 0, alg := 0, op := 3 } = .error .wrongAlg := by decide
theorem test_check_refuses_clear_cmac : FormatC.check { zero := 0, alg := 1, op := 0xF } = .error .wrongAlg := by decide
theorem test_config_refuses_narrow_lenw : Config.wellFormed { Config.default with lenw := 5 } = false := by decide
theorem test_config_refuses_wide_lenw : Config.wellFormed { Config.default with lenw := 33 } = false := by decide
theorem test_config_refuses_narrow_klenw : Config.wellFormed { Config.default with klenw := 6 } = false := by decide
theorem test_config_refuses_wide_klenw : Config.wellFormed { Config.default with klenw := 33 } = false := by decide
theorem test_platform_refuses_no_instance :
    PlatformConfig.wellFormed { PlatformConfig.default with ninst := 0 } = false := by decide
theorem test_config_allows_least_widths :
    Config.wellFormed { Config.default with lenw := 6, klenw := 7 } = true := by decide

/-! ## The primitives (spec/48_primitives.md R225, R231) -/

theorem test_aes_r225 :
    [aesEncrypt 0x000102030405060708090a0b0c0d0e0f 0x00112233445566778899aabbccddeeff,
      aesEncrypt 0x2b7e151628aed2a6abf7158809cf4f3c 0] =
      [0x69c4e0d86a7b0430d8cdb78070b4c55a, 0x7df76b0c1ab899b33e42f047b91b546f] := by decide +kernel

/-- The check of R222. -/
theorem test_aes_round_key_1 :
    aesNextKey 0x2b7e151628aed2a6abf7158809cf4f3c 0x01 = 0xa0fafe1788542cb123a339392a6c7605 := by decide +kernel

theorem test_sha_r231_abc :
    sha256 (bytesOf (0x616263 : BitVec 24)) =
      0xba7816bf8f01cfea414140de5dae2223b00361a396177a9cb410ff61f20015ad := by decide +kernel

/-- A padded input of two blocks from one block of data. -/
theorem test_sha_r231_64_zero_bytes :
    sha256 (List.replicate 64 0) =
      0xf5a5fd42d16a20302798ef6ed309979b43003d2320d9f0e8ea9831a92759fb4b := by decide +kernel

/-! ## The commands (file 95, sections 2 to 7) -/

/-- V-DBL-2. -/
theorem test_dbl_reduces :
    (let t := afterWord 4 (loaded [] [] 0 0 0x80000000000000000000000000000000)
     (t.inp.v, hostRd t 1)) = (0x00000000000000000000000000000087, 0x0000000A) := by decide +kernel

/-- V-DBL-8: the test is on the operand, not on the shifted value. -/
theorem test_dbl_tests_the_operand :
    (let t := afterWord 4 (loaded [] [] 0 0 0x40000000000000000000000000000000)
     (t.inp.v, hostRd t 1)) = (0x80000000000000000000000000000000, 0x00000002) := by decide +kernel

/-- V-DER-5: both doublings reduce. -/
theorem test_derive_both_reduced :
    (let t := afterWord 0x13 (loaded (bytesOf (0x000102030405060708090a0b0c0d0e0f : Block)) [] 0 0 0)
     (t.out.k1, t.out.k2, hostRd t 1)) =
      (0x8d42766f0f1eb704de9f02c54391b075, 0x1a84ecde1e3d6e09bd3e058a8723606d, 0x00000002) := by decide +kernel

/-- V-DER-E17. -/
theorem test_derive_long_key :
    (let t := afterWord 0x13 (loaded (kn ++ [0x10]) [] 0 0 0)
     (t.out, hostRd t 1)) = (Outputs.zero, 0x00000102) := by decide +kernel

/-- S-1: the empty message. -/
theorem test_sign_cmac_empty_message :
    (let t := afterWord 0x11 (loaded kn [] 0 0 0)
     (t.out.tag, hostRd t 6, hostRd t 1)) =
      ((0xbb1d6929e95937287fa37d129b756746 : Block) ++ (0 : Block), 16, 0x00000002) := by decide +kernel

/-- S-C-33: two chained blocks and a padded remainder of one byte. -/
theorem test_sign_cmac_33_bytes :
    (afterWord 0x11 (loaded kn (mn 33) 0 0 0)).out.tag =
      (0xcb8006fd4b9a8313333943ad6eb92797 : Block) ++ (0 : Block) := by decide +kernel

/-- S-2. -/
theorem test_sign_hmac_short_key :
    (let t := afterWord 1 (loaded kh mh 0 0 0)
     (t.out.tag, hostRd t 6, hostRd t 1)) =
      (0xb0344c61d8db38535ca8afceaf0bf12b881dc200c9833da726e9376c2e32cff7, 32, 0x00000002) := by decide +kernel

/-- S-H-65: the first key length that is hashed. -/
theorem test_sign_hmac_hashed_key :
    (afterWord 1 (loaded ((List.range 65).map (BitVec.ofNat 8)) (bytesOf (0x616263 : BitVec 24)) 0 0 0)).out.tag =
      0xdfbffee4671bad00ed5d1e1999d55ed3b0cc774ac357f9ebf649c1612414fcec := by decide +kernel

/-- VF-1: the right tag; nothing but the verdict is shown. -/
theorem test_verify_hmac_equal :
    (let t := afterWord 2 (loaded kh mh 32 th 0)
     (hostRd t 1, t.out)) = (0x00000006, Outputs.zero) := by decide +kernel

/-- VF-2: the last byte differs in one bit. -/
theorem test_verify_hmac_last_byte :
    hostRd (afterWord 2 (loaded kh mh 32 (th ^^^ 1) 0)) 1 = 0x00000002 := by decide +kernel

/-- VF-12: the bytes of `CTAG` past `CTLEN` are not compared. -/
theorem test_verify_cmac_ignores_ctag_tail :
    hostRd (afterWord 0x12 (loaded kn [] 16 (tn ||| 0xffffffffffffffffffffffffffffffff) 0)) 1 = 0x00000006 := by
  decide +kernel

/-- VF-11: the tag length is checked before the key length. -/
theorem test_verify_cmac_checks_tag_length_first :
    hostRd (afterWord 0x12 (loaded (kn.take 15) [] 15 tn 0)) 1 = 0x00000302 := by decide +kernel

/-- Z-1. -/
theorem test_clear_keeps_ctrl :
    (let t := afterWord 0xF { loaded kn mh 0 0 7 with ie := true }
     (t.inp, hostRd t 1, hostRd t 2, irq t, t.ir)) = (Inputs.zero, 0x00000002, 0x00000001, true, 0x0000000F) := by
  decide +kernel

/-- Z-2: after `CLEAR` a `SIGN.CMAC` has no key. -/
theorem test_clear_then_sign_cmac :
    hostRd (afterWord 0x11 (afterWord 0xF (loaded kn mh 0 0 0))) 1 = 0x00000102 := by decide +kernel

/-- I-1: a stray write of zero to `CMD` is reported. -/
theorem test_zero_word_is_reported :
    (let t := afterWord 0 (loaded kn mh 0 0 0)
     (hostRd t 1, t.ir, t.ph, t.inp == (loaded kn mh 0 0 0).inp)) = (0x00000402, 0, Phase.idle, true) := by
  decide +kernel

/-! ## The step sequence (T-1, R185) -/

/-- The phases of the next `n` states. -/
def phaseTrace : Nat → State → List Phase
  | 0, _ => []
  | n + 1, s =>
    s.ph ::
      match engineTurn s with
      | .next t => phaseTrace n t
      | .fault _ => []
      | .refused _ => []

/-- T-1, the rows 0 to 14 of `PH`: a message of 33 bytes takes the loop twice. -/
theorem test_trace_sign_cmac :
    phaseTrace 15 (issued .signCmac (loaded kn (mn 33) 0 0 0)) =
      [.sChk, .sL, .sK1, .sK2, .cInit, .cSel, .cXor, .cEnc, .cXor, .cEnc, .cFXor, .cFEnc, .oTag, .fin, .idle] := by
  decide +kernel

/-- S-C-PF1: code 2 in `STATUS`. -/
theorem test_primitive_failure_code :
    hostRd (afterWord 0x11 (failingPorts (loaded kn (mn 33) 0 0 0))) 1 = 0x00000202 := by decide +kernel

/-- S-C-PF1: the first invocation fails in the second step. -/
theorem test_abort_in_second_step :
    (phaseAfter 1 (issued .signCmac (failingPorts (loaded kn (mn 33) 0 0 0))),
      phaseAfter 2 (issued .signCmac (failingPorts (loaded kn (mn 33) 0 0 0)))) = (some .sL, some .idle) := by
  decide +kernel

/-! ## The host's accesses (file 95, section 7) -/

/-- A state like the one after S-1: `TAG` holds `TN`, `TLEN = 16`, `DONE = 1`. -/
def afterS1 : State :=
  { loaded kn [] 0 0 0 with
    out := { Outputs.zero with tag := tn, tlen := 16 }, ir := 0x11, stat := { Status.zero with done := true } }

/-- A-1. -/
theorem test_key_is_not_readable : hostRdB afterS1 0 0 = 0 := by decide +kernel

/-- A-2. -/
theorem test_read_tag :
    [0, 15, 16, 32].map (hostRdB afterS1 6) = [0xbb, 0x46, 0x00, 0x00] := by decide +kernel

/-- A-3, A-4, A-5. -/
theorem test_outputs_are_read_only :
    (hostRdB (hostWrB 6 0 0xff afterS1) 6 0, hostRd (hostWr 6 5 afterS1) 6, hostRd afterS1 0) = (0xbb, 16, 0) := by
  decide +kernel

/-- A-6, A-7. -/
theorem test_acknowledge :
    (hostRd (hostWr 1 0x00000002 afterS1) 1, hostRd (hostWr 1 0xFFFFFFFD afterS1) 1) = (0x00000000, 0x00000002) := by
  decide +kernel

/-- A-8. -/
theorem test_reads_while_busy :
    (let s := issued .signCmac (loaded kn (mn 64) 0 0 0)
     ([1, 6, 4].map (hostRd s), hostRdB s 1 0, hostRdB s 6 0)) = ([0x00000001, 0, 64], 0, 0) := by decide +kernel

/-- A-9. -/
theorem test_writes_while_busy_are_dropped :
    (let s := issued .signCmac (loaded kn (mn 64) 0 0 0)
     hostWrB 0 0 0 (hostWr 0 0x0000000F (hostWrB 1 0 0 (hostWr 4 0 s))) = s) := by decide +kernel

/-- A-11, A-12: lengths that do not fit. -/
theorem test_lengths_are_truncated :
    (hostRd (hostWr 3 0x00010010 State.reset) 3, hostRd (hostWr 5 0x00000110 State.reset) 5) = (0x10, 0x10) := by
  decide +kernel

/-- A-13: registers and spaces that do not exist. -/
theorem test_absent_registers :
    (hostRd afterS1 7, hostRdB afterS1 7 0, hostWr 9 1 afterS1 == afterS1) = (0, 0, true) := by decide +kernel

/-- The last lines of P1: `READ TAG, 16` after `TLEN` has been read is 16 reads of `TAG`, then the acknowledge; and what
the call returns for codes 0 and 2 of `STATUS`, and for a verification that failed by length (R90, R91). -/
theorem test_read_lines :
    (performRead 6 { afterS1 with script := [ackLine], answers := [.word 2, .word 16] }).script =
      readLines 6 16 ++ [.hostWr 1 0x00000002] := by decide +kernel

theorem test_call_results :
    (signResult [.word 0x00000002, .word 1, .byte 0xbb], signResult [.word 0x00000202, .word 0],
      verifyResult [.word 0x00000302]) =
      (some (.tag [0xbb]), some (.error .primitiveFailure), some (.verdict false)) := by decide

/-- Conflict C9: a claimed tag of 272 bytes is presented with the length 255. -/
theorem test_long_claimed_tag_is_clamped :
    (loadCtag (List.replicate 272 0)).getLast? = some (.hostWr 5 255) := by decide +kernel

/-! ## Memory -/

/-- Writing what an unlisted address reads as removes the entry. -/
theorem test_memory_write_zero_removes :
    Memory.write [(2, 7), (5, 1)] 5 0 = [(2, 7)] := by decide

theorem test_memory_write_keeps_order :
    Memory.write [(2, 7), (5, 1)] 3 9 = [(2, 7), (3, 9), (5, 1)] := by decide

/-! ## A witness for every statement that has hypotheses -/

/-- An idle state; and illegal words at the edges of each range of R86. -/
theorem witness_IllegalWordsAreReported :
    (State.reset.stat.busy = false) ∧
    (([0x100, 0x80000011, 0x10, 0x05, 0x0E, 0x21, 0xF2, 0x03, 0x23, 0x14, 0xF4, 0x1F,
      0xFF] : List Word).map decode? = List.replicate 13 none) ∧
    (∃ e, decode 0x100 = .error e) :=
  ⟨rfl,
    by decide,
    ⟨_, rfl⟩⟩

/-- A command word, an illegal word, and a word of the table. -/
theorem witness_StepRunsTheDecodedCommand :
    (∃ (s : State) (rest : List Event), s.script = .command 0x00000011 :: rest ∧ decode 0x00000011 = .ok .signCmac) ∧
    (∃ (s : State) (rest : List Event), s.script = .command 0x00000000 :: rest ∧
      decode 0x00000000 = .error .reservedOp) ∧
    (decodeTableWord 32 0x11 = some .signCmac) :=
  ⟨⟨{ State.reset with script := [.command 0x00000011] }, [], rfl, rfl⟩,
    ⟨{ State.reset with script := [.command 0] }, [], rfl, rfl⟩,
    rfl⟩

/-- A state for each kind of transition, busy and idle. -/
theorem witness_StepIsOneTransition :
    (∀ e : Event, ∃ s : State, s.script = [e] ∧ s.stat.busy = true) ∧
    (∀ e : Event, ∃ s : State, s.script = [e] ∧ s.stat.busy = false) ∧
    (∃ s : State, s.script = [.read 6] ∧ s.answers = [.word 0x00000002] ++ [.word 16]) ∧
    (∃ s : State, s.script = [] ∧ s.stat.busy = true) ∧
    (∃ s : State, s.script = [] ∧ s.stat.busy = false) :=
  ⟨fun e => ⟨{ midway .fin 4 State.reset with script := [e] }, rfl, rfl⟩,
    fun e => ⟨{ State.reset with script := [e] }, rfl, rfl⟩,
    ⟨{ State.reset with script := [.read 6], answers := [.word 2, .word 16] }, rfl, rfl⟩,
    ⟨midway .fin 4 State.reset, rfl, rfl⟩,
    ⟨State.reset, rfl, rfl⟩⟩

/-- `WAIT` next in a busy state, in one that is done, and in one that is neither. -/
theorem witness_WaitPollsUntilDone :
    (∃ s : State, s.script = [.wait] ∧ s.stat.busy = true) ∧
    (∃ s : State, s.script = [.wait] ∧ s.stat.busy = false ∧ s.stat.done = true) ∧
    (∃ s : State, s.script = [.wait] ∧ s.stat.busy = false ∧ s.stat.done = false) :=
  ⟨⟨{ midway .fin 4 State.reset with script := [.wait] }, rfl, rfl⟩,
    ⟨{ afterS1 with script := [.wait] }, rfl, rfl, rfl⟩,
    ⟨{ State.reset with script := [.wait] }, rfl, rfl, rfl⟩⟩

/-- An idle state, an illegal word, and a busy state. -/
theorem witness_CommandIssue :
    (State.reset.stat.busy = false) ∧
    (decode 0xFFFFFFFF = .error .zeroField) ∧
    ((midway .fin 4 State.reset).stat.busy = true) :=
  ⟨rfl,
    rfl,
    rfl⟩

/-- Busy states with a command word next. -/
theorem witness_CommandWhileBusyIsDropped :
    (∃ s : State, s.stat.busy = true ∧ s.script = [.hostWr 0 0x0000000F]) ∧
    (∃ s : State, s.stat.busy = true ∧ s.script = [.command 0x0000000F]) :=
  ⟨⟨{ midway .fin 4 State.reset with script := [.hostWr 0 0x0000000F] }, rfl, rfl⟩,
    ⟨{ midway .fin 4 State.reset with script := [.command 0x0000000F] }, rfl, rfl⟩⟩

/-- An idle state. -/
theorem witness_DblDoublesV :
    (loaded [] [] 0 0 7).stat.busy = false :=
  rfl

/-- A key of 15 bytes, of 17 bytes, a cipher that fails, and one that does not. -/
theorem witness_DeriveLeavesSubkeys :
    ((loaded (kn.take 15) [] 0 0 0).stat.busy = false ∧ (loaded (kn.take 15) [] 0 0 0).inp.klen ≠ 16) ∧
    ((loaded (kn ++ [0]) [] 0 0 0).stat.busy = false ∧ (loaded (kn ++ [0]) [] 0 0 0).inp.klen ≠ 16) ∧
    (∃ s : State, s.stat.busy = false ∧ s.inp.klen = 16 ∧ encPort s.cfg (cipherKey s) 0 = none) ∧
    (∃ (s : State) (l : Block), s.stat.busy = false ∧ s.inp.klen = 16 ∧ encPort s.cfg (cipherKey s) 0 = some l) :=
  ⟨by decide,
    by decide,
    ⟨failingPorts (loaded kn [] 0 0 0), rfl, rfl, rfl⟩,
    ⟨loaded kn [] 0 0 0, _, rfl, rfl, rfl⟩⟩

/-- A key of a wrong length, a cipher that fails, and one that does not. -/
theorem witness_SignCmacReleasesTag :
    (∃ s : State, s.stat.busy = false ∧ s.inp.klen ≠ 16) ∧
    (∃ s : State, s.stat.busy = false ∧ s.inp.klen = 16 ∧ cmac s.cfg (cipherKey s) (msgBytes s) = none) ∧
    (∃ (s : State) (x : Block), s.stat.busy = false ∧ s.inp.klen = 16 ∧
      cmac s.cfg (cipherKey s) (msgBytes s) = some x) :=
  ⟨⟨State.reset, rfl, by decide⟩,
    ⟨failingPorts (loaded kn (mn 33) 16 tn 7), rfl, rfl, rfl⟩,
    ⟨loaded kn [] 0 0 0, _, rfl, rfl, rfl⟩⟩

/-- A hash that fails, and one that does not. -/
theorem witness_SignHmacReleasesTag :
    (∃ s : State, s.stat.busy = false ∧ hmac s.cfg (keyBytes s) (msgBytes s) = none) ∧
    (∃ (s : State) (t : Digest), s.stat.busy = false ∧ hmac s.cfg (keyBytes s) (msgBytes s) = some t) :=
  ⟨⟨failingPorts State.reset, rfl, rfl⟩,
    ⟨State.reset, _, rfl, rfl⟩⟩

/-- A wrong tag length, a hash that fails, and one that does not. -/
theorem witness_VerifyHmacOutcomes :
    (∃ s : State, s.stat.busy = false ∧ s.inp.ctlen ≠ 32) ∧
    (∃ s : State, s.stat.busy = false ∧ s.inp.ctlen = 32 ∧ hmac s.cfg (keyBytes s) (msgBytes s) = none) ∧
    (∃ (s : State) (t : Digest), s.stat.busy = false ∧ s.inp.ctlen = 32 ∧
      hmac s.cfg (keyBytes s) (msgBytes s) = some t) :=
  ⟨⟨loaded kh mh 16 th 0, rfl, by decide⟩,
    ⟨failingPorts (loaded [] [] 32 th 0), rfl, rfl, rfl⟩,
    ⟨loaded [] [] 32 th 0, _, rfl, rfl, rfl⟩⟩

/-- A wrong tag length, a wrong key length, a cipher that fails, and one that does not. -/
theorem witness_VerifyCmacOutcomes :
    (∃ s : State, s.stat.busy = false ∧ s.inp.ctlen ≠ 16) ∧
    (∃ s : State, s.stat.busy = false ∧ s.inp.ctlen = 16 ∧ s.inp.klen ≠ 16) ∧
    (∃ s : State, s.stat.busy = false ∧ s.inp.ctlen = 16 ∧ s.inp.klen = 16 ∧
      cmac s.cfg (cipherKey s) (msgBytes s) = none) ∧
    (∃ (s : State) (x : Block), s.stat.busy = false ∧ s.inp.ctlen = 16 ∧ s.inp.klen = 16 ∧
      cmac s.cfg (cipherKey s) (msgBytes s) = some x) :=
  ⟨⟨loaded kn [] 15 tn 0, rfl, by decide⟩,
    ⟨loaded (kn.take 15) [] 16 tn 0, rfl, rfl, by decide⟩,
    ⟨failingPorts (loaded kn [] 16 tn 0), rfl, rfl, rfl, rfl⟩,
    ⟨loaded kn [] 16 tn 0, _, rfl, rfl, rfl, rfl⟩⟩

/-- An idle state, which `CLEAR` leads on from. -/
theorem witness_ClearWipesTheEngine :
    ∃ s t : State, s.stat.busy = false ∧ exec .clear s = .next t :=
  ⟨loaded kn (mn 33) 16 tn 7, _, rfl, rfl⟩

/-- Every command goes on from an idle state. -/
theorem witness_CommandsLeaveInputs :
    ∀ i : Instr, ∃ s t : State, s.stat.busy = false ∧ exec i s = .next t :=
  fun i => ⟨State.reset, (exec_next i State.reset).imp fun _ h => ⟨rfl, h⟩⟩

/-- A cipher that fails, and one that does not. -/
theorem witness_SubkeysOfKey :
    (∃ (c : Config) (k : Block), encPort c k 0 = none) ∧
    (∃ (c : Config) (k l : Block), encPort c k 0 = some l) :=
  ⟨⟨{ Config.default with cipher := .failing }, 0, rfl⟩,
    ⟨Config.default, 0, _, rfl⟩⟩

/-- The lengths 0, 1, 16, 17; and a whole block before the last. -/
theorem witness_BlockCountCoversMessage :
    (blockCount 0 = 1 ∧ blockCount 1 = 1 ∧ blockCount 16 = 1 ∧ blockCount 17 = 2) ∧
    (1 < blockCount 33 - 1) :=
  ⟨by decide,
    by decide⟩

/-- 16 bytes for the complete case; 0, 15 and 17 bytes for the other. -/
theorem witness_FinalBlockSelection :
    (mn 16 ≠ [] ∧ (mn 16).length % 16 = 0) ∧
    ((mn 15).length % 16 ≠ 0 ∧ (mn 17).length % 16 ≠ 0) :=
  ⟨by decide,
    by decide⟩

/-- A cipher that answers; messages of 16, 15 and 0 bytes. -/
theorem witness_SingleBlockMessages :
    (∃ (c : Config) (k l : Block), encPort c k 0 = some l) ∧
    ((mn 16).length = 16 ∧ (mn 15).length < 16 ∧ mn 0 = []) :=
  ⟨⟨Config.default, 0, _, rfl⟩,
    by decide⟩

/-- The last of two blocks of a message of 32 bytes. -/
theorem witness_ChainingTakesBlocksInOrder :
    (1 < 2 ∧ 16 * 2 ≤ (mn 32).length ∧ 15 < 16) ∧
    (∃ (c : Config) (k l : Block), encPort c k 0 = some l) :=
  ⟨by decide,
    ⟨Config.default, 0, _, rfl⟩⟩

/-- Keys of 65 and of 64 bytes, a hash that fails and one that does not. -/
theorem witness_KeyNormalisation :
    ((List.replicate 65 (0 : Byte)).length > 64) ∧
    (∃ c : Config, hashPort c (List.replicate 65 0) = none) ∧
    (∃ (c : Config) (d : Digest), hashPort c (List.replicate 65 0) = some d) ∧
    ((List.replicate 64 (0 : Byte)).length ≤ 64) :=
  ⟨by decide,
    ⟨{ Config.default with hash := .failing }, rfl⟩,
    ⟨Config.default, _, rfl⟩,
    by decide⟩

/-- A key that is normalised, an inner hash that answers or fails, a key that cannot be normalised. -/
theorem witness_NestedHash :
    (∃ (c : Config) (k0 : HashBlock) (d : Digest), normalizeKey c [] = some k0 ∧
      hashPort c (bytesOf (xorBytes k0 0x36) ++ []) = some d) ∧
    (∃ (c : Config) (k0 : HashBlock), normalizeKey c [] = some k0 ∧
      hashPort c (bytesOf (xorBytes k0 0x36) ++ []) = none) ∧
    (∃ c : Config, normalizeKey c (List.replicate 65 0) = none) :=
  ⟨⟨Config.default, _, _, rfl, rfl⟩,
    ⟨{ Config.default with hash := .failing }, _, rfl, rfl⟩,
    ⟨{ Config.default with hash := .failing }, rfl⟩⟩

/-- Equal and different strings of one length. -/
theorem witness_ConstantTimeCompareIsEquality :
    (kn.length = kn.length ∧ ctEq kn kn = true) ∧
    (([1] : List Byte).length = ([3] : List Byte).length ∧ ctEq [1] [3] = false) :=
  ⟨by decide,
    by decide⟩

/-- An idle state in which `SIGN` succeeds; and a claimed tag of a wrong and of the right length. -/
theorem witness_VerifyAgreesWithSign :
    (∃ s t : State, s.stat.busy = false ∧ exec .signHmac s = .next t ∧ t.stat.err = .none) ∧
    ((loaded kn [] 15 tn 0).inp.ctlen.toNat ≠ algTagLen .cmacAes128) ∧
    ((loaded kn [] 16 tn 0).inp.ctlen.toNat = algTagLen .cmacAes128) :=
  ⟨⟨State.reset, _, rfl, rfl, rfl⟩,
    by decide,
    by decide⟩

/-- A `SIGN` of each algorithm that succeeds, and its tag as the claimed tag. -/
theorem witness_SignThenVerifySucceeds :
    (∃ (s t : State) (ctag : Digest), s.stat.busy = false ∧ exec .signHmac s = .next t ∧ t.stat.err = .none ∧
      ∀ i, i < t.out.tlen.toNat → byteAt ctag i = byteAt t.out.tag i) ∧
    (∃ (s t : State) (ctag : Digest), s.stat.busy = false ∧ exec .signCmac s = .next t ∧ t.stat.err = .none ∧
      ∀ i, i < t.out.tlen.toNat → byteAt ctag i = byteAt t.out.tag i) :=
  ⟨⟨State.reset, _, _, rfl, rfl, rfl, fun _ _ => rfl⟩,
    ⟨loaded kn [] 0 0 0, _, _, rfl, rfl, rfl, fun _ _ => rfl⟩⟩

/-- A busy and an idle state, and the first number past the registers. -/
theorem witness_HostReadsRegisters :
    (midway .fin 4 State.reset).stat.busy = true ∧ State.reset.stat.busy = false ∧ 7 ≤ 7 :=
  by decide

/-- An idle and a busy state, legal parameters, and the first number that is dropped. -/
theorem witness_HostWritesRegisters :
    (midway .fin 4 State.reset).stat.busy = true ∧ State.reset.stat.busy = false ∧
      State.reset.cfg.wellFormed = true ∧ 6 ≤ 6 :=
  by decide

/-- A busy and an idle state, and the last index of a space and the one past it. -/
theorem witness_HostReadsBytes :
    (midway .fin 4 State.reset).stat.busy = true ∧ State.reset.stat.busy = false ∧ 31 < 32 ∧ ¬ 32 < 32 :=
  by decide

/-- The last byte of `KEY` and of `V` and the index past each, and another byte of the same space. -/
theorem witness_HostWritesOneByte :
    (State.reset.inp.key.wf = true ∧ State.reset.inp.msg.wf = true ∧ State.reset.stat.busy = false) ∧
    (65534 < spaceSize State.reset.cfg 0 ∧ spaceSize State.reset.cfg 0 ≤ 65535 ∧
      15 < spaceSize State.reset.cfg 3 ∧ spaceSize State.reset.cfg 3 ≤ 16) ∧
    (14 < spaceSize State.reset.cfg 3 ∧ (14 ≠ 15 ∨ 3 ≠ 3)) :=
  ⟨by decide,
    by decide,
    by decide⟩

/-- A busy state. -/
theorem witness_BusyFreezesTheInputs :
    (midway .fin 4 State.reset).stat.busy = true :=
  rfl

/-- A read that is next and goes on, spaces in canonical form, and a number that is not `CMD`. -/
theorem witness_AccessesAreRepeatable :
    (∃ s t : State, s.script = [.hostRd 1] ∧ step s = .next t) ∧
    (∃ s t : State, s.script = [.hostRdB 6 31] ∧ step s = .next t) ∧
    (State.reset.inp.key.wf = true ∧ State.reset.inp.msg.wf = true ∧ 1 ≠ 0) :=
  ⟨⟨{ State.reset with script := [.hostRd 1] }, _, rfl, rfl⟩,
    ⟨{ State.reset with script := [.hostRdB 6 31] }, _, rfl, rfl⟩,
    by decide⟩

/-- An idle state with the interrupt enabled, and a word with bit 1 set. -/
theorem witness_AcknowledgeLowersIrq :
    (∃ s : State, s.stat.busy = false ∧ s.ie = true ∧ irq s = true) ∧
    ((0x00000002 : Word).getLsbD 1 = true) :=
  ⟨⟨{ afterS1 with ie := true }, rfl, rfl, rfl⟩,
    rfl⟩

/-- Spaces in canonical form, and another address. -/
theorem witness_CanonicalByteSpaces :
    (Memory.wf [(2, 7), (5, 1)] = true ∧ 2 ≠ 5) ∧
    (∃ m k : Memory, m.wf = true ∧ k.wf = true ∧ ∀ a, m.read a = k.read a) :=
  ⟨by decide,
    ⟨[(2, 7)], Memory.write [] 2 7, rfl, rfl, fun _ => rfl⟩⟩

/-- A busy state for each clause. -/
theorem witness_SubkeySteps :
    ((midway .dDbl 4 State.reset).stat.busy = true ∧ (midway .dDbl 4 State.reset).ph = .dDbl) ∧
    (∃ s : State, s.stat.busy = true ∧ s.ph = .sChk ∧ s.inp.klen ≠ 16) ∧
    (∃ s : State, s.stat.busy = true ∧ s.ph = .sChk ∧ s.inp.klen = 16) ∧
    (∃ s : State, s.stat.busy = true ∧ s.ph = .sL ∧ encPort s.cfg (cipherKey s) 0 = none) ∧
    (∃ (s : State) (r : Block), s.stat.busy = true ∧ s.ph = .sL ∧ encPort s.cfg (cipherKey s) 0 = some r) ∧
    (∃ s : State, s.stat.busy = true ∧ s.ph = .sK1) ∧
    (∀ w ∈ ([0x00000013, 0x00000011, 0x00000012] : List Word), ∃ s : State, s.stat.busy = true ∧ s.ph = .sK2 ∧
      s.ir = w) :=
  ⟨by decide,
    ⟨midway .sChk 0x13 State.reset, rfl, rfl, by decide⟩,
    ⟨midway .sChk 0x13 (loaded kn (mn 33) 16 tn 7), rfl, rfl, rfl⟩,
    ⟨midway .sL 0x13 (failingPorts (loaded kn (mn 33) 16 tn 7)), rfl, rfl, rfl⟩,
    ⟨midway .sL 0x13 (loaded kn (mn 33) 16 tn 7), _, rfl, rfl, rfl⟩,
    ⟨midway .sK1 0x13 State.reset, rfl, rfl⟩,
    fun w _ => ⟨midway .sK2 w State.reset, rfl, rfl, rfl⟩⟩

/-- A busy state of the invariant for each clause, the loop at its last block. -/
theorem witness_CmacSteps :
    (∃ s : State, s.stat.busy = true ∧ Inv s ∧ s.ph = .cInit) ∧
    (∃ s : State, s.stat.busy = true ∧ Inv s ∧ s.ph = .cSel ∧ s.inp.mlen.toNat ≠ 0 ∧ s.inp.mlen.toNat % 16 = 0) ∧
    (∃ s : State, s.stat.busy = true ∧ Inv s ∧ s.ph = .cSel ∧ s.inp.mlen.toNat = 0) ∧
    (∃ s : State, s.stat.busy = true ∧ Inv s ∧ s.ph = .cSel ∧ s.inp.mlen.toNat % 16 ≠ 0) ∧
    (∃ s : State, s.stat.busy = true ∧ Inv s ∧ s.ph = .cXor) ∧
    (∃ s : State, s.stat.busy = true ∧ Inv s ∧ s.ph = .cEnc ∧ encPort s.cfg (cipherKey s) s.work.y = none) ∧
    (∃ (s : State) (r : Block), s.stat.busy = true ∧ Inv s ∧ s.ph = .cEnc ∧
      encPort s.cfg (cipherKey s) s.work.y = some r) ∧
    (∃ s : State, s.stat.busy = true ∧ Inv s ∧ s.ph = .cFXor) ∧
    (∃ s : State, s.stat.busy = true ∧ Inv s ∧ s.ph = .cFEnc ∧ encPort s.cfg (cipherKey s) s.work.y = none) ∧
    (∃ (s : State) (r : Block), s.stat.busy = true ∧ Inv s ∧ s.ph = .cFEnc ∧
      encPort s.cfg (cipherKey s) s.work.y = some r) :=
  ⟨⟨midway .cInit 0x11 (loaded kn (mn 33) 16 tn 7), rfl, inv_of_invCheck _ (by decide +kernel), rfl⟩,
    ⟨looping .cSel 0x11 2 0 (loaded kn (mn 32) 16 tn 7), rfl, inv_of_invCheck _ (by decide +kernel), rfl,
      by decide, by decide⟩,
    ⟨looping .cSel 0x11 1 0 (loaded kn [] 16 tn 7), rfl, inv_of_invCheck _ (by decide +kernel), rfl, rfl⟩,
    ⟨looping .cSel 0x12 3 0 (loaded kn (mn 33) 16 tn 7), rfl, inv_of_invCheck _ (by decide +kernel), rfl, by decide⟩,
    ⟨looping .cXor 0x11 3 1 (loaded kn (mn 33) 16 tn 7), rfl, inv_of_invCheck _ (by decide +kernel), rfl⟩,
    ⟨looping .cEnc 0x11 3 1 (failingPorts (loaded kn (mn 33) 16 tn 7)), rfl,
      inv_of_invCheck _ (by decide +kernel), rfl, rfl⟩,
    ⟨looping .cEnc 0x11 3 1 (loaded kn (mn 33) 16 tn 7), _, rfl, inv_of_invCheck _ (by decide +kernel), rfl, rfl⟩,
    ⟨looping .cFXor 0x11 3 2 (loaded kn (mn 33) 16 tn 7), rfl, inv_of_invCheck _ (by decide +kernel), rfl⟩,
    ⟨looping .cFEnc 0x11 3 2 (failingPorts (loaded kn (mn 33) 16 tn 7)), rfl,
      inv_of_invCheck _ (by decide +kernel), rfl, rfl⟩,
    ⟨looping .cFEnc 0x12 3 2 (loaded kn (mn 33) 16 tn 7), _, rfl, inv_of_invCheck _ (by decide +kernel), rfl, rfl⟩⟩

/-- A busy state for each clause, keys of 65 and of 64 bytes. -/
theorem witness_HmacSteps :
    (∃ s : State, s.stat.busy = true ∧ s.ph = .hNorm ∧ 64 < s.inp.klen.toNat ∧
      hashPort s.cfg (memRead s.inp.key.read 0 s.inp.klen.toNat) = none) ∧
    (∃ (s : State) (d : Digest), s.stat.busy = true ∧ s.ph = .hNorm ∧ 64 < s.inp.klen.toNat ∧
      hashPort s.cfg (memRead s.inp.key.read 0 s.inp.klen.toNat) = some d) ∧
    (∃ s : State, s.stat.busy = true ∧ s.ph = .hNorm ∧ s.inp.klen.toNat ≤ 64) ∧
    (∃ s : State, s.stat.busy = true ∧ s.ph = .hPads) ∧
    (∃ s : State, s.stat.busy = true ∧ s.ph = .hInner ∧ hashPort s.cfg (bytesOf s.work.ipad ++ msgBytes s) = none) ∧
    (∃ (s : State) (d : Digest), s.stat.busy = true ∧ s.ph = .hInner ∧
      hashPort s.cfg (bytesOf s.work.ipad ++ msgBytes s) = some d) ∧
    (∃ s : State, s.stat.busy = true ∧ s.ph = .hOuter ∧
      hashPort s.cfg (bytesOf s.work.opad ++ bytesOf s.work.idig) = none) ∧
    (∀ w ∈ ([0x00000001, 0x00000002] : List Word), ∃ (s : State) (d : Digest), s.stat.busy = true ∧
      s.ph = .hOuter ∧ hashPort s.cfg (bytesOf s.work.opad ++ bytesOf s.work.idig) = some d ∧ s.ir = w) :=
  ⟨⟨midway .hNorm 1 (failingPorts (loaded (List.replicate 65 1) [] 0 0 0)), rfl, rfl, by decide, rfl⟩,
    ⟨midway .hNorm 1 (loaded (List.replicate 65 1) [] 0 0 0), _, rfl, rfl, by decide, rfl⟩,
    ⟨midway .hNorm 1 (loaded (List.replicate 64 1) [] 0 0 0), rfl, rfl, by decide⟩,
    ⟨midway .hPads 1 State.reset, rfl, rfl⟩,
    ⟨midway .hInner 1 (failingPorts State.reset), rfl, rfl, rfl⟩,
    ⟨midway .hInner 1 State.reset, _, rfl, rfl, rfl⟩,
    ⟨midway .hOuter 1 (failingPorts State.reset), rfl, rfl, rfl⟩,
    fun w _ => ⟨midway .hOuter w State.reset, _, rfl, rfl, rfl, rfl⟩⟩

/-- A busy state for each clause. -/
theorem witness_ComparatorSteps :
    (∃ s : State, s.stat.busy = true ∧ s.ph = .vLen ∧ s.ir = 0x00000002 ∧ s.inp.ctlen = 32) ∧
    (∃ s : State, s.stat.busy = true ∧ s.ph = .vLen ∧ s.ir = 0x00000012 ∧ s.inp.ctlen = 16) ∧
    (∃ s : State, s.stat.busy = true ∧ s.ph = .vLen ∧ s.ir = 0x00000002 ∧ s.inp.ctlen ≠ 32) ∧
    (∃ s : State, s.stat.busy = true ∧ s.ph = .vLen ∧ s.ir = 0x00000012 ∧ s.inp.ctlen ≠ 16) ∧
    (∀ w ∈ ([0x00000002, 0x00000012] : List Word), ∃ s : State, s.stat.busy = true ∧ s.ph = .oCmp ∧ s.ir = w) :=
  ⟨⟨midway .vLen 2 (loaded kh mh 32 th 0), rfl, rfl, rfl, rfl⟩,
    ⟨midway .vLen 0x12 (loaded kn (mn 33) 16 tn 7), rfl, rfl, rfl, rfl⟩,
    ⟨midway .vLen 2 (loaded kh mh 31 th 0), rfl, rfl, rfl, by decide⟩,
    ⟨midway .vLen 0x12 (loaded kn [] 17 tn 0), rfl, rfl, rfl, by decide⟩,
    fun w _ => ⟨midway .oCmp w State.reset, rfl, rfl, rfl⟩⟩

/-- A busy state for each clause. -/
theorem witness_ReleaseCompletionAndWipe :
    (∀ w ∈ ([0x00000001, 0x00000011] : List Word), ∃ s : State, s.stat.busy = true ∧ s.ph = .oTag ∧ s.ir = w) ∧
    (∃ s : State, s.stat.busy = true ∧ s.ph = .fin ∧ s.ir = 0x00000013) ∧
    (∃ s : State, s.stat.busy = true ∧ s.ph = .fin ∧ s.ir ≠ 0x00000013) ∧
    (∃ s : State, s.stat.busy = true ∧ s.ph = .zClr) :=
  ⟨fun w _ => ⟨midway .oTag w State.reset, rfl, rfl, rfl⟩,
    ⟨midway .fin 0x13 State.reset, rfl, rfl, rfl⟩,
    ⟨midway .fin 0x11 State.reset, rfl, rfl, by decide⟩,
    ⟨midway .zClr 0xF State.reset, rfl, rfl⟩⟩

/-- A step that aborts, for each kind. -/
theorem witness_AbortsArePrecise :
    (∃ s t : State, s.stat.busy = true ∧ engineTurn s = .next t ∧ t.stat.busy = false ∧
      t.stat.err = .keyLengthInvalid) ∧
    (∃ s t : State, s.stat.busy = true ∧ engineTurn s = .next t ∧ t.stat.busy = false ∧
      t.stat.err = .primitiveFailure) ∧
    (∃ s t : State, s.stat.busy = true ∧ s.ph = .hNorm ∧ engineTurn s = .next t ∧ t.stat.busy = false) :=
  ⟨⟨midway .sChk 0x11 State.reset, _, rfl, rfl, rfl, rfl⟩,
    ⟨midway .sL 0x11 (failingPorts State.reset), _, rfl, rfl, rfl, rfl⟩,
    ⟨midway .hNorm 1 (failingPorts (loaded (List.replicate 65 1) [] 0 0 0)), _, rfl, rfl, rfl, rfl⟩⟩

/-- A step that goes on, and one of `Z_CLR`. -/
theorem witness_EngineStepFrame :
    (∃ s t : State, engineTurn s = .next t ∧ s.ph ≠ .zClr ∧ s.ph ≠ .dDbl) ∧
    (∃ s t : State, engineTurn s = .next t ∧ s.ph = .zClr) :=
  ⟨⟨midway .hPads 1 State.reset, _, rfl, by decide, by decide⟩,
    ⟨midway .zClr 0xF (loaded kn (mn 33) 16 tn 7), _, rfl, rfl⟩⟩

/-- An idle state of the invariant, with inputs loaded. -/
theorem witness_SequencerRefinesCommands :
    Inv (loaded kn (mn 33) 16 tn 7) ∧ (loaded kn (mn 33) 16 tn 7).stat.busy = false :=
  ⟨inv_of_invCheck _ (by decide +kernel), rfl⟩

/-- An idle state of the invariant with a CMAC key, whose primitives do not fail. -/
theorem witness_CommandsTakeTheStepsOfTheTable :
    (Inv (loaded kn (mn 33) 16 tn 7) ∧ (loaded kn (mn 33) 16 tn 7).stat.busy = false) ∧
    (NeverFails (loaded kn (mn 33) 16 tn 7).cfg) ∧
    ((loaded kn (mn 33) 16 tn 7).inp.klen = 16) ∧
    ((phaseSequence .signCmac (loaded kn (mn 33) 16 tn 7))[13]? = some .fin) :=
  ⟨⟨inv_of_invCheck _ (by decide +kernel), rfl⟩,
    ⟨fun _ _ => by simp [encPort, loaded, State.reset, Config.default], fun _ => by simp [hashPort, loaded,
      State.reset, Config.default]⟩,
    rfl,
    by decide⟩

/-- An idle state of the invariant with a CMAC key, whose primitives do not fail. -/
theorem witness_PrimitiveInvocations :
    (Inv (loaded kn (mn 33) 16 tn 7) ∧ (loaded kn (mn 33) 16 tn 7).stat.busy = false) ∧
    (NeverFails (loaded kn (mn 33) 16 tn 7).cfg) ∧
    ((loaded kn (mn 33) 16 tn 7).inp.klen = 16) :=
  ⟨⟨inv_of_invCheck _ (by decide +kernel), rfl⟩,
    ⟨fun _ _ => by simp [encPort, loaded, State.reset, Config.default], fun _ => by simp [hashPort, loaded,
      State.reset, Config.default]⟩,
    rfl⟩

/-- States of the invariant that go on: idle, in the middle of a command, and with a command next. -/
theorem witness_StepKeepsInvariant :
    (∃ s t : State, Inv s ∧ step s = .next t) ∧
    (∃ s t : State, Inv s ∧ s.stat.busy = true ∧ step s = .next t) ∧
    (∃ s t : State, Inv s ∧ s.script = [.command 0x00000001] ∧ step s = .next t) :=
  ⟨⟨State.reset, _, inv_of_invCheck _ (by decide +kernel), rfl⟩,
    ⟨midway .cInit 0x11 (loaded kn (mn 33) 16 tn 7), _, inv_of_invCheck _ (by decide +kernel), rfl, rfl⟩,
    ⟨{ loaded kn (mn 33) 16 tn 7 with script := [.command 1] }, _, inv_of_invCheck _ (by decide +kernel), rfl, rfl⟩⟩

/-- The least parameters of R8. -/
theorem witness_ResetMeetsInvariant :
    Config.wellFormed { Config.default with lenw := 6, klenw := 7 } = true :=
  by decide

/-- A state of the invariant in the middle of a command. -/
theorem witness_MachineAlwaysContinues :
    Inv (midway .cInit 0x11 (loaded kn (mn 33) 16 tn 7)) :=
  inv_of_invCheck _ (by decide +kernel)

/-- A command in progress, at its first step. -/
theorem witness_CommandsInProgressEnd :
    Inv (midway .vLen 0x12 (loaded kn (mn 33) 16 tn 7)) ∧
      (midway .vLen 0x12 (loaded kn (mn 33) 16 tn 7)).stat.busy = true :=
  ⟨inv_of_invCheck _ (by decide +kernel), rfl⟩

/-- Two states that differ in a key byte past the length, in the last command's results, and in `CTRL`. -/
theorem witness_ResultsDependOnOperandsOnly :
    ∃ s t s' t' : State, s.stat.busy = false ∧ t.stat.busy = false ∧ s ≠ t ∧ SameOperands s t ∧
      exec .dbl s = .next s' ∧ exec .dbl t = .next t' :=
  ⟨State.reset, { afterS1 with inp := { Inputs.zero with key := [(0, 7)] }, ie := true }, _, _, rfl, rfl,
      by decide +kernel,
      ⟨rfl, rfl, rfl, rfl, rfl, rfl, fun i h => absurd h (Nat.not_lt_zero i),
      fun i h => absurd h (Nat.not_lt_zero i)⟩, rfl, rfl⟩

/-- Two idle states with the same lengths and different bytes. -/
theorem witness_VerifyStepsDependOnLengthsOnly :
    ∃ s t : State, s.stat.busy = false ∧ t.stat.busy = false ∧ s.cfg = t.cfg ∧ NeverFails s.cfg ∧
      s.inp.klen = t.inp.klen ∧ s.inp.mlen = t.inp.mlen ∧ s.inp.ctlen = t.inp.ctlen ∧ s ≠ t :=
  ⟨loaded kh mh 32 th 0, loaded (List.replicate 20 1) mh 32 0 0, rfl, rfl, rfl, ⟨fun _ _ => by simp [encPort,
      loaded, State.reset, Config.default], fun _ => by simp [hashPort, loaded, State.reset, Config.default]⟩,
      rfl, rfl, rfl, by decide +kernel⟩

/-- A call with the longest key of a small instance; and calls that are refused: too long a key, too long a message. -/
theorem witness_SignProgramReturnsTheTag :
    (∃ s u : State, Inv s ∧ s.cfg.kmax = 127 ∧ signCall .hmacSha256 (List.replicate 127 1) (mn 63) s = some u) ∧
    (signCall .hmacSha256 (List.replicate 128 1) [] small = none) ∧
    (signCall .hmacSha256 [] (mn 64) small = none) ∧
    (signCall .hmacSha256 [] [] (midway .fin 4 State.reset) = none) :=
  ⟨⟨small, _, inv_of_invCheck _ (by decide +kernel), by decide, if_pos (by decide +kernel)⟩,
    by decide +kernel,
    by decide +kernel,
    by decide +kernel⟩

/-- A call with a claimed tag longer than 255 bytes; and a running command, for which the call is refused. -/
theorem witness_VerifyProgramDecidesTheTag :
    (∃ s u : State, Inv s ∧ verifyCall .cmacAes128 kn (mn 33) (List.replicate 272 0) s = some u) ∧
    (verifyCall .cmacAes128 kn [] [] (midway .fin 4 State.reset) = none) :=
  ⟨⟨State.reset, _, inv_of_invCheck _ (by decide +kernel), rfl⟩,
    by decide +kernel⟩

/-- Two instances, the second of which goes on; and no instance, which is no platform. -/
theorem witness_InstancesShareNothing :
    (∃ (p : Platform) (s t : State), Platform.reset { PlatformConfig.default with ninst := 2 } = some p ∧
      p.engines[1]? = some s ∧ step s = .next t ∧ ∃ q, p.stepAt 1 = .next q) ∧
    (Platform.reset { PlatformConfig.default with ninst := 0 } = none) :=
  ⟨⟨_, State.reset, _, rfl, rfl, rfl, _, rfl⟩,
    by decide⟩

end Sys2Proof.Tests
end

section
/-! PROOFS. The statements of spec/00_scope.md: the reset state meets the invariant (R8, R45, R46), and the instances
of a platform share nothing (R8, R262). -/

namespace Sys2Proof.Machine

/-! ## Reset and the invariant -/

theorem wellFormed_default : Config.default.wellFormed = true := by decide

/-- The reset state is a fixed point of reset (R45, R270). -/
theorem resetEngine_reset : resetEngine State.reset = State.reset := rfl

/-- Reset meets the invariant in any state, for any parameters that R8 allows. The engine is idle with every register
zero, so what `Inv` says of a command in progress, of a phase or of a result has no case; what is left are the bounds of
the lengths and counters, which hold of zero, and the bytes of `TAG`. -/
theorem inv_resetEngine (s : State) (hc : s.cfg.wellFormed = true) : Inv (resetEngine s) where
  config := hc
  lengthsFit := by simp [Inputs.zero]
  keyForm := ⟨rfl, rfl⟩
  msgForm := ⟨rfl, rfl⟩
  countersFit := by simp [Work.zero]
  busyPhase := by simp [Status.zero]
  idleWork _ := rfl
  busyNotDone := by simp [Status.zero]
  tlenValues := .inl rfl
  tagRest i _ _ := byteAt_zero i
  tagOwner h := absurd rfl h
  vokOwner h := nomatch h
  subkeysOwner _ h := h.elim (absurd rfl) (absurd rfl)
  sequence h := nomatch h
  errWhileBusy h := nomatch h
  keyChecked h := by simp [cipherPhases] at h
  loopCount h := by simp [loopPhases] at h
  loopInside h := by simp at h
  tagTail h := nomatch h

/-- Settles O52: reset meets the invariant from every state, and the reset state is what reset makes of itself. -/
theorem resetMeetsInvariant : Obligations.ResetMeetsInvariant :=
  ⟨resetEngine_reset ▸ inv_resetEngine State.reset wellFormed_default, inv_resetEngine⟩

/-! ## A platform -/

theorem platformConfig_wellFormed_iff (c : PlatformConfig) :
    c.wellFormed = true ↔ 1 ≤ c.ninst ∧ c.engine.wellFormed = true := by
  simp [PlatformConfig.wellFormed]

/-- R8: no platform is made of zero engines, nor of parameters that are not legal. -/
theorem platformReset_eq_none_iff (c : PlatformConfig) :
    Platform.reset c = none ↔ c.ninst = 0 ∨ c.engine.wellFormed = false := by
  have hnone : Platform.reset c = none ↔ ¬ c.wellFormed = true := by simp [Platform.reset]
  rw [hnone, platformConfig_wellFormed_iff, Classical.not_and_iff_not_or_not, Nat.not_le, Nat.lt_one_iff,
    Bool.not_eq_true]

/-- The step of an engine that the platform has and that goes on. -/
theorem stepAt_of_step {k : Nat} {p : Platform} {s t : State} (hs : p.engines[k]? = some s) (ht : step s = .next t) :
    p.stepAt k = .next (p.put k t) := by
  simp [Platform.stepAt, hs, ht]

/-- Everything a step of engine `k` can do when the platform goes on: nothing, where there is no such engine, or
the step of that engine alone, put into its place (R262). -/
theorem stepAt_next {k : Nat} {p q : Platform} (h : p.stepAt k = .next q) :
    (p.engines[k]? = none ∧ q = p) ∨
      ∃ s t, p.engines[k]? = some s ∧ step s = .next t ∧ q = p.put k t := by
  unfold Platform.stepAt at h
  split at h
  case h_1 hk =>
    injection h with h
    exact .inl ⟨hk, h.symm⟩
  case h_2 s hk =>
    split at h
    case h_1 t ht =>
      injection h with h
      exact .inr ⟨s, t, hk, ht, h.symm⟩
    case h_2 => cases h
    case h_3 => cases h

theorem engines_put_same {k : Nat} {p : Platform} {s : State} (hs : p.engines[k]? = some s) (t : State) :
    (p.put k t).engines[k]? = some t := by
  obtain ⟨hk, -⟩ := List.getElem?_eq_some_iff.mp hs
  rw [engines_put, List.getElem?_set_self hk]

theorem engines_put_other {j k : Nat} (hj : j ≠ k) (p : Platform) (t : State) :
    (p.put k t).engines[j]? = p.engines[j]? := by
  rw [engines_put, List.getElem?_set_ne hj.symm]

/-- The frame of a step: the number of instances and every other engine (R262). -/
theorem stepAt_frame {k : Nat} {p q : Platform} (h : p.stepAt k = .next q) :
    q.ninst = p.ninst ∧ ∀ j, j ≠ k → q.engines[j]? = p.engines[j]? := by
  obtain ⟨-, rfl⟩ | ⟨s, t, -, -, rfl⟩ := stepAt_next h
  · exact ⟨rfl, fun _ _ => rfl⟩
  · exact ⟨ninst_put p k t, fun _ hj => engines_put_other hj p t⟩

/-- Settles O60, from the laws of `Platform.reset` and the frame of `Platform.stepAt`. -/
theorem instancesShareNothing : Obligations.InstancesShareNothing := by
  refine ⟨fun c => ⟨platformReset_eq_none_iff c, engines_reset c⟩, fun k p => ⟨ninst_pos p, ?_, fun _ => stepAt_frame⟩⟩
  intro s t hs ht
  exact ⟨p.put k t, stepAt_of_step hs ht, engines_put_same hs t⟩

end Sys2Proof.Machine
end

section
/-! PROOFS. The statements of spec/10_state.md: the canonical form of the byte spaces (R29), what is hidden from the
host and what lowers `irq` (R42, R43), reset (R45), the invariant and its preservation by every step (R46), the frame of
the engine's steps (R24, R31, R39), and that a command's result depends on its operands alone (R47). -/

namespace Sys2Proof.Machine

/-! ## Byte spaces -/

theorem Memory.wfFrom_cons {lo x : Nat} {v : Byte} {m : Memory} :
    Memory.wfFrom lo ((x, v) :: m) = true ↔ lo ≤ x ∧ v ≠ 0 ∧ Memory.wfFrom (x + 1) m = true := by
  simp [Memory.wfFrom, and_assoc]

@[simp] theorem Memory.read_nil (a : Nat) : Memory.read [] a = 0 := rfl

@[simp] theorem Memory.read_cons_self (x : Nat) (v : Byte) (m : Memory) : Memory.read ((x, v) :: m) x = v := by
  simp [Memory.read]

theorem Memory.read_cons_of_ne {x a : Nat} (h : a ≠ x) (v : Byte) (m : Memory) :
    Memory.read ((x, v) :: m) a = m.read a := by
  simp [Memory.read, h.symm]

/-- A byte that is not zero stands at or past the first address. -/
theorem Memory.le_of_read_ne_zero {m : Memory} {lo a : Nat} (hm : m.wfFrom lo = true) (h : m.read a ≠ 0) : lo ≤ a := by
  by_contra hlt
  exact h (Memory.read_below m lo a hm (Nat.lt_of_not_le hlt))

/-- Extensionality: the first address of either space holds a byte that is not zero, so neither starts before the
other; their first bytes are then equal, and so are the rests, which hold nothing at that address. -/
theorem Memory.eq_of_read_eq {m k : Memory} {lo lo' : Nat} (hm : m.wfFrom lo = true) (hk : k.wfFrom lo' = true)
    (h : ∀ a, m.read a = k.read a) : m = k := by
  induction m generalizing lo lo' k with
  | nil =>
    cases k with
    | nil => rfl
    | cons d k' =>
      obtain ⟨y, w⟩ := d
      obtain ⟨-, hw, -⟩ := wfFrom_cons.mp hk
      exact absurd (by simpa using (h y).symm) hw
  | cons c m' ih =>
    obtain ⟨x, v⟩ := c
    obtain ⟨-, hv, hm'⟩ := wfFrom_cons.mp hm
    cases k with
    | nil => exact absurd (by simpa using h x) hv
    | cons d k' =>
      obtain ⟨y, w⟩ := d
      obtain ⟨-, hw, hk'⟩ := wfFrom_cons.mp hk
      have hyx : y ≤ x := le_of_read_ne_zero (wfFrom_cons.mpr ⟨le_rfl, hw, hk'⟩) (by rw [← h x]; simpa using hv)
      have hxy : x ≤ y := le_of_read_ne_zero (wfFrom_cons.mpr ⟨le_rfl, hv, hm'⟩) (by rw [h y]; simpa using hw)
      obtain rfl := Nat.le_antisymm hxy hyx
      have hvw : v = w := by simpa using h x
      have htail : m' = k' := by
        refine ih hm' hk' fun a => ?_
        by_cases ha : a = x
        · rw [ha, read_below m' _ x hm' (Nat.lt_succ_self x), read_below k' _ x hk' (Nat.lt_succ_self x)]
        · rw [← read_cons_of_ne ha v m', h a, read_cons_of_ne ha]
      rw [hvw, htail]

/-- Settles O40, from the laws of a write and extensionality. -/
theorem canonicalByteSpaces : Obligations.CanonicalByteSpaces :=
  ⟨fun m a b hm => ⟨Memory.wf_write m a b hm, Memory.read_write_same m a b hm,
    fun k hk => Memory.read_write_ne m a k b hm hk⟩, fun _ _ hm hk h => Memory.eq_of_read_eq hm hk h⟩

/-! ## Reset, and what the host sees -/

/-- Settles O55: `resetEngine` takes the fields of `State.reset`, whose constants are zero, but for the model's own. -/
theorem resetZeroesTheEngine : Obligations.ResetZeroesTheEngine := fun _ => ⟨rfl, rfl⟩

/-- `irq` is a level, and low as long as `DONE` is. -/
theorem irq_of_not_done {s : State} (h : s.stat.done = false) : irq s = false := by simp [irq, h]

theorem hostWr_cmd_idle {s : State} (hb : s.stat.busy = false) (w : Word) : hostWr 0 w s = issue w s := by
  simp [hostWr, hb]

theorem hostWr_cmd_busy {s : State} (hb : s.stat.busy = true) (w : Word) : hostWr 0 w s = s := by
  simp [hostWr, hb]

theorem hostWr_status_idle {s : State} {w : Word} (hb : s.stat.busy = false) (hw : w.getLsbD 1 = true) :
    hostWr 1 w s = acknowledge s := by
  simp [hostWr, hb, hw]

/-- R181, R182: of the issues only that of an illegal word sets `DONE`. -/
theorem done_issue_iff (w : Word) (s : State) : (issue w s).stat.done = true ↔ ∃ e, decode w = .error e := by
  unfold issue
  split
  case h_1 i h => simp [h]
  case h_2 e h => simp [h]

/-- Settles O38, clause by clause: `irq` is the conjunction by definition, an acknowledge clears `DONE`, a write of zero
clears `IE`, and an issue sets `DONE` only for an illegal word. -/
theorem acknowledgeLowersIrq : Obligations.AcknowledgeLowersIrq := by
  refine ⟨fun _ => rfl, fun s w hb hw => ?_, fun s => ?_, fun s w hb hie => ?_⟩
  · rw [hostWr_status_idle hb hw]
    exact ⟨rfl, irq_of_not_done rfl⟩
  · simp [hostWr, irq]
  · have hie' : (issue w s).ie = true := by
      unfold issue
      split <;> simpa using hie
    rw [hostWr_cmd_idle hb, ← done_issue_iff w s]
    simp [irq, hie']

/-- No space but `KEY` holds a byte of the hidden state (R29, R43). -/
theorem spaceByte_hidden {sp : Nat} (hsp : sp ≠ 0) (s : State) (key : Memory) (work : Work) (ir : Word) (ph : Phase)
    (i : Nat) :
    spaceByte { s with inp := { s.inp with key := key }, work := work, ir := ir, ph := ph } sp i =
      spaceByte s sp i := by
  match sp, hsp with
  | 1, _ => rfl
  | 2, _ => rfl
  | 3, _ => rfl
  | 4, _ => rfl
  | 5, _ => rfl
  | 6, _ => rfl
  | _ + 7, _ => rfl

/-- Settles O39: no register and no byte space but `KEY` is read from what is hidden, and `KEY` reads as zero (R70). -/
theorem hiddenStateIsNotReadable : Obligations.HiddenStateIsNotReadable := by
  refine fun s key work ir ph => ⟨fun _ => rfl, fun sp i => ?_, rfl⟩
  by_cases hsp : sp = 0
  · simp [hostRdB, hsp]
  · simp only [hostRdB, spaceByte_hidden hsp]

/-! ## A command while another runs -/

theorem exec_busy {s : State} (hb : s.stat.busy = true) (i : Instr) : exec i s = .next s := by
  cases i <;>
    simp only [exec, execSignHmac, execSignCmac, execVerifyHmac, execVerifyCmac, execDeriveCmac, execDbl, execClear,
      runCommand_busy _ s _ hb]

theorem performCommand_busy {s : State} (hb : s.stat.busy = true) (w : Word) : performCommand w s = .next s := by
  unfold performCommand
  split
  · exact exec_busy hb _
  · rw [hostWr_cmd_busy hb]

/-- A step performs the event that the script holds next, in the state with the event taken off. -/
theorem step_of_script {s : State} {e : Event} {rest : List Event} (hs : s.script = e :: rest) :
    step s = perform e { s with script := rest } := by
  simp only [step, hs]

/-- Settles O9: `exec` and a write to `CMD` are both dropped while `BUSY = 1`, and both kinds of event come to these. -/
theorem commandWhileBusyIsDropped : Obligations.CommandWhileBusyIsDropped := by
  refine fun s hb => ⟨exec_busy hb, fun w rest hs => ?_, fun w rest hs => ?_⟩
  · rw [step_of_script hs]
    exact congrArg _ (hostWr_cmd_busy (s := { s with script := rest }) hb w)
  · rw [step_of_script hs]
    exact performCommand_busy (s := { s with script := rest }) hb w

/-! ## What a legal word says -/

theorem FormatC.toWord_ofWord (w : Word) : (FormatC.ofWord w).toWord = w := by
  apply BitVec.eq_of_getLsbD_eq
  intro j hj
  simp only [FormatC.toWord, FormatC.ofWord, BitVec.getLsbD_append, BitVec.getLsbD_extractLsb']
  by_cases h4 : j < 4
  · simp [h4, show j < 4 + 4 by omega]
  · by_cases h8 : j < 4 + 4
    · simp [h4, h8, show j - 4 < 4 by omega, show 4 + (j - 4) = j by omega]
    · simp [h8, show j - 8 < 24 by omega, show 8 + (j - 8) = j by omega]

theorem code_of_decodeOp {op : BitVec 4} {o : Op} (h : decodeOp op = some o) : o.code = op := by
  unfold decodeOp at h
  repeat' split at h
  all_goals cases h
  all_goals simp_all [Op.code]

theorem code_of_decodeAlg {alg : BitVec 4} {a : Alg} (h : decodeAlg alg = some a) : a.code = alg := by
  unfold decodeAlg at h
  repeat' split at h
  all_goals cases h
  all_goals simp_all [Alg.code]

/-- A command has the operation and the `ALG` field it was decoded from (R82, R83). -/
theorem fields_of_decodeCommand {op : Op} {alg : BitVec 4} {i : Instr} (h : decodeCommand op alg = .ok i) :
    i.op = op ∧ i.format.alg = alg := by
  unfold decodeCommand at h
  split at h
  all_goals cases h
  all_goals
    have halg := code_of_decodeAlg ‹decodeAlg alg = some _›
    exact ⟨rfl, halg⟩

theorem format_of_decodeFormat {f : FormatC} {i : Instr} (h : decodeFormat f = .ok i) : i.format = f := by
  unfold decodeFormat at h
  split at h
  case isTrue => cases h
  case isFalse hz =>
    split at h
    case h_1 => cases h
    case h_2 o ho =>
      obtain ⟨hop, halg⟩ := fields_of_decodeCommand h
      have hcode : i.format.op = f.op := (congrArg Op.code hop).trans (code_of_decodeOp ho)
      change FormatC.mk 0 i.format.alg i.format.op = FormatC.mk f.zero f.alg f.op
      rw [halg, hcode, not_not.mp hz]

/-- R84: the word of a command that decodes is the command's own word. -/
theorem eq_encode_of_decode {w : Word} {i : Instr} (h : decode w = .ok i) : w = encode i := by
  rw [encode, format_of_decodeFormat h, FormatC.toWord_ofWord]

theorem ir_of_irCommand {s : State} {i : Instr} (h : irCommand s = some i) : s.ir = encode i := by
  unfold irCommand decode? at h
  cases hd : decode s.ir with
  | error e => rw [hd] at h; cases h
  | ok j =>
    rw [hd] at h
    cases h
    exact eq_encode_of_decode hd

/-! ## The parts of the invariant

The invariant is proved of three kinds of state, each from what the states of its kind have in common: no command runs
(`inv_of_idle`); a command is at a step before `FIN` (`AtPhase`); a command is at `FIN` (`Finishing`). -/

/-- What the invariant says of the parameters and the inputs. -/
structure InputsFit (c : Config) (inp : Inputs) : Prop where
  config : c.wellFormed = true
  lengths : inp.klen.toNat < 2 ^ c.klenw ∧ inp.mlen.toNat < 2 ^ c.lenw
  keyForm : inp.key.wf = true ∧ inp.key.within c.kmax = true
  msgForm : inp.msg.wf = true ∧ inp.msg.within c.mmax = true

/-- What the invariant says of the counters (R38). -/
def CountersFit (c : Config) (w : Work) : Prop := w.n < 2 ^ (c.lenw - 3) ∧ w.blk < 2 ^ (c.lenw - 3)

/-- R46 (e), and (f) and (g) but for when the result may be there. -/
structure ResultFits (s : State) : Prop where
  tlenValues : s.out.tlen = 0 ∨ s.out.tlen = 16 ∨ s.out.tlen = 32
  tagRest : ∀ i, s.out.tlen.toNat ≤ i → i < 32 → byteAt s.out.tag i = 0
  tagOwner : s.out.tlen ≠ 0 → s.stat.err = .none ∧ irIsSign s
  vokOwner : s.stat.vok = true → s.stat.err = .none ∧ irIsVerify s

/-- What the invariant says of a phase: of the key, the counters and the tag. -/
structure PhaseFacts (p : Phase) (s : State) : Prop where
  keyChecked : p ∈ cipherPhases → s.inp.klen = 16
  loopCount : p ∈ loopPhases → s.work.n = blockCount s.inp.mlen.toNat ∧ s.work.blk ≤ s.work.n - 1
  loopInside : p = .cXor ∨ p = .cEnc → s.work.blk < s.work.n - 1
  tagTail : p = .oTag → s.ir = encode .signCmac → ∃ x, s.work.t = tagOfBlock x

/-- The command `i` runs, and no step has yet recorded a result or an error. -/
structure Running (i : Instr) (s : State) : Prop where
  inputs : InputsFit s.cfg s.inp
  counters : CountersFit s.cfg s.work
  busy : s.stat.busy = true
  notDone : s.stat.done = false
  noVerdict : s.stat.vok = false
  noError : s.stat.err = .none
  ir : s.ir = encode i
  noLength : s.out.tlen = 0
  noTag : s.out.tag = 0

/-- The command `i` runs and may be at phase `p`, with a result yet to come. -/
structure AtPhase (p : Phase) (i : Instr) (s : State) : Prop where
  running : Running i s
  mem : p ∈ phasesOf i
  facts : PhaseFacts p s

/-- A command has done what it does before its step `FIN`. -/
structure Finishing (s : State) : Prop where
  inputs : InputsFit s.cfg s.inp
  counters : CountersFit s.cfg s.work
  busy : s.stat.busy = true
  notDone : s.stat.done = false
  command : ∃ i, s.ir = encode i
  error : s.stat.err = .none ∨ (s.stat.err = .tagLengthMismatch ∧ irIsVerify s)
  result : ResultFits s

theorem Inv.inputsFit {s : State} (h : Inv s) : InputsFit s.cfg s.inp :=
  ⟨h.config, h.lengthsFit, h.keyForm, h.msgForm⟩

theorem Inv.resultFits {s : State} (h : Inv s) : ResultFits s where
  tlenValues := h.tlenValues
  tagRest := h.tagRest
  tagOwner ht := ⟨(h.tagOwner ht).1, (h.tagOwner ht).2.2⟩
  vokOwner hv := ⟨(h.vokOwner hv).1, (h.vokOwner hv).2.2⟩

theorem Inv.ph_of_idle {s : State} (h : Inv s) (hb : s.stat.busy = false) : s.ph = .idle := by
  by_contra hp
  simp [h.busyPhase.mpr hp] at hb

theorem inputsFit_zero {c : Config} (hc : c.wellFormed = true) : InputsFit c Inputs.zero :=
  ⟨hc, ⟨Nat.two_pow_pos _, Nat.two_pow_pos _⟩, ⟨rfl, rfl⟩, ⟨rfl, rfl⟩⟩

theorem countersFit_zero (c : Config) : CountersFit c Work.zero := ⟨Nat.two_pow_pos _, Nat.two_pow_pos _⟩

/-- A state that shows no result. -/
theorem resultFits_of_none {s : State} (hl : s.out.tlen = 0) (ht : s.out.tag = 0) (hv : s.stat.vok = false) :
    ResultFits s where
  tlenValues := .inl hl
  tagRest i _ _ := by rw [ht, byteAt_zero]
  tagOwner h := absurd hl h
  vokOwner h := by simp [hv] at h

/-- A result is in order whatever else the state holds. -/
theorem ResultFits.congr {s t : State} (h : ResultFits s) (hl : t.out.tlen = s.out.tlen) (ht : t.out.tag = s.out.tag)
    (hv : t.stat.vok = s.stat.vok) (he : t.stat.err = s.stat.err) (hi : t.ir = s.ir) : ResultFits t where
  tlenValues := hl ▸ h.tlenValues
  tagRest := by rw [hl, ht]; exact h.tagRest
  tagOwner := by rw [hl, he, irIsSign, hi]; exact h.tagOwner
  vokOwner := by rw [hv, he, irIsVerify, hi]; exact h.vokOwner

/-- The invariant of a state in which no command runs. -/
theorem inv_of_idle {s : State} (hi : InputsFit s.cfg s.inp) (hr : ResultFits s) (hb : s.stat.busy = false)
    (hp : s.ph = .idle) (hw : s.work = Work.zero)
    (hk : s.out.k1 ≠ 0 ∨ s.out.k2 ≠ 0 → s.ir = encode .deriveCmac ∧ s.stat.err = .none) : Inv s where
  config := hi.config
  lengthsFit := hi.lengths
  keyForm := hi.keyForm
  msgForm := hi.msgForm
  countersFit := hw ▸ countersFit_zero s.cfg
  busyPhase := by simp [hb, hp]
  idleWork _ := hw
  busyNotDone := by simp [hb]
  tlenValues := hr.tlenValues
  tagRest := hr.tagRest
  tagOwner ht := ⟨(hr.tagOwner ht).1, .inl hb, (hr.tagOwner ht).2⟩
  vokOwner hv := ⟨(hr.vokOwner hv).1, .inl hb, (hr.vokOwner hv).2⟩
  subkeysOwner _ := hk
  sequence h := by simp [hb] at h
  errWhileBusy h := by simp [hb] at h
  keyChecked h := by simp [hp, cipherPhases] at h
  loopCount h := by simp [hp, loopPhases] at h
  loopInside h := by simp [hp] at h
  tagTail h := by simp [hp] at h

theorem ne_idle_of_mem_phasesOf {p : Phase} {i : Instr} (h : p ∈ phasesOf i) : p ≠ .idle := by
  rintro rfl
  cases i <;> simp [phasesOf] at h

/-- The invariant of a state in which a command runs, at a step before `FIN`. -/
theorem AtPhase.inv {s : State} {i : Instr} (h : AtPhase s.ph i s) : Inv s where
  config := h.running.inputs.config
  lengthsFit := h.running.inputs.lengths
  keyForm := h.running.inputs.keyForm
  msgForm := h.running.inputs.msgForm
  countersFit := h.running.counters
  busyPhase := by simp [h.running.busy, ne_idle_of_mem_phasesOf h.mem]
  idleWork hb := by simp [h.running.busy] at hb
  busyNotDone := by simp [h.running.notDone]
  tlenValues := .inl h.running.noLength
  tagRest i _ _ := by rw [h.running.noTag, byteAt_zero]
  tagOwner ht := absurd h.running.noLength ht
  vokOwner hv := by simp [h.running.noVerdict] at hv
  subkeysOwner hb := by simp [h.running.busy] at hb
  sequence _ := ⟨i, irCommand_of_ir s i h.running.ir, h.mem⟩
  errWhileBusy _ := .inl h.running.noError
  keyChecked := h.facts.keyChecked
  loopCount := h.facts.loopCount
  loopInside := h.facts.loopInside
  tagTail := h.facts.tagTail

/-- Conversely, in a state of the invariant a command that runs and is not at `FIN` has no result and no error. -/
theorem Inv.exists_atPhase {s : State} (h : Inv s) (hb : s.stat.busy = true) (hp : s.ph ≠ .fin) :
    ∃ i, AtPhase s.ph i s := by
  obtain ⟨i, hi, hm⟩ := h.sequence hb
  have hl : s.out.tlen = 0 := by
    by_contra ht
    obtain ⟨-, hq, -⟩ := h.tagOwner ht
    simp [hb, hp] at hq
  have hv : s.stat.vok = false := by
    by_contra hv
    obtain ⟨-, hq, -⟩ := h.vokOwner (by simpa using hv)
    simp [hb, hp] at hq
  have ht : s.out.tag = 0 := by
    refine eq_of_byteAt_eq (n := 32) _ _ fun j hj => ?_
    rw [h.tagRest j (by simp [hl]) hj, byteAt_zero]
  have he : s.stat.err = .none := (h.errWhileBusy hb).resolve_right fun ⟨_, hf, _⟩ => hp hf
  have hd : s.stat.done = false := by simpa [hb] using h.busyNotDone
  exact ⟨i, ⟨h.inputsFit, h.countersFit, hb, hd, hv, he, ir_of_irCommand hi, hl, ht⟩, hm,
    h.keyChecked, h.loopCount, h.loopInside, h.tagTail⟩

theorem fin_mem_phasesOf (i : Instr) : .fin ∈ phasesOf i := by cases i <;> decide

/-- The invariant of a state in which a command runs, at `FIN`. -/
theorem Finishing.inv_goto {s : State} (h : Finishing s) : Inv (goto .fin s) where
  config := h.inputs.config
  lengthsFit := h.inputs.lengths
  keyForm := h.inputs.keyForm
  msgForm := h.inputs.msgForm
  countersFit := h.counters
  busyPhase := by simp [h.busy]
  idleWork hb := by simp [h.busy] at hb
  busyNotDone := by simp [h.notDone]
  tlenValues := h.result.tlenValues
  tagRest := h.result.tagRest
  tagOwner ht := ⟨(h.result.tagOwner ht).1, .inr rfl, (h.result.tagOwner ht).2⟩
  vokOwner hv := ⟨(h.result.vokOwner hv).1, .inr rfl, (h.result.vokOwner hv).2⟩
  subkeysOwner hb := by simp [h.busy] at hb
  sequence _ := h.command.imp fun i hi => ⟨irCommand_of_ir _ i hi, fin_mem_phasesOf i⟩
  errWhileBusy _ := h.error.imp_right fun ⟨he, hv⟩ => ⟨he, rfl, hv⟩
  keyChecked hp := by simp [cipherPhases] at hp
  loopCount hp := by simp [loopPhases] at hp
  loopInside hp := by simp at hp
  tagTail hp := by simp at hp

theorem Inv.finishing {s : State} (h : Inv s) (hb : s.stat.busy = true) : Finishing s where
  inputs := h.inputsFit
  counters := h.countersFit
  busy := hb
  notDone := by simpa [hb] using h.busyNotDone
  command := (h.sequence hb).imp fun _ hi => ir_of_irCommand hi.1
  error := (h.errWhileBusy hb).imp_right fun ⟨he, _, hv⟩ => ⟨he, hv⟩
  result := h.resultFits

/-! ## The shared operations keep the invariant -/

/-- R246: an abort, in any state whose inputs are in order. -/
theorem InputsFit.inv_raise {s : State} (h : InputsFit s.cfg s.inp) (k : ErrKind) : Inv (raise k s) :=
  inv_of_idle h (resultFits_of_none rfl rfl rfl) rfl rfl rfl (by simp [Outputs.zero])

theorem complete_tlen (s : State) : (complete s).out.tlen = s.out.tlen := by rw [complete_out]; split <;> rfl

theorem complete_tag (s : State) : (complete s).out.tag = s.out.tag := by rw [complete_out]; split <;> rfl

/-- R190: the completion. Only `DERIVE.CMAC` leaves subkeys, and it is no `VERIFY`, so that it has recorded no error. -/
theorem Finishing.inv_complete {s : State} (h : Finishing s) : Inv (complete s) := by
  have hr : ResultFits (complete s) := h.result.congr (complete_tlen s) (complete_tag s) rfl rfl rfl
  refine inv_of_idle h.inputs hr rfl rfl rfl fun hk => ?_
  by_cases hd : s.ir = encode .deriveCmac
  · refine ⟨hd, h.error.resolve_right fun ⟨_, hv⟩ => ?_⟩
    rw [irIsVerify, hd] at hv
    revert hv
    decide
  · simp [hd] at hk

/-- A command that has recorded nothing may go to `FIN`. -/
theorem Running.finishing {i : Instr} {s : State} (h : Running i s) : Finishing s :=
  ⟨h.inputs, h.counters, h.busy, h.notDone, ⟨i, h.ir⟩, .inl h.noError,
    resultFits_of_none h.noLength h.noTag h.noVerdict⟩

/-- R188: the tag of a `SIGN.HMAC`. -/
theorem Running.finishing_releaseTag_hmac {s : State} (h : Running .signHmac s) (t : Digest) :
    Finishing (releaseTag t (tagLen .signHmac) s) :=
  ⟨h.inputs, h.counters, h.busy, h.notDone, ⟨_, h.ir⟩, .inl h.noError,
    { tlenValues := .inr (.inr rfl)
      tagRest := fun j h1 h2 => absurd h2 (Nat.not_lt.mpr h1)
      tagOwner := fun _ => ⟨h.noError, .inl h.ir⟩
      vokOwner := fun hv => by simp [h.noVerdict] at hv }⟩

/-- R188: the tag of a `SIGN.CMAC`. -/
theorem Running.finishing_releaseTag_cmac {s : State} (h : Running .signCmac s) (x : Block) :
    Finishing (releaseTag (tagOfBlock x) (tagLen .signCmac) s) :=
  ⟨h.inputs, h.counters, h.busy, h.notDone, ⟨_, h.ir⟩, .inl h.noError,
    { tlenValues := .inr (.inl rfl)
      tagRest := byteAt_tagOfBlock_high x
      tagOwner := fun _ => ⟨h.noError, .inr h.ir⟩
      vokOwner := fun hv => by simp [h.noVerdict] at hv }⟩

/-- R164: the verdict of a `VERIFY`. -/
theorem Running.finishing_compareTag {i : Instr} {s : State} (h : Running i s) (hi : irIsVerify s) (t : Digest)
    (n : Nat) : Finishing (compareTag t n s) :=
  ⟨h.inputs, h.counters, h.busy, h.notDone, ⟨i, h.ir⟩, .inl h.noError,
    { tlenValues := .inl h.noLength
      tagRest := fun j _ _ => by rw [compareTag_out, h.noTag, byteAt_zero]
      tagOwner := fun hl => absurd h.noLength hl
      vokOwner := fun _ => ⟨h.noError, hi⟩ }⟩

/-- R161: a claimed tag of the wrong length. -/
theorem Running.finishing_noteTagLength {i : Instr} {s : State} (h : Running i s) (hi : irIsVerify s) :
    Finishing (noteTagLength s) :=
  ⟨h.inputs, h.counters, h.busy, h.notDone, ⟨i, h.ir⟩, .inr ⟨rfl, hi⟩,
    resultFits_of_none h.noLength h.noTag h.noVerdict⟩

/-- R199: the wipe. -/
theorem Running.wipeAll {i : Instr} {s : State} (h : Running i s) : Running i (wipeAll s) :=
  ⟨inputsFit_zero h.inputs.config, countersFit_zero s.cfg, h.busy, h.notDone, rfl, rfl, h.ir, rfl, rfl⟩

theorem Running.doubleV {i : Instr} {s : State} (h : Running i s) : Running i (doubleV s) :=
  ⟨⟨h.inputs.config, h.inputs.lengths, h.inputs.keyForm, h.inputs.msgForm⟩, h.counters, h.busy, h.notDone, h.noVerdict,
    h.noError, h.ir, h.noLength, h.noTag⟩

theorem Running.setSubkeys {i : Instr} {s : State} (h : Running i s) (k1 k2 : Block) :
    Running i { s with out := { s.out with k1 := k1, k2 := k2 } } :=
  ⟨h.inputs, h.counters, h.busy, h.notDone, h.noVerdict, h.noError, h.ir, h.noLength, h.noTag⟩

theorem Running.setWork {i : Instr} {s : State} (h : Running i s) {w : Work} (hw : CountersFit s.cfg w) :
    Running i { s with work := w } :=
  ⟨h.inputs, hw, h.busy, h.notDone, h.noVerdict, h.noError, h.ir, h.noLength, h.noTag⟩

theorem Running.eq_of_irCommand {i j : Instr} {s : State} (h : Running i s) (hj : irCommand s = some j) : i = j := by
  rw [irCommand_of_ir s i h.ir] at hj
  exact Option.some.inj hj

/-- R181: the issue of a legal word. -/
theorem InputsFit.running_issued {s : State} (h : InputsFit s.cfg s.inp) (i : Instr) : Running i (issued i s) :=
  ⟨h, countersFit_zero s.cfg, rfl, rfl, rfl, rfl, rfl, rfl, rfl⟩

/-! ## What is known at a phase -/

theorem mem_cipherPhases_of_loop {p : Phase} (h : p ∈ loopPhases) : p ∈ cipherPhases := by
  revert h
  cases p <;> decide

/-- Outside the cipher's phases and `O_TAG` nothing is claimed. -/
theorem phaseFacts_other {p : Phase} (hc : p ∉ cipherPhases) (ho : p ≠ .oTag) (s : State) : PhaseFacts p s where
  keyChecked h := absurd h hc
  loopCount h := absurd (mem_cipherPhases_of_loop h) hc
  loopInside h := by
    obtain rfl | rfl := h
    · exact absurd (by decide) hc
    · exact absurd (by decide) hc
  tagTail h := absurd h ho

/-- In the cipher's phases before the loop. -/
theorem phaseFacts_cipher {p : Phase} {s : State} (hk : s.inp.klen = 16) (hl : p ∉ loopPhases) (ho : p ≠ .oTag) :
    PhaseFacts p s where
  keyChecked _ := hk
  loopCount h := absurd h hl
  loopInside h := by
    obtain rfl | rfl := h
    · exact absurd (by decide) hl
    · exact absurd (by decide) hl
  tagTail h := absurd h ho

/-- In the loop. -/
theorem phaseFacts_loop {p : Phase} {s : State} (hk : s.inp.klen = 16) (hn : s.work.n = blockCount s.inp.mlen.toNat)
    (hb : s.work.blk ≤ s.work.n - 1) (hin : p = .cXor ∨ p = .cEnc → s.work.blk < s.work.n - 1) (ho : p ≠ .oTag) :
    PhaseFacts p s :=
  ⟨fun _ => hk, fun _ => ⟨hn, hb⟩, hin, fun h => absurd h ho⟩

theorem phaseFacts_oTag {s : State} (h : s.ir = encode .signCmac → ∃ x, s.work.t = tagOfBlock x) :
    PhaseFacts .oTag s :=
  ⟨fun hp => absurd hp (by decide), fun hp => absurd hp (by decide), fun hp => absurd hp (by decide), fun _ => h⟩

/-- A phase that every command with the phase `p` has. -/
theorem mem_phasesOf_of_mem {p q : Phase} {i : Instr} (hp : p ∈ phasesOf i)
    (h : ∀ j ∈ Instr.all, p ∈ phasesOf j → q ∈ phasesOf j) : q ∈ phasesOf i :=
  h i (by cases i <;> decide) hp

theorem Running.inv_goto {p : Phase} {i : Instr} {s : State} (h : Running i s) (hm : p ∈ phasesOf i)
    (hf : PhaseFacts p s) : Inv (goto p s) :=
  AtPhase.inv ⟨⟨h.inputs, h.counters, h.busy, h.notDone, h.noVerdict, h.noError, h.ir, h.noLength, h.noTag⟩, hm,
    hf.keyChecked, hf.loopCount, hf.loopInside, hf.tagTail⟩

/-- A step that writes working registers only. -/
theorem Running.inv_goto_work {p : Phase} {i : Instr} {s : State} {w : Work} (h : Running i s) (hm : p ∈ phasesOf i)
    (hw : CountersFit s.cfg w) (hf : PhaseFacts p { s with work := w }) : Inv (goto p { s with work := w }) :=
  (h.setWork hw).inv_goto hm hf

/-- The block count fits the counter that `C_INIT` puts it into (R38, R128). -/
theorem InputsFit.counter_blockCount {c : Config} {inp : Inputs} (h : InputsFit c inp) :
    counter c (blockCount inp.mlen.toNat) = blockCount inp.mlen.toNat := by
  have hc := h.config
  simp only [Config.wellFormed, Bool.and_eq_true, decide_eq_true_eq] at hc
  exact counter_of_lt c _ (blockCount_lt _ _ hc.1.1 h.lengths.2)

theorem counter_lt (c : Config) (n : Nat) : counter c n < 2 ^ (c.lenw - 3) := Nat.mod_lt _ (Nat.two_pow_pos _)

/-- The way into the loop or out of it (R129, R131). -/
theorem Running.inv_goto_loop {i : Instr} {s : State} (h : Running i s) (hx : .cXor ∈ phasesOf i)
    (hf : .cFXor ∈ phasesOf i) (hk : s.inp.klen = 16) (hn : s.work.n = blockCount s.inp.mlen.toNat)
    (hb : s.work.blk ≤ s.work.n - 1) :
    Inv (goto (if s.work.blk < s.work.n - 1 then .cXor else .cFXor) s) := by
  split
  case isTrue hlt => exact h.inv_goto hx (phaseFacts_loop hk hn hb (fun _ => hlt) (by decide))
  case isFalse => exact h.inv_goto hf (phaseFacts_loop hk hn hb (by simp) (by decide))

/-! ## The steps keep the invariant -/

/-- Where the machine goes on, it goes on in a state of which `P` holds. -/
def NextSatisfies (P : State → Prop) (r : Result) : Prop := ∀ t, r = .next t → P t

theorem nextSatisfies_next {P : State → Prop} {s : State} (h : P s) : NextSatisfies P (.next s) := by
  intro t ht
  cases ht
  exact h

theorem nextSatisfies_fault (P : State → Prop) (f : Fault) : NextSatisfies P (.fault f) := by
  intro t ht
  cases ht

section Steps

variable {i : Instr} {s : State}

theorem AtPhase.inv_stepDDbl (h : AtPhase .dDbl i s) : NextSatisfies Inv (stepDDbl s) :=
  nextSatisfies_next h.running.doubleV.finishing.inv_goto

theorem AtPhase.inv_stepZClr (h : AtPhase .zClr i s) : NextSatisfies Inv (stepZClr s) :=
  nextSatisfies_next h.running.wipeAll.finishing.inv_goto

theorem AtPhase.inv_stepVLen (h : AtPhase .vLen i s) : NextSatisfies Inv (stepVLen s) := by
  unfold stepVLen
  split
  case h_1 hi =>
    obtain rfl := h.running.eq_of_irCommand hi
    split
    · exact nextSatisfies_next (h.running.finishing_noteTagLength (.inl h.running.ir)).inv_goto
    · exact nextSatisfies_next (h.running.inv_goto (by decide) (phaseFacts_other (by decide) (by decide) s))
  case h_2 hi =>
    obtain rfl := h.running.eq_of_irCommand hi
    split
    · exact nextSatisfies_next (h.running.finishing_noteTagLength (.inr h.running.ir)).inv_goto
    · exact nextSatisfies_next (h.running.inv_goto (by decide) (phaseFacts_other (by decide) (by decide) s))
  case h_3 => exact nextSatisfies_fault _ _

theorem AtPhase.inv_stepSChk (h : AtPhase .sChk i s) : NextSatisfies Inv (stepSChk s) := by
  unfold stepSChk
  split
  case isTrue => exact nextSatisfies_next (h.running.inputs.inv_raise _)
  case isFalse hk =>
    exact nextSatisfies_next (h.running.inv_goto (mem_phasesOf_of_mem h.mem (by decide))
      (phaseFacts_cipher (not_not.mp hk) (by decide) (by decide)))

theorem AtPhase.inv_stepSL (h : AtPhase .sL i s) : NextSatisfies Inv (stepSL s) := by
  unfold stepSL
  split
  case h_1 => exact nextSatisfies_next (h.running.inputs.inv_raise _)
  case h_2 =>
    exact nextSatisfies_next (h.running.inv_goto_work (mem_phasesOf_of_mem h.mem (by decide)) h.running.counters
      (phaseFacts_cipher (h.facts.keyChecked (by decide)) (by decide) (by decide)))

theorem AtPhase.inv_stepSK1 (h : AtPhase .sK1 i s) : NextSatisfies Inv (stepSK1 s) :=
  nextSatisfies_next ((h.running.setSubkeys _ _).inv_goto (mem_phasesOf_of_mem h.mem (by decide))
    (phaseFacts_cipher (h.facts.keyChecked (by decide)) (by decide) (by decide)))

theorem AtPhase.inv_stepSK2 (h : AtPhase .sK2 i s) : NextSatisfies Inv (stepSK2 s) := by
  have hr := h.running.setSubkeys s.out.k1 (dbl s.out.k1)
  have hk : s.inp.klen = 16 := h.facts.keyChecked (by decide)
  unfold stepSK2
  split
  case h_1 => exact nextSatisfies_next hr.finishing.inv_goto
  case h_2 hi =>
    obtain rfl := h.running.eq_of_irCommand hi
    exact nextSatisfies_next (hr.inv_goto (by decide) (phaseFacts_cipher hk (by decide) (by decide)))
  case h_3 hi =>
    obtain rfl := h.running.eq_of_irCommand hi
    exact nextSatisfies_next (hr.inv_goto (by decide) (phaseFacts_cipher hk (by decide) (by decide)))
  case h_4 => exact nextSatisfies_fault _ _

theorem AtPhase.inv_stepCInit (h : AtPhase .cInit i s) : NextSatisfies Inv (stepCInit s) :=
  nextSatisfies_next (h.running.inv_goto_work (mem_phasesOf_of_mem h.mem (by decide))
    ⟨counter_lt _ _, Nat.two_pow_pos _⟩
    (phaseFacts_loop (h.facts.keyChecked (by decide)) h.running.inputs.counter_blockCount (Nat.zero_le _) (by simp)
      (by decide)))

theorem AtPhase.inv_stepCSel (h : AtPhase .cSel i s) : NextSatisfies Inv (stepCSel s) := by
  obtain ⟨hn, hb⟩ := h.facts.loopCount (by decide)
  have hr (fb : Block) : Running i { s with work := { s.work with fb := fb } } := h.running.setWork h.running.counters
  exact nextSatisfies_next ((hr _).inv_goto_loop (mem_phasesOf_of_mem h.mem (by decide))
    (mem_phasesOf_of_mem h.mem (by decide)) (h.facts.keyChecked (by decide)) hn hb)

theorem AtPhase.inv_stepCXor (h : AtPhase .cXor i s) : NextSatisfies Inv (stepCXor s) := by
  obtain ⟨hn, hb⟩ := h.facts.loopCount (by decide)
  exact nextSatisfies_next (h.running.inv_goto_work (mem_phasesOf_of_mem h.mem (by decide)) h.running.counters
    (phaseFacts_loop (h.facts.keyChecked (by decide)) hn hb (fun _ => h.facts.loopInside (.inl rfl)) (by decide)))

/-- `C_ENC`: `BLK` is below `N - 1`, so that the next number is at most `N - 1` and fits the counter. -/
theorem AtPhase.inv_stepCEnc (h : AtPhase .cEnc i s) : NextSatisfies Inv (stepCEnc s) := by
  obtain ⟨hn, -⟩ := h.facts.loopCount (by decide)
  have hlt : s.work.blk < s.work.n - 1 := h.facts.loopInside (.inr rfl)
  have hcount : counter s.cfg (s.work.blk + 1) = s.work.blk + 1 :=
    counter_of_lt _ _ (Nat.lt_of_le_of_lt (by omega) h.running.counters.1)
  unfold stepCEnc
  split
  case h_1 => exact nextSatisfies_next (h.running.inputs.inv_raise _)
  case h_2 r _ =>
    rw [hcount]
    have hw : CountersFit s.cfg { s.work with x := r, blk := s.work.blk + 1 } :=
      ⟨h.running.counters.1, hcount ▸ counter_lt _ _⟩
    exact nextSatisfies_next ((h.running.setWork hw).inv_goto_loop (mem_phasesOf_of_mem h.mem (by decide))
      (mem_phasesOf_of_mem h.mem (by decide)) (h.facts.keyChecked (by decide)) hn hlt)

theorem AtPhase.inv_stepCFXor (h : AtPhase .cFXor i s) : NextSatisfies Inv (stepCFXor s) := by
  obtain ⟨hn, hb⟩ := h.facts.loopCount (by decide)
  exact nextSatisfies_next (h.running.inv_goto_work (mem_phasesOf_of_mem h.mem (by decide)) h.running.counters
    (phaseFacts_loop (h.facts.keyChecked (by decide)) hn hb (by simp) (by decide)))

theorem AtPhase.inv_stepCFEnc (h : AtPhase .cFEnc i s) : NextSatisfies Inv (stepCFEnc s) := by
  unfold stepCFEnc
  split
  case h_1 => exact nextSatisfies_next (h.running.inputs.inv_raise _)
  case h_2 r _ =>
    dsimp only
    split
    case h_1 hi =>
      obtain rfl := h.running.eq_of_irCommand hi
      exact nextSatisfies_next (h.running.inv_goto_work (by decide) h.running.counters
        (phaseFacts_oTag fun _ => ⟨r, rfl⟩))
    case h_2 hi =>
      obtain rfl := h.running.eq_of_irCommand hi
      exact nextSatisfies_next (h.running.inv_goto_work (by decide) h.running.counters
        (phaseFacts_other (by decide) (by decide) _))
    case h_3 => exact nextSatisfies_fault _ _

/-- `H_NORM`: its three cases write `K0`. -/
theorem AtPhase.inv_stepHNorm (h : AtPhase .hNorm i s) : NextSatisfies Inv (stepHNorm s) := by
  have hnext (k0 : HashBlock) : Inv (goto .hPads { s with work := { s.work with k0 := k0 } }) :=
    h.running.inv_goto_work (mem_phasesOf_of_mem h.mem (by decide)) h.running.counters
      (phaseFacts_other (by decide) (by decide) _)
  unfold stepHNorm
  split
  · split
    · exact nextSatisfies_next (h.running.inputs.inv_raise _)
    · exact nextSatisfies_next (hnext _)
  · split
    · exact nextSatisfies_next (hnext _)
    · exact nextSatisfies_next (hnext _)

theorem AtPhase.inv_stepHPads (h : AtPhase .hPads i s) : NextSatisfies Inv (stepHPads s) :=
  nextSatisfies_next (h.running.inv_goto_work (mem_phasesOf_of_mem h.mem (by decide)) h.running.counters
    (phaseFacts_other (by decide) (by decide) _))

theorem AtPhase.inv_stepHInner (h : AtPhase .hInner i s) : NextSatisfies Inv (stepHInner s) := by
  unfold stepHInner
  split
  case h_1 => exact nextSatisfies_next (h.running.inputs.inv_raise _)
  case h_2 =>
    exact nextSatisfies_next (h.running.inv_goto_work (mem_phasesOf_of_mem h.mem (by decide)) h.running.counters
      (phaseFacts_other (by decide) (by decide) _))

theorem AtPhase.inv_stepHOuter (h : AtPhase .hOuter i s) : NextSatisfies Inv (stepHOuter s) := by
  unfold stepHOuter
  split
  case h_1 => exact nextSatisfies_next (h.running.inputs.inv_raise _)
  case h_2 =>
    dsimp only
    split
    case h_1 hi =>
      obtain rfl := h.running.eq_of_irCommand hi
      exact nextSatisfies_next (h.running.inv_goto_work (by decide) h.running.counters
        (phaseFacts_oTag fun hc => absurd (h.running.ir.symm.trans hc) (by decide)))
    case h_2 hi =>
      obtain rfl := h.running.eq_of_irCommand hi
      exact nextSatisfies_next (h.running.inv_goto_work (by decide) h.running.counters
        (phaseFacts_other (by decide) (by decide) _))
    case h_3 => exact nextSatisfies_fault _ _

theorem AtPhase.inv_stepOTag (h : AtPhase .oTag i s) : NextSatisfies Inv (stepOTag s) := by
  unfold stepOTag
  split
  case h_1 hi =>
    obtain rfl := h.running.eq_of_irCommand hi
    exact nextSatisfies_next (h.running.finishing_releaseTag_hmac _).inv_goto
  case h_2 hi =>
    obtain rfl := h.running.eq_of_irCommand hi
    obtain ⟨x, hx⟩ := h.facts.tagTail rfl h.running.ir
    rw [hx]
    exact nextSatisfies_next (h.running.finishing_releaseTag_cmac x).inv_goto
  case h_3 => exact nextSatisfies_fault _ _

theorem AtPhase.inv_stepOCmp (h : AtPhase .oCmp i s) : NextSatisfies Inv (stepOCmp s) := by
  unfold stepOCmp
  split
  case h_1 hi => exact nextSatisfies_next (h.running.finishing_compareTag (.inl (ir_of_irCommand hi)) _ _).inv_goto
  case h_2 hi => exact nextSatisfies_next (h.running.finishing_compareTag (.inr (ir_of_irCommand hi)) _ _).inv_goto
  case h_3 => exact nextSatisfies_fault _ _

/-- Every engine step keeps the invariant. -/
theorem inv_engineStep (h : Inv s) (hb : s.stat.busy = true) : NextSatisfies Inv (engineStep s) := by
  by_cases hf : s.ph = .fin
  · simp only [engineStep, hf]
    exact nextSatisfies_next (h.finishing hb).inv_complete
  · obtain ⟨i, hi⟩ := h.exists_atPhase hb hf
    unfold engineStep
    split <;> rename_i hp <;> rw [hp] at hi
    · exact nextSatisfies_fault _ _
    · exact hi.inv_stepDDbl
    · exact hi.inv_stepZClr
    · exact hi.inv_stepVLen
    · exact hi.inv_stepSChk
    · exact hi.inv_stepSL
    · exact hi.inv_stepSK1
    · exact hi.inv_stepSK2
    · exact hi.inv_stepCInit
    · exact hi.inv_stepCSel
    · exact hi.inv_stepCXor
    · exact hi.inv_stepCEnc
    · exact hi.inv_stepCFXor
    · exact hi.inv_stepCFEnc
    · exact hi.inv_stepHNorm
    · exact hi.inv_stepHPads
    · exact hi.inv_stepHInner
    · exact hi.inv_stepHOuter
    · exact hi.inv_stepOTag
    · exact hi.inv_stepOCmp
    · exact absurd hp hf

theorem inv_engineTurn (h : Inv s) : NextSatisfies Inv (engineTurn s) := by
  unfold engineTurn
  split
  case isTrue hb => exact inv_engineStep h hb
  case isFalse => exact nextSatisfies_next h

end Steps

section Events

variable {s : State}

/-! ## The events keep the invariant -/

/-- The invariant does not look at `CTRL`, the script or the answers. -/
theorem Inv.setOther (h : Inv s) (ie : Bool) (script : List Event) (answers : List Answer) :
    Inv { s with ie := ie, script := script, answers := answers } :=
  ⟨h.config, h.lengthsFit, h.keyForm, h.msgForm, h.countersFit, h.busyPhase, h.idleWork, h.busyNotDone, h.tlenValues,
    h.tagRest, h.tagOwner, h.vokOwner, h.subkeysOwner, h.sequence, h.errWhileBusy, h.keyChecked, h.loopCount,
    h.loopInside, h.tagTail⟩

/-- The host may change the inputs while no command runs. -/
theorem Inv.setInputs (h : Inv s) (hb : s.stat.busy = false) {inp : Inputs} (hi : InputsFit s.cfg inp) :
    Inv { s with inp := inp } :=
  inv_of_idle hi (h.resultFits.congr rfl rfl rfl rfl rfl) hb (h.ph_of_idle hb) (h.idleWork hb) (h.subkeysOwner hb)

theorem inv_acknowledge (h : Inv s) (hb : s.stat.busy = false) : Inv (acknowledge s) :=
  inv_of_idle h.inputsFit (h.resultFits.congr rfl rfl rfl rfl rfl) hb (h.ph_of_idle hb) (h.idleWork hb)
    (h.subkeysOwner hb)

theorem toNat_truncTo (k : Nat) (w : Word) : (truncTo k w).toNat = w.toNat % 2 ^ k := by
  rw [truncTo, BitVec.toNat_ofNat]
  exact Nat.mod_eq_of_lt (Nat.lt_of_le_of_lt (Nat.mod_le _ _) w.isLt)

theorem toNat_truncTo_lt (k : Nat) (w : Word) : (truncTo k w).toNat < 2 ^ k := by
  rw [toNat_truncTo]
  exact Nat.mod_lt _ (Nat.two_pow_pos k)

theorem phaseFacts_firstPhase (i : Instr) (s : State) : PhaseFacts (firstPhase i) s := by
  cases i <;> exact phaseFacts_other (by decide) (by decide) s

theorem firstPhase_mem (i : Instr) : firstPhase i ∈ phasesOf i := by cases i <;> decide

/-- R181, R182: the issue of any word. -/
theorem inv_issue (h : Inv s) (hb : s.stat.busy = false) (w : Word) : Inv (issue w s) := by
  unfold issue
  split
  case h_1 i hd =>
    obtain rfl := eq_encode_of_decode hd
    have hr := h.inputsFit.running_issued i
    exact AtPhase.inv ⟨hr, firstPhase_mem i, phaseFacts_firstPhase i _⟩
  case h_2 =>
    exact inv_of_idle h.inputsFit (resultFits_of_none rfl rfl rfl) hb (h.ph_of_idle hb) rfl (by simp [Outputs.zero])

theorem inv_hostWr (h : Inv s) (n : Nat) (w : Word) : Inv (hostWr n w s) := by
  have hi := h.inputsFit
  unfold hostWr
  split
  case h_1 =>
    split
    case isTrue => exact h
    case isFalse hb => exact inv_issue h (by simpa using hb) w
  case h_2 =>
    split
    case isTrue hw =>
      rw [Bool.and_eq_true, Bool.not_eq_true'] at hw
      exact inv_acknowledge h hw.2
    case isFalse => exact h
  case h_3 => exact h.setOther _ _ _
  case h_4 =>
    split
    case isTrue => exact h
    case isFalse hb =>
      exact h.setInputs (by simpa using hb) ⟨hi.config, ⟨toNat_truncTo_lt _ w, hi.lengths.2⟩, hi.keyForm, hi.msgForm⟩
  case h_5 =>
    split
    case isTrue => exact h
    case isFalse hb =>
      exact h.setInputs (by simpa using hb) ⟨hi.config, ⟨hi.lengths.1, toNat_truncTo_lt _ w⟩, hi.keyForm, hi.msgForm⟩
  case h_6 =>
    split
    case isTrue => exact h
    case isFalse hb => exact h.setInputs (by simpa using hb) ⟨hi.config, hi.lengths, hi.keyForm, hi.msgForm⟩
  case h_7 => exact h

theorem inv_setSpaceByte (h : Inv s) (hb : s.stat.busy = false) {sp j : Nat} (hj : j < spaceSize s.cfg sp) (b : Byte) :
    Inv (setSpaceByte s sp j b) := by
  have hi := h.inputsFit
  unfold setSpaceByte
  split
  case h_1 =>
    exact h.setInputs hb ⟨hi.config, hi.lengths, ⟨Memory.wf_write _ j b hi.keyForm.1,
      Memory.within_write _ _ j b hj hi.keyForm.2⟩, hi.msgForm⟩
  case h_2 =>
    exact h.setInputs hb ⟨hi.config, hi.lengths, hi.keyForm, Memory.wf_write _ j b hi.msgForm.1,
      Memory.within_write _ _ j b hj hi.msgForm.2⟩
  case h_3 => exact h.setInputs hb ⟨hi.config, hi.lengths, hi.keyForm, hi.msgForm⟩
  case h_4 => exact h.setInputs hb ⟨hi.config, hi.lengths, hi.keyForm, hi.msgForm⟩
  case h_5 => exact h

theorem inv_hostWrB (h : Inv s) (sp j : Nat) (b : Byte) : Inv (hostWrB sp j b s) := by
  unfold hostWrB
  split
  case isTrue => exact h
  case isFalse hb =>
    split
    case isTrue hj => exact inv_setSpaceByte h (by simpa using hb) hj b
    case isFalse => exact h

/-- A whole command: what its pseudocode does before the completion or the abort leaves the command running, with its
result in order (R186). -/
theorem inv_exec_idle (h : Inv s) (hb : s.stat.busy = false) (i : Instr) : NextSatisfies Inv (exec i s) := by
  have hr := h.inputsFit.running_issued i
  cases i <;> simp only [exec]
  case signHmac =>
    rw [execSignHmac, runCommand_idle _ s _ hb]
    refine nextSatisfies_next ?_
    split
    · exact hr.inputs.inv_raise _
    · exact (hr.finishing_releaseTag_hmac _).inv_complete
  case signCmac =>
    rw [execSignCmac, runCommand_idle _ s _ hb]
    refine nextSatisfies_next ?_
    split
    · exact hr.inputs.inv_raise _
    · split
      · exact hr.inputs.inv_raise _
      · exact (hr.finishing_releaseTag_cmac _).inv_complete
  case verifyHmac =>
    rw [execVerifyHmac, runCommand_idle _ s _ hb]
    refine nextSatisfies_next ?_
    split
    · exact (hr.finishing_noteTagLength (.inl rfl)).inv_complete
    · split
      · exact hr.inputs.inv_raise _
      · exact (hr.finishing_compareTag (.inl rfl) _ _).inv_complete
  case verifyCmac =>
    rw [execVerifyCmac, runCommand_idle _ s _ hb]
    refine nextSatisfies_next ?_
    split
    · exact (hr.finishing_noteTagLength (.inr rfl)).inv_complete
    · split
      · exact hr.inputs.inv_raise _
      · split
        · exact hr.inputs.inv_raise _
        · exact (hr.finishing_compareTag (.inr rfl) _ _).inv_complete
  case deriveCmac =>
    rw [execDeriveCmac, runCommand_idle _ s _ hb]
    refine nextSatisfies_next ?_
    split
    · exact hr.inputs.inv_raise _
    · split
      · exact hr.inputs.inv_raise _
      · exact (hr.setSubkeys _ _).finishing.inv_complete
  case dbl =>
    rw [execDbl, runCommand_idle _ s _ hb]
    exact nextSatisfies_next hr.doubleV.finishing.inv_complete
  case clear =>
    rw [execClear, runCommand_idle _ s _ hb]
    exact nextSatisfies_next hr.wipeAll.finishing.inv_complete

theorem inv_exec (h : Inv s) (i : Instr) : NextSatisfies Inv (exec i s) := by
  cases hb : s.stat.busy with
  | true =>
    rw [exec_busy hb]
    exact nextSatisfies_next h
  | false => exact inv_exec_idle h hb i

theorem inv_performWait (h : Inv s) : NextSatisfies Inv (performWait s) := by
  unfold performWait
  split
  case isTrue hb => exact inv_engineStep (h.setOther _ _ _) hb
  case isFalse =>
    split
    · exact nextSatisfies_next h
    · exact nextSatisfies_next (h.setOther _ _ _)

theorem inv_performCommand (h : Inv s) (w : Word) : NextSatisfies Inv (performCommand w s) := by
  unfold performCommand
  split
  · exact inv_exec h _
  · exact nextSatisfies_next (inv_hostWr h 0 w)

theorem inv_perform (h : Inv s) (e : Event) : NextSatisfies Inv (perform e s) := by
  cases e with
  | hostRd n => exact nextSatisfies_next (h.setOther _ _ _)
  | hostWr n w => exact nextSatisfies_next (inv_hostWr h n w)
  | hostRdB sp j => exact nextSatisfies_next (h.setOther _ _ _)
  | hostWrB sp j b => exact nextSatisfies_next (inv_hostWrB h sp j b)
  | engine => exact inv_engineTurn h
  | reset => exact nextSatisfies_next (inv_resetEngine s h.config)
  | wait => exact inv_performWait h
  | read sp => exact nextSatisfies_next (h.setOther _ _ _)
  | command w => exact inv_performCommand h w

theorem inv_step (h : Inv s) : NextSatisfies Inv (step s) := by
  unfold step
  split
  · exact inv_engineTurn h
  · exact inv_perform (h.setOther _ _ _) _

/-! ## R46 as the host sees it -/

theorem getLsbD_statusWord_vok (st : Status) : (statusWord st).getLsbD 2 = st.vok := by
  simp only [statusWord, BitVec.getLsbD_append]
  simp

theorem Inv.rule46Host (h : Inv s) : Rule46Host s := by
  cases hb : s.stat.busy with
  | true => exact ⟨fun ht => by simp [hostRd, hb] at ht, fun hv => by simp [hostRd, hb] at hv⟩
  | false =>
    refine ⟨fun ht => ?_, fun hv => ?_⟩
    · have hl : s.out.tlen ≠ 0 := by
        rintro hl
        simp [hostRd, hb, hl] at ht
      exact ⟨(h.resultFits.tagOwner hl).1, hb, (h.resultFits.tagOwner hl).2⟩
    · have hvok : s.stat.vok = true := by
        rw [← getLsbD_statusWord_vok]
        simpa [hostRd, hb] using hv
      exact ⟨(h.resultFits.vokOwner hvok).1, hb, (h.resultFits.vokOwner hvok).2⟩

end Events

/-- Settles O51: every event and every engine step keeps the invariant, and the invariant gives R46. -/
theorem stepKeepsInvariant : Obligations.StepKeepsInvariant := fun _ t hs ht =>
  have h : Inv t := inv_step hs t ht
  ⟨h, rule46_of_inv t h, h.rule46Host⟩

/-! ## The frame of the engine's steps -/

/-- What an engine step can do to the inputs: `Z_CLR` wipes them, `D_DBL` doubles `V`, and every other step, going on
or aborting, leaves them as they were. -/
theorem engineStep_inp {s t : State} (h : engineStep s = .next t) :
    (s.ph = .zClr ∧ t.inp = Inputs.zero) ∨ (s.ph = .dDbl ∧ t.inp = { s.inp with v := dbl s.inp.v }) ∨
      t.inp = s.inp := by
  cases hp : s.ph <;> simp only [engineStep, hp] at h
  case idle => cases h
  case zClr =>
    cases h
    exact .inl ⟨rfl, rfl⟩
  case dDbl =>
    cases h
    exact .inr (.inl ⟨rfl, rfl⟩)
  all_goals
    simp only [stepVLen, stepSChk, stepSL, stepSK1, stepSK2, stepCInit, stepCSel, stepCXor, stepCEnc, stepCFXor,
      stepCFEnc, stepHNorm, stepHPads, stepHInner, stepHOuter, stepOTag, stepOCmp, stepFin] at h
    repeat' split at h
  all_goals cases h
  all_goals exact .inr (.inr rfl)

/-- What no engine step changes: `CTRL`, `IR`, the parameters and the model's own fields (R24, R39). -/
theorem engineStep_frame {s t : State} (h : engineStep s = .next t) :
    t.ie = s.ie ∧ t.ir = s.ir ∧ t.cfg = s.cfg ∧ t.script = s.script ∧ t.answers = s.answers := by
  obtain ⟨k, rfl⟩ | ⟨-, rfl⟩ | ⟨-, -, -, hir, hcfg, hie, hscript, hanswers⟩ := engineStep_next s t h
  · exact ⟨rfl, rfl, rfl, rfl, rfl⟩
  · exact ⟨rfl, rfl, rfl, rfl, rfl⟩
  · exact ⟨hie, hir, hcfg, hscript, hanswers⟩

/-- A turn of the engine is its step or leaves the state as it is. -/
theorem engineTurn_next {s t : State} (h : engineTurn s = .next t) : t = s ∨ engineStep s = .next t := by
  unfold engineTurn at h
  split at h
  case isTrue => exact .inr h
  case isFalse =>
    cases h
    exact .inl rfl

/-- Settles O47, from what a step can do to the inputs and to the rest. -/
theorem engineStepFrame : Obligations.EngineStepFrame := by
  intro s t h
  obtain rfl | h := engineTurn_next h
  · exact ⟨rfl, rfl, rfl, rfl, rfl, fun _ => rfl, fun _ _ => rfl⟩
  · obtain ⟨hie, hir, hcfg, hscript, hanswers⟩ := engineStep_frame h
    refine ⟨hie, hir, hcfg, hscript, hanswers, ?_⟩
    obtain ⟨hp, -⟩ | ⟨hp, hi⟩ | hi := engineStep_inp h
    · exact ⟨fun hz => absurd hp hz, fun hz => absurd hp hz⟩
    · exact ⟨fun _ => by rw [hi], fun _ hd => absurd hp hd⟩
    · exact ⟨fun _ => by rw [hi], fun _ _ => by rw [hi]⟩

/-! ## The result of a command -/

/-- Two states that show the host the same result, of the same command. -/
structure SameResult (s t : State) : Prop where
  out : s.out = t.out
  stat : s.stat = t.stat
  v : s.inp.v = t.inp.v
  ir : s.ir = t.ir

namespace SameResult

variable {s t : State}

theorem raise (h : SameResult s t) (k : ErrKind) : SameResult (raise k s) (raise k t) :=
  ⟨rfl, by simp [h.stat], h.v, h.ir⟩

theorem complete (h : SameResult s t) : SameResult (complete s) (complete t) :=
  ⟨by simp [h.out, h.ir], by simp [h.stat], h.v, h.ir⟩

theorem releaseTag (h : SameResult s t) (d : Digest) (n : Nat) : SameResult (releaseTag d n s) (releaseTag d n t) :=
  ⟨by simp [h.out], h.stat, h.v, h.ir⟩

theorem noteTagLength (h : SameResult s t) : SameResult (noteTagLength s) (noteTagLength t) :=
  ⟨h.out, by simp [h.stat], h.v, h.ir⟩

theorem compareTag (h : SameResult s t) (hc : s.inp.ctag = t.inp.ctag) (d : Digest) (n : Nat) :
    SameResult (compareTag d n s) (compareTag d n t) :=
  ⟨h.out, by simp [h.stat, ctagBytes, hc], h.v, h.ir⟩

theorem doubleV (h : SameResult s t) : SameResult (doubleV s) (doubleV t) :=
  ⟨h.out, by simp [h.stat, h.v], by simp [h.v], h.ir⟩

theorem wipeAll (h : SameResult s t) : SameResult (wipeAll s) (wipeAll t) := ⟨rfl, by simp [h.stat], rfl, h.ir⟩

theorem setSubkeys (h : SameResult s t) (k1 k2 : Block) :
    SameResult { s with out := { s.out with k1 := k1, k2 := k2 } } { t with out := { t.out with k1 := k1, k2 := k2 } } :=
  ⟨by simp [h.out], h.stat, h.v, h.ir⟩

end SameResult

/-- The issue wipes what an earlier command has left (R181). -/
theorem SameOperands.sameResult_issued {s t : State} (h : SameOperands s t) (i : Instr) :
    SameResult (issued i s) (issued i t) :=
  ⟨rfl, rfl, h.v, rfl⟩

theorem memRead_congr {f g : Nat → Byte} {n : Nat} (h : ∀ j, j < n → f j = g j) : memRead f 0 n = memRead g 0 n := by
  simpa [memRead] using h

theorem SameOperands.keyBytes {s t : State} (h : SameOperands s t) : keyBytes s = keyBytes t := by
  rw [Machine.keyBytes, Machine.keyBytes, ← h.klen, memRead_congr h.key]

theorem SameOperands.msgBytes {s t : State} (h : SameOperands s t) : msgBytes s = msgBytes t := by
  rw [Machine.msgBytes, Machine.msgBytes, ← h.mlen, memRead_congr h.msg]

/-- The cipher's key is inside `KLEN` when the key has the length the commands ask for (R47, R107). -/
theorem SameOperands.cipherKey {s t : State} (h : SameOperands s t) (hk : s.inp.klen = 16) :
    cipherKey s = cipherKey t := by
  rw [Machine.cipherKey, Machine.cipherKey, memRead_congr fun j hj => h.key j (by simpa [hk] using hj)]

theorem SameOperands.issued {s t : State} (h : SameOperands s t) (i : Instr) :
    SameOperands (issued i s) (issued i t) :=
  ⟨h.cfg, h.klen, h.mlen, h.ctlen, h.ctag, h.v, h.key, h.msg⟩

/-- A command from two idle states with the same operands: its pseudocode takes the same branch in both, on the same
value, and every operation it ends with keeps the results the same. -/
theorem SameOperands.sameResult_exec {s t s' t' : State} (h : SameOperands s t) (hs : s.stat.busy = false)
    (ht : t.stat.busy = false) (i : Instr) (hs' : exec i s = .next s') (ht' : exec i t = .next t') :
    SameResult s' t' := by
  have hr := h.sameResult_issued i
  have hu := h.issued i
  cases i <;>
    simp only [exec, execSignHmac, execSignCmac, execVerifyHmac, execVerifyCmac, execDeriveCmac, execDbl, execClear,
      runCommand_idle _ s _ hs, runCommand_idle _ t _ ht] at hs' ht' <;>
    cases hs' <;> cases ht'
  case signHmac =>
    rw [← hu.cfg, ← hu.keyBytes, ← hu.msgBytes]
    split
    · exact hr.raise _
    · exact (hr.releaseTag _ _).complete
  case signCmac =>
    rw [← hu.klen, ← hu.cfg, ← hu.msgBytes]
    split
    case isTrue => exact hr.raise _
    case isFalse hk =>
      rw [← hu.cipherKey (not_not.mp hk)]
      split
      · exact hr.raise _
      · exact (hr.releaseTag _ _).complete
  case verifyHmac =>
    rw [← hu.ctlen, ← hu.cfg, ← hu.keyBytes, ← hu.msgBytes]
    split
    · exact hr.noteTagLength.complete
    · split
      · exact hr.raise _
      · exact (hr.compareTag hu.ctag _ _).complete
  case verifyCmac =>
    rw [← hu.ctlen, ← hu.klen, ← hu.cfg, ← hu.msgBytes]
    split
    · exact hr.noteTagLength.complete
    · split
      case isTrue => exact hr.raise _
      case isFalse hk =>
        rw [← hu.cipherKey (not_not.mp hk)]
        split
        · exact hr.raise _
        · exact (hr.compareTag hu.ctag _ _).complete
  case deriveCmac =>
    rw [← hu.klen, ← congrArg subkeys hu.cfg]
    split
    case isTrue => exact hr.raise _
    case isFalse hk =>
      rw [← hu.cipherKey (not_not.mp hk)]
      split
      · exact hr.raise _
      · exact (hr.setSubkeys _ _).complete
  case dbl => exact hr.doubleV.complete
  case clear => exact hr.wipeAll.complete

/-- Settles O56: what a command leaves follows from its operands, as the results of two states with the same operands
show. -/
theorem resultsDependOnOperandsOnly : Obligations.ResultsDependOnOperandsOnly := by
  intro i s t s' t' hs ht h hs' ht'
  have hr := h.sameResult_exec hs ht i hs' ht'
  exact ⟨hr.out, hr.stat, hr.v⟩

end Sys2Proof.Machine
end

section
/-! PROOFS. The statements of spec/20_memory.md: what a host read returns (R68, R70), what a host write changes and what
it leaves (R69, R71), that accesses can be repeated (R72), how they interleave with the engine and reset (R75), and that
a command in progress freezes what the host can write and read (R76). -/

namespace Sys2Proof.Machine

/-! ## The scalar registers -/

section Registers

variable {s : State}

theorem hostRd_status_busy (hb : s.stat.busy = true) : hostRd s 1 = 0x00000001 := by simp [hostRd, hb]

theorem hostRd_status_idle (hb : s.stat.busy = false) : hostRd s 1 = statusWord s.stat := by simp [hostRd, hb]

theorem hostRd_tlen_busy (hb : s.stat.busy = true) : hostRd s 6 = 0 := by simp [hostRd, hb]

theorem toNat_hostRd_tlen_idle (hb : s.stat.busy = false) : (hostRd s 6).toNat = s.out.tlen.toNat := by
  have hlt := s.out.tlen.isLt
  rw [show hostRd s 6 = s.out.tlen.setWidth 32 by simp [hostRd, hb], BitVec.toNat_setWidth]
  omega

theorem hostRd_ctrl (s : State) : hostRd s 2 = if s.ie then 1 else 0 := by
  rw [show hostRd s 2 = ctrlWord s.ie from rfl]
  cases s.ie <;> rfl

theorem toNat_hostRd_ctlen (s : State) : (hostRd s 5).toNat = s.inp.ctlen.toNat := by
  have hlt := s.inp.ctlen.isLt
  rw [show hostRd s 5 = s.inp.ctlen.setWidth 32 from rfl, BitVec.toNat_setWidth]
  omega

theorem hostRd_of_seven_le (s : State) {n : Nat} (hn : 7 ≤ n) : hostRd s n = 0 := by
  obtain ⟨k, rfl⟩ := Nat.exists_eq_add_of_le' hn
  rfl

/-- The four flags of R23. -/
theorem getLsbD_statusWord (st : Status) :
    (statusWord st).getLsbD 0 = st.busy ∧ (statusWord st).getLsbD 1 = st.done ∧
      (statusWord st).getLsbD 2 = st.vok ∧ (statusWord st).getLsbD 3 = st.cy := by
  simp only [statusWord, BitVec.getLsbD_append]
  simp

/-- The word of `STATUS` above its four flags (R23). -/
theorem extractLsb'_add_four_statusWord (st : Status) (n len : Nat) :
    (statusWord st).extractLsb' (n + 4) len =
      ((0 : BitVec 20) ++ errCode st.err ++ (0 : BitVec 4)).extractLsb' n len := by
  unfold statusWord
  iterate 4 rw [BitVec.extractLsb'_append_eq_of_le (by omega)]
  rfl

/-- `ERR` and the reserved bits of R23. -/
theorem extractLsb'_statusWord (st : Status) :
    (statusWord st).extractLsb' 4 4 = 0 ∧ (statusWord st).extractLsb' 8 4 = errCode st.err ∧
      (statusWord st).extractLsb' 12 20 = 0 := by
  refine ⟨?_, ?_, ?_⟩
  · rw [extractLsb'_add_four_statusWord st 0, BitVec.extractLsb'_append_eq_right]
  · rw [extractLsb'_add_four_statusWord st 4, BitVec.extractLsb'_append_eq_of_le (by omega),
      BitVec.extractLsb'_append_eq_right]
  · rw [extractLsb'_add_four_statusWord st 8, BitVec.extractLsb'_append_eq_of_le (by omega),
      BitVec.extractLsb'_append_eq_left]

theorem hostWr_klen_idle (hb : s.stat.busy = false) (w : Word) :
    hostWr 3 w s = { s with inp := { s.inp with klen := truncTo s.cfg.klenw w } } := by simp [hostWr, hb]

theorem hostWr_mlen_idle (hb : s.stat.busy = false) (w : Word) :
    hostWr 4 w s = { s with inp := { s.inp with mlen := truncTo s.cfg.lenw w } } := by simp [hostWr, hb]

theorem hostWr_ctlen_idle (hb : s.stat.busy = false) (w : Word) :
    hostWr 5 w s = { s with inp := { s.inp with ctlen := w.setWidth 8 } } := by simp [hostWr, hb]

/-- Past `CTLEN` no register takes a write: `TLEN` is read-only, and there is nothing after it (R69). -/
theorem hostWr_of_six_le {n : Nat} (hn : 6 ≤ n) (w : Word) (s : State) : hostWr n w s = s := by
  obtain ⟨k, rfl⟩ := Nat.exists_eq_add_of_le' hn
  rfl

theorem hostWr_status (w : Word) (s : State) :
    hostWr 1 w s = if w.getLsbD 1 = true ∧ s.stat.busy = false then acknowledge s else s := by
  simp [hostWr]

/-- R195: while `BUSY = 1` a write to any register but `CTRL` is dropped. -/
theorem hostWr_busy (hb : s.stat.busy = true) {n : Nat} (hn : n ≠ 2) (w : Word) : hostWr n w s = s := by
  match n, hn with
  | 0, _ => exact hostWr_cmd_busy hb w
  | 1, _ => simp [hostWr_status, hb]
  | 3, _ => simp [hostWr, hb]
  | 4, _ => simp [hostWr, hb]
  | 5, _ => simp [hostWr, hb]
  | _ + 6, _ => rfl

/-- Any register but `CMD`: a write that is taken leaves `BUSY` and the parameters as they were, so that the second
puts the same value into the same field. -/
theorem hostWr_idem {n : Nat} (hn : n ≠ 0) (w : Word) (s : State) : hostWr n w (hostWr n w s) = hostWr n w s := by
  cases hb : s.stat.busy with
  | true =>
    by_cases h2 : n = 2
    · subst h2
      rfl
    · rw [hostWr_busy hb h2, hostWr_busy hb h2]
  | false =>
    match n, hn with
    | 1, _ =>
      cases hw : w.getLsbD 1 with
      | true =>
        rw [hostWr_status_idle hb hw, hostWr_status_idle (s := acknowledge s) hb hw]
        rfl
      | false =>
        have hdrop : hostWr 1 w s = s := by rw [hostWr_status, hw, if_neg (by simp)]
        rw [hdrop, hdrop]
    | 2, _ => rfl
    | 3, _ =>
      rw [hostWr_klen_idle hb]
      exact hostWr_klen_idle (s := { s with inp := { s.inp with klen := truncTo s.cfg.klenw w } }) hb w
    | 4, _ =>
      rw [hostWr_mlen_idle hb]
      exact hostWr_mlen_idle (s := { s with inp := { s.inp with mlen := truncTo s.cfg.lenw w } }) hb w
    | 5, _ =>
      rw [hostWr_ctlen_idle hb]
      exact hostWr_ctlen_idle (s := { s with inp := { s.inp with ctlen := w.setWidth 8 } }) hb w
    | _ + 6, _ => rfl

end Registers

/-! ## The byte spaces -/

/-- A byte written twice. -/
theorem setByteAt_setByteAt {w : Nat} (v : BitVec w) (i : Nat) (b : Byte) :
    setByteAt (setByteAt v i b) i b = setByteAt v i b := by
  apply BitVec.eq_of_getLsbD_eq
  intro j hj
  simp only [getLsbD_setByteAt, hj, decide_true, Bool.true_and]
  split <;> rfl

/-- A byte written twice into a space in canonical form: both spaces read alike. -/
theorem Memory.write_write {m : Memory} (hm : m.wf = true) (a : Nat) (b : Byte) :
    (m.write a b).write a b = m.write a b := by
  have hw : Memory.wf (m.write a b) = true := wf_write m a b hm
  refine eq_of_read_eq (wf_write _ a b hw) hw fun k => ?_
  rw [read_write _ 0 a k b hw]
  split
  case isTrue hk => rw [hk, read_write_same m a b hm]
  case isFalse => rfl

theorem spaceSize_of_seven_le (c : Config) {sp : Nat} (hsp : 7 ≤ sp) : spaceSize c sp = 0 := by
  obtain ⟨k, rfl⟩ := Nat.exists_eq_add_of_le' hsp
  rfl

/-- `K1`, `K2` and `TAG` are read-only, and there is no space after them (R29). -/
theorem setSpaceByte_of_four_le {sp : Nat} (hsp : 4 ≤ sp) (s : State) (i : Nat) (b : Byte) :
    setSpaceByte s sp i b = s := by
  obtain ⟨k, rfl⟩ := Nat.exists_eq_add_of_le' hsp
  rfl

@[simp] theorem setSpaceByte_cfg (s : State) (sp i : Nat) (b : Byte) : (setSpaceByte s sp i b).cfg = s.cfg := by
  unfold setSpaceByte
  split <;> rfl

@[simp] theorem setSpaceByte_stat (s : State) (sp i : Nat) (b : Byte) : (setSpaceByte s sp i b).stat = s.stat := by
  unfold setSpaceByte
  split <;> rfl

/-- The frame of a byte write: only the byte spaces among the inputs can change (R71). -/
theorem setSpaceByte_frame (s : State) (sp i : Nat) (b : Byte) :
    setSpaceByte s sp i b = { s with inp := { (setSpaceByte s sp i b).inp with
      klen := s.inp.klen, mlen := s.inp.mlen, ctlen := s.inp.ctlen } } := by
  unfold setSpaceByte
  split <;> rfl

/-- A byte write leaves every other space as it was: each arm of the write sets one field, which only the arm of the same
space reads. -/
theorem spaceByte_setSpaceByte_other {sp sp' : Nat} (hsp : sp' ≠ sp) (s : State) (i i' : Nat) (b : Byte) :
    spaceByte (setSpaceByte s sp i b) sp' i' = spaceByte s sp' i' := by
  unfold setSpaceByte
  split
  case h_5 => rfl
  all_goals
    unfold spaceByte
    split
  any_goals rfl
  all_goals exact absurd rfl hsp

section Bytes

variable {s : State} (hkey : s.inp.key.wf = true) (hmsg : s.inp.msg.wf = true)

include hkey hmsg

theorem spaceByte_setSpaceByte_same {sp i : Nat} (hsp : sp ≤ 3) (hi : i < spaceSize s.cfg sp) (b : Byte) :
    spaceByte (setSpaceByte s sp i b) sp i = b := by
  match sp, hsp with
  | 0, _ => exact Memory.read_write_same _ i b hkey
  | 1, _ => exact Memory.read_write_same _ i b hmsg
  | 2, _ =>
    have hi : i < 32 := hi
    exact byteAt_setByteAt_same _ i b (by omega)
  | 3, _ =>
    have hi : i < 16 := hi
    exact byteAt_setByteAt_same _ i b (by omega)

theorem spaceByte_setSpaceByte_ne {sp i i' : Nat} (hi : i < spaceSize s.cfg sp) (hi' : i' < spaceSize s.cfg sp)
    (hne : i' ≠ i) (b : Byte) : spaceByte (setSpaceByte s sp i b) sp i' = spaceByte s sp i' := by
  match sp with
  | 0 => exact Memory.read_write_ne _ i i' b hkey hne
  | 1 => exact Memory.read_write_ne _ i i' b hmsg hne
  | 2 =>
    have hi : i < 32 := hi
    have hi' : i' < 32 := hi'
    exact byteAt_setByteAt_ne _ i i' b (by omega) (by omega) hne
  | 3 =>
    have hi : i < 16 := hi
    have hi' : i' < 16 := hi'
    exact byteAt_setByteAt_ne _ i i' b (by omega) (by omega) hne
  | _ + 4 => rfl

theorem setSpaceByte_setSpaceByte (sp i : Nat) (b : Byte) :
    setSpaceByte (setSpaceByte s sp i b) sp i b = setSpaceByte s sp i b := by
  match sp with
  | 0 => simp [setSpaceByte, Memory.write_write hkey]
  | 1 => simp [setSpaceByte, Memory.write_write hmsg]
  | 2 => simp [setSpaceByte, setByteAt_setByteAt]
  | 3 => simp [setSpaceByte, setByteAt_setByteAt]
  | _ + 4 => rfl

end Bytes

section Accesses

variable {s : State}

/-- R196. -/
theorem hostRdB_busy (hb : s.stat.busy = true) (sp i : Nat) : hostRdB s sp i = 0 := by simp [hostRdB, hb]

theorem hostRdB_idle (hb : s.stat.busy = false) {sp : Nat} (hsp : sp ≠ 0) (i : Nat) :
    hostRdB s sp i = if i < spaceSize s.cfg sp then spaceByte s sp i else 0 := by
  simp [hostRdB, hb, hsp]

/-- R196. -/
theorem hostWrB_busy (hb : s.stat.busy = true) (sp i : Nat) (b : Byte) : hostWrB sp i b s = s := by
  simp [hostWrB, hb]

theorem hostWrB_outside {sp i : Nat} (hi : spaceSize s.cfg sp ≤ i) (b : Byte) : hostWrB sp i b s = s := by
  simp [hostWrB, Nat.not_lt.mpr hi]

theorem hostWrB_idle {sp i : Nat} (hb : s.stat.busy = false) (hi : i < spaceSize s.cfg sp) (b : Byte) :
    hostWrB sp i b s = setSpaceByte s sp i b := by
  simp [hostWrB, hb, hi]

/-- A byte write is dropped or sets the byte of an idle engine. -/
theorem hostWrB_cases (sp i : Nat) (b : Byte) (s : State) :
    hostWrB sp i b s = s ∨ (s.stat.busy = false ∧ i < spaceSize s.cfg sp) := by
  cases hb : s.stat.busy with
  | true => exact .inl (hostWrB_busy hb sp i b)
  | false =>
    obtain hi | hi := Nat.lt_or_ge i (spaceSize s.cfg sp)
    · exact .inr ⟨rfl, hi⟩
    · exact .inl (hostWrB_outside hi b)

theorem hostWrB_of_four_le {sp : Nat} (hsp : 4 ≤ sp) (i : Nat) (b : Byte) : hostWrB sp i b s = s := by
  obtain h | ⟨hb, hi⟩ := hostWrB_cases sp i b s
  · exact h
  · rw [hostWrB_idle hb hi, setSpaceByte_of_four_le hsp]

theorem hostWrB_idem (hkey : s.inp.key.wf = true) (hmsg : s.inp.msg.wf = true) (sp i : Nat) (b : Byte) :
    hostWrB sp i b (hostWrB sp i b s) = hostWrB sp i b s := by
  obtain h | ⟨hb, hi⟩ := hostWrB_cases sp i b s
  · rw [h, h]
  · rw [hostWrB_idle hb hi, hostWrB_idle (by simpa using hb) (by simpa using hi),
      setSpaceByte_setSpaceByte hkey hmsg]

end Accesses

/-! ## Steps of the host -/

section HostSteps

variable {s : State} {rest : List Event}

theorem step_hostRd {n : Nat} (hs : s.script = .hostRd n :: rest) :
    step s = .next { s with script := rest, answers := s.answers ++ [.word (hostRd s n)] } := by
  rw [step_of_script hs]
  rfl

theorem step_hostRdB {sp i : Nat} (hs : s.script = .hostRdB sp i :: rest) :
    step s = .next { s with script := rest, answers := s.answers ++ [.byte (hostRdB s sp i)] } := by
  rw [step_of_script hs]
  rfl

/-- R89: `READ` takes its count from the word that the host has read last. -/
theorem step_read {sp : Nat} {w : Word} {as : List Answer} (hs : s.script = .read sp :: rest)
    (ha : s.answers = as ++ [.word w]) :
    step s = .next { s with script := (List.range w.toNat).map (fun i => .hostRdB sp i) ++ rest } := by
  rw [step_of_script hs, perform, performRead, readLines, ha, lastWord_append_word]

end HostSteps

/-! ## The statements -/

/-- Settles O35: a write that is not dropped sets one byte of one space, and the laws of that update say what reads back,
what is left and that nothing else changes. -/
theorem hostWritesOneByte : Obligations.HostWritesOneByte := by
  refine fun s sp i b hkey hmsg => ⟨?_, fun hb hsp hi => ?_⟩
  · rintro (hb | hsp | hi)
    · exact hostWrB_busy hb sp i b
    · exact hostWrB_of_four_le hsp i b
    · exact hostWrB_outside hi b
  · rw [hostWrB_idle hb hi]
    refine ⟨spaceByte_setSpaceByte_same hkey hmsg hsp hi b, fun sp' i' hi' hne => ?_, setSpaceByte_frame s sp i b⟩
    by_cases hspace : sp' = sp
    · subst hspace
      exact spaceByte_setSpaceByte_ne hkey hmsg hi hi' (hne.resolve_left (not_not.mpr rfl)) b
    · exact spaceByte_setSpaceByte_other hspace s i i' b

/-- Settles O37: a read changes the script and the answers alone, and both kinds of write are idempotent. -/
theorem accessesAreRepeatable : Obligations.AccessesAreRepeatable := by
  refine ⟨fun s t rest n hs ht => ?_, fun s t rest sp i hs ht => ?_, fun s n w hn => hostWr_idem hn w s,
    fun s sp i b hkey hmsg => hostWrB_idem hkey hmsg sp i b⟩
  · rw [step_hostRd hs] at ht
    cases ht
    rfl
  · rw [step_hostRdB hs] at ht
    cases ht
    rfl

/-- Settles O6, kind of event by kind of event. -/
theorem stepIsOneTransition : Obligations.StepIsOneTransition := by
  intro s rest
  refine ⟨fun n => step_hostRd, fun n w hs => ?_, fun sp i => step_hostRdB, fun sp i b hs => ?_, fun sp w as => step_read,
    fun hs => ?_, fun hs hb => ?_, fun hs hb => ?_, fun hs hb => ?_, fun hs hb => ?_⟩
  · exact step_of_script hs
  · exact step_of_script hs
  · exact step_of_script hs
  · rw [step_of_script hs]
    exact engineTurn_busy { s with script := rest } hb
  · rw [step_of_script hs]
    exact engineTurn_idle { s with script := rest } hb
  · rw [step, hs]
    exact engineTurn_busy s hb
  · rw [step, hs]
    exact engineTurn_idle s hb

/-- Settles O32, register by register; the codes of R240 are those of `errCode`. -/
theorem hostReadsRegisters : Obligations.HostReadsRegisters := by
  refine fun s => ⟨rfl, fun hb => ⟨hostRd_status_busy hb, hostRd_tlen_busy hb⟩, fun hb => ?_, hostRd_ctrl s, rfl, rfl,
    toNat_hostRd_ctlen s, fun n hn => hostRd_of_seven_le s hn⟩
  obtain ⟨hbusy, hdone, hvok, hcy⟩ := getLsbD_statusWord s.stat
  obtain ⟨hlow, herr, hhigh⟩ := extractLsb'_statusWord s.stat
  rw [hostRd_status_idle hb]
  refine ⟨hbusy.trans hb, hdone, hvok, hcy, hlow, ?_, hhigh, toNat_hostRd_tlen_idle hb⟩
  rw [herr]
  cases s.stat.err <;> rfl

/-- Settles O33, register by register: a length register keeps the low bits of the word. -/
theorem hostWritesRegisters : Obligations.HostWritesRegisters := by
  refine fun s w => ⟨fun hb => hostWr_cmd_idle hb w, fun hb => hostWr_cmd_busy hb w, hostWr_status w s, rfl, fun hb => ?_,
    fun _ hb => ?_, fun n hn => hostWr_of_six_le hn w s⟩
  · exact ⟨hostWr_busy hb (by decide) w, hostWr_busy hb (by decide) w, hostWr_busy hb (by decide) w⟩
  · exact ⟨⟨_, hostWr_klen_idle hb w, toNat_truncTo _ w⟩, ⟨_, hostWr_mlen_idle hb w, toNat_truncTo _ w⟩,
      ⟨_, hostWr_ctlen_idle hb w, BitVec.toNat_setWidth 8 w⟩⟩

/-- Settles O34: of an idle engine every space but `KEY` reads its byte inside its size, and 7 and up have no size. -/
theorem hostReadsBytes : Obligations.HostReadsBytes := by
  refine fun s sp i => ⟨fun hb => hostRdB_busy hb sp i, fun hb hsp => ?_, fun hb => ?_⟩
  · obtain rfl | hsp := hsp
    · simp [hostRdB]
    · rw [hostRdB_idle hb (by omega), spaceSize_of_seven_le _ hsp, if_neg (Nat.not_lt_zero i)]
  · exact ⟨hostRdB_idle hb (by decide) i, hostRdB_idle hb (by decide) i, hostRdB_idle hb (by decide) i,
      hostRdB_idle hb (by decide) i, hostRdB_idle hb (by decide) i, hostRdB_idle hb (by decide) i⟩

/-- Settles O36, from what each of the four accesses does while `BUSY = 1`. -/
theorem busyFreezesTheInputs : Obligations.BusyFreezesTheInputs := fun s hb =>
  ⟨fun _ w hn => hostWr_busy hb hn w, fun _ => rfl, hostWrB_busy hb, hostRdB_busy hb, hostRd_status_busy hb,
    hostRd_tlen_busy hb, rfl, hostRd_ctrl s, rfl, rfl, toNat_hostRd_ctlen s⟩

end Sys2Proof.Machine
end

section
/-! PROOFS. The statements of spec/30_encoding.md: which words are commands and what issuing the others does (R80 to
R86), what a step makes of a command word and of `WAIT` (R84, R89), what a command leaves unchanged (R85), and the whole
programs of the calls `Sign` and `Verify` (R90, R91). The programs need that the engine's steps lead to what `exec`
answers (R186), which is proved of every command (`engineTurns_issued`). -/

namespace Sys2Proof.Machine

/-! ## The command words -/

theorem decode_encode (i : Instr) : decode (encode i) = .ok i := by cases i <;> decide

/-- R84, first half. -/
theorem decode_eq_ok_iff (w : Word) (i : Instr) : decode w = .ok i ↔ w = encode i :=
  ⟨eq_encode_of_decode, fun h => h ▸ decode_encode i⟩

/-- R84, second half. -/
theorem decode_eq_error_iff (w : Word) : (∃ e, decode w = .error e) ↔ ∀ i, w ≠ encode i := by
  simp only [ne_eq, ← decode_eq_ok_iff]
  cases decode w with
  | ok i => simp
  | error e => simp

theorem decodeTableWord_eq_some_iff (nbits w : Nat) (i : Instr) :
    decodeTableWord nbits w = some i ↔ (nbits ≤ 32 ∧ w < 2 ^ 32) ∧ decode (BitVec.ofNat 32 w) = .ok i := by
  unfold decodeTableWord decode?
  split
  case isTrue h =>
    rw [and_iff_right h]
    cases decode (BitVec.ofNat 32 w) <;> simp [Except.toOption]
  case isFalse h => simp only [h, false_and, reduceCtorEq]

/-- Settles O1: the legal words are those of `encode`, and each illegal word fails the check named. -/
theorem specWordsDecode : Obligations.SpecWordsDecode :=
  ⟨⟨decode_encode .signHmac, decode_encode .signCmac, decode_encode .verifyHmac, decode_encode .verifyCmac,
    decode_encode .deriveCmac, decode_encode .dbl, decode_encode .clear⟩, by decide⟩

/-- Settles O2: the host's number of a 32-bit row is the word. -/
theorem encodedCommandDecodesToItself : Obligations.EncodedCommandDecodesToItself := by
  refine fun i => ⟨decode_encode i, ?_, by cases i <;> decide⟩
  rw [decodeTableWord_eq_some_iff, BitVec.ofNat_toNat, BitVec.setWidth_eq]
  exact ⟨⟨Nat.le_refl 32, (encode i).isLt⟩, decode_encode i⟩

/-- Settles O3: the words that decode are those of `encode`, and decoding refuses every other. -/
theorem onlySevenWordsAreLegal : Obligations.OnlySevenWordsAreLegal := fun w =>
  ⟨decode_eq_ok_iff w, decode_eq_error_iff w⟩

/-! ## Illegal words -/

/-- The illegal words are the numbers that are none of the seven words of R83. -/
theorem decode_eq_error_iff_toNat (w : Word) :
    (∃ e, decode w = .error e) ↔
      w.toNat ≠ 0x01 ∧ w.toNat ≠ 0x11 ∧ w.toNat ≠ 0x02 ∧ w.toNat ≠ 0x12 ∧ w.toNat ≠ 0x13 ∧ w.toNat ≠ 0x04 ∧
        w.toNat ≠ 0x0F := by
  simp only [decode_eq_error_iff, ne_eq, ← BitVec.toNat_inj]
  refine ⟨fun h => ⟨h .signHmac, h .signCmac, h .verifyHmac, h .verifyCmac, h .deriveCmac, h .dbl, h .clear⟩, ?_⟩
  rintro ⟨h1, h2, h3, h4, h5, h6, h7⟩ i
  cases i <;> assumption

/-- R182: the issue of an illegal word. -/
theorem issue_of_error {w : Word} {e : Illegal} (h : decode w = .error e) (s : State) :
    issue w s = rejectCommand (issueActions w s) := by
  simp only [issue, h]

theorem performCommand_of_error {w : Word} {e : Illegal} (h : decode w = .error e) (s : State) :
    performCommand w s = .next (hostWr 0 w s) := by
  simp only [performCommand, h]

theorem performCommand_of_ok {w : Word} {i : Instr} (h : decode w = .ok i) (s : State) :
    performCommand w s = exec i s := by
  simp only [performCommand, h]

/-- Settles O4: the numbers that R86 describes field by field are those that are none of the seven words, and the issue
of any of them ends in the rejection of R182. -/
theorem illegalWordsAreReported : Obligations.IllegalWordsAreReported := by
  refine fun s w hb => ⟨?_, ?_⟩
  · have hw := w.isLt
    rw [decode_eq_error_iff_toNat]
    omega
  · rintro ⟨e, he⟩
    refine ⟨?_, performCommand_of_error he s⟩
    rw [hostWr_cmd_idle hb, issue_of_error he]
    simp only [rejectCommand, issueActions, hb]

/-! ## A step -/

/-- Settles O5: `perform` of a command word decodes it, and a word placed by `withFetchWord` is the next event. -/
theorem stepRunsTheDecodedCommand : Obligations.StepRunsTheDecodedCommand := by
  refine ⟨fun s w rest i hs hd => ?_, fun s w rest e hs hd => ?_, fun s nbits w i hd => ?_⟩
  · rw [step_of_script hs]
    exact performCommand_of_ok hd _
  · rw [step_of_script hs]
    exact performCommand_of_error hd _
  · rw [decodeTableWord_eq_some_iff] at hd
    rw [step_of_script (s := s.withFetchWord nbits w) rfl]
    exact performCommand_of_ok hd.2 s

section Wait

variable {s : State} {rest : List Event} (hs : s.script = .wait :: rest)

include hs

theorem step_wait_busy (hb : s.stat.busy = true) : step s = engineStep s := by
  rw [step_of_script hs, perform, performWait, if_pos hb, ← hs]

theorem step_wait_done (hb : s.stat.busy = false) (hd : s.stat.done = true) :
    step s = .next { s with script := rest } := by
  rw [step_of_script hs]
  simp [perform, performWait, hb, hd]

theorem step_wait_poll (hb : s.stat.busy = false) (hd : s.stat.done = false) : step s = .next s := by
  rw [step_of_script hs]
  simp [perform, performWait, hb, hd, ← hs]

end Wait

/-- Settles O7, case by case of `BUSY` and `DONE`. -/
theorem waitPollsUntilDone : Obligations.WaitPollsUntilDone := fun _ _ hs =>
  ⟨step_wait_busy hs, step_wait_done hs, step_wait_poll hs⟩

/-! ## The frame of the commands -/

/-- The frame of a command: every branch of its pseudocode ends in an abort or the completion, which leave the inputs as
they are; before that only `DBL` and `CLEAR` write them. -/
theorem exec_next_frame {i : Instr} {s t : State} (h : exec i s = .next t) :
    t.ie = s.ie ∧ t.cfg = s.cfg ∧ t.script = s.script ∧ t.answers = s.answers ∧
      (t.inp = s.inp ∨ (i = .dbl ∧ t.inp = { s.inp with v := dbl s.inp.v }) ∨ i = .clear) := by
  cases hb : s.stat.busy with
  | true =>
    rw [exec_busy hb] at h
    cases h
    exact ⟨rfl, rfl, rfl, rfl, .inl rfl⟩
  | false =>
    cases i <;>
      simp only [exec, execSignHmac, execSignCmac, execVerifyHmac, execVerifyCmac, execDeriveCmac, execDbl, execClear,
        runCommand_idle _ s _ hb] at h
    case dbl =>
      cases h
      exact ⟨rfl, rfl, rfl, rfl, .inr (.inl ⟨rfl, rfl⟩)⟩
    case clear =>
      cases h
      exact ⟨rfl, rfl, rfl, rfl, .inr (.inr rfl)⟩
    all_goals
      cases h
      repeat' split
    all_goals exact ⟨rfl, rfl, rfl, rfl, .inl rfl⟩

/-- Settles O20, from the frame of a command, by what it has done to the inputs. -/
theorem commandsLeaveInputs : Obligations.CommandsLeaveInputs := by
  intro i s t h
  obtain ⟨hie, hcfg, hscript, hanswers, hinp⟩ := exec_next_frame h
  refine ⟨hie, hcfg, hscript, hanswers, ?_⟩
  obtain hi | ⟨rfl, hi⟩ | rfl := hinp
  · exact ⟨fun _ => by rw [hi], fun _ _ => by rw [hi]⟩
  · exact ⟨fun _ => by rw [hi], fun _ hd => absurd rfl hd⟩
  · exact ⟨fun hc => absurd rfl hc, fun hc => absurd rfl hc⟩

/-! ## What the steps of the engine lead to

Each lemma runs the engine from a step of a command to the command's end; the last steps come first. -/

/-- A digest's bytes and then zeros, as a value (R12, R142). -/
theorem ofBytes_bytesOf_append_zeros (d : Digest) :
    ofBytes 512 (bytesOf d ++ List.replicate 32 0) = d ++ (0 : Digest) := by
  refine eq_of_byteAt_eq (n := 64) _ _ fun i hi => ?_
  have hl : (bytesOf d ++ List.replicate 32 (0 : Byte)).length = 64 := by simp
  rw [byteAt_ofBytes 64 _ hl i hi]
  refine BitVec.eq_of_getLsbD_eq fun j hj => ?_
  rw [getLsbD_byteAt, BitVec.getLsbD_append]
  by_cases h32 : i < 32
  · have hlen : i < (bytesOf d).length := by simpa using h32
    rw [List.getD_append _ _ _ _ hlen, List.getD_eq_getElem _ _ hlen, getElem_bytesOf, getLsbD_byteAt,
      if_neg (by omega), show 512 - 8 * (i + 1) + j - 256 = 256 - 8 * (i + 1) + j by omega]
  · rw [List.getD_append_right _ _ _ _ (by simpa using h32), List.getD_eq_getElem?_getD,
      List.getElem?_getD_replicate_default_eq, if_pos (by omega)]
    simp

/-- R142, a key longer than 64 bytes. -/
theorem normalizeKey_of_long {key : List Byte} (h : 64 < key.length) (c : Config) :
    normalizeKey c key = (hashPort c key).map fun d => d ++ (0 : Digest) := by
  have hz (d : Digest) : zeroExtendKey (bytesOf d) = bytesOf d ++ List.replicate 32 0 := by
    unfold zeroExtendKey
    rw [length_bytesOf, if_pos (by omega)]
  simp only [normalizeKey, hashLongKey, if_pos h, Option.map_map, Function.comp_def, hz, ofBytes_bytesOf_append_zeros]

/-- R142, a key of at most 64 bytes. -/
theorem normalizeKey_of_short {key : List Byte} (h : key.length ≤ 64) (c : Config) :
    normalizeKey c key = some (ofBytes 512 (key ++ List.replicate (64 - key.length) 0)) := by
  have hz : zeroExtendKey key = key ++ List.replicate (64 - key.length) 0 := by
    unfold zeroExtendKey
    split
    · rfl
    · rw [show 64 - key.length = 0 by omega, List.replicate_zero, List.append_nil]
  rw [normalizeKey, hashLongKey, if_neg (Nat.not_lt.mpr h), Option.map_some, hz]

/-- R140, as one chain of computations that may fail. -/
theorem hmac_eq_bind (c : Config) (key msg : List Byte) :
    hmac c key msg = (normalizeKey c key).bind fun k0 =>
      (hashPort c (bytesOf (xorBytes k0 innerPadByte) ++ msg)).bind fun d =>
        hashPort c (bytesOf (xorBytes k0 outerPadByte) ++ bytesOf d) := by
  unfold hmac
  cases normalizeKey c key with
  | none => rfl
  | some k0 =>
    dsimp only [Option.bind_some]
    cases hashPort c (bytesOf (xorBytes k0 innerPadByte) ++ msg) <;> rfl

/-- R120, as one chain of computations that may fail. -/
theorem cmac_eq_bind (c : Config) (key : Block) (msg : List Byte) :
    cmac c key msg = (encPort c key 0).bind fun l =>
      (chain c key (wholeBlocks msg (blockCount msg.length - 1)) 0).bind fun x =>
        encPort c key (x ^^^
          finalBlock msg.length (msg.drop (16 * (blockCount msg.length - 1))) (dbl l) (dbl (dbl l))) := by
  unfold cmac subkeys
  cases encPort c key 0 with
  | none => rfl
  | some l =>
    dsimp only [Option.bind_some]
    cases chain c key (wholeBlocks msg (blockCount msg.length - 1)) 0 <;> rfl

/-- The chaining takes the first block and goes on with what the cipher answers (R125). -/
theorem chain_cons (c : Config) (key b x : Block) (bs : List Block) :
    chain c key (b :: bs) x = (encPort c key (x ^^^ b)).bind (chain c key bs) := by
  rw [chain]
  cases encPort c key (x ^^^ b) <;> rfl

/-! ### The steps that invoke a primitive -/

theorem stepSL_eq (s : State) :
    stepSL s = .next ((encPort s.cfg (cipherKey s) 0).elim (raise .primitiveFailure s)
      fun l => goto .sK1 { s with work := { s.work with l := l } }) := by
  unfold stepSL
  cases encPort s.cfg (cipherKey s) 0 <;> rfl

/-- The commands that derive the subkeys (R106). -/
def subkeyInstrs : List Instr := [.deriveCmac, .signCmac, .verifyCmac]

/-- The step after the subkeys (R185). -/
def afterSubkeys (i : Instr) : Phase := if i = .deriveCmac then .fin else .cInit

theorem stepSK2_eq {i : Instr} (hi : i ∈ subkeyInstrs) {s : State} (hir : s.ir = encode i) :
    stepSK2 s = .next (goto (afterSubkeys i) { s with out := { s.out with k2 := dbl s.out.k1 } }) := by
  unfold stepSK2
  rw [irCommand_of_ir s i hir]
  simp only [subkeyInstrs, List.mem_cons, List.not_mem_nil, or_false] at hi
  obtain rfl | rfl | rfl := hi <;> rfl

theorem stepCEnc_eq {s : State} (hfit : s.work.blk + 1 < 2 ^ (s.cfg.lenw - 3)) :
    stepCEnc s = .next ((encPort s.cfg (cipherKey s) s.work.y).elim (raise .primitiveFailure s)
      fun x => goto (if s.work.blk + 1 < s.work.n - 1 then .cXor else .cFXor)
        { s with work := { s.work with x := x, blk := s.work.blk + 1 } }) := by
  unfold stepCEnc
  rw [counter_of_lt _ _ hfit]
  cases encPort s.cfg (cipherKey s) s.work.y <;> rfl

theorem stepHInner_eq (s : State) :
    stepHInner s = .next ((hashPort s.cfg (bytesOf s.work.ipad ++ msgBytes s)).elim (raise .primitiveFailure s)
      fun d => goto .hOuter { s with work := { s.work with idig := d } }) := by
  unfold stepHInner
  cases hashPort s.cfg (bytesOf s.work.ipad ++ msgBytes s) <;> rfl

/-- `H_NORM` normalises the key (R142, R146). -/
theorem stepHNorm_eq (s : State) :
    stepHNorm s = .next ((normalizeKey s.cfg (keyBytes s)).elim (raise .primitiveFailure s)
      fun k0 => goto .hPads { s with work := { s.work with k0 := k0 } }) := by
  unfold stepHNorm
  split
  case isTrue hlong =>
    rw [normalizeKey_of_long (by simpa using hlong)]
    cases hashPort s.cfg (keyBytes s) <;> rfl
  case isFalse hlong =>
    rw [normalizeKey_of_short (by simpa using hlong), length_keyBytes]
    split
    case isTrue => rfl
    case isFalse hshort =>
      have h64 : s.inp.klen.toNat = 64 := by omega
      simp only [keyBytes, h64, Nat.sub_self, List.replicate_zero, List.append_nil, Option.elim_some]

/-- The step that takes a computed tag, to release it or to compare it with the claimed one (R185). -/
def tagPhase : Instr → Phase
  | .verifyHmac => .oCmp
  | .verifyCmac => .oCmp
  | _ => .oTag

theorem stepCFEnc_eq {i : Instr} (hi : i = .signCmac ∨ i = .verifyCmac) {s : State} (hir : s.ir = encode i) :
    stepCFEnc s = .next ((encPort s.cfg (cipherKey s) s.work.y).elim (raise .primitiveFailure s)
      fun x => goto (tagPhase i) { s with work := { s.work with x := x, t := tagOfBlock x } }) := by
  unfold stepCFEnc
  rw [irCommand_of_ir s i hir]
  obtain rfl | rfl := hi <;> cases encPort s.cfg (cipherKey s) s.work.y <;> rfl

theorem stepHOuter_eq {i : Instr} (hi : i = .signHmac ∨ i = .verifyHmac) {s : State} (hir : s.ir = encode i) :
    stepHOuter s = .next ((hashPort s.cfg (bytesOf s.work.opad ++ bytesOf s.work.idig)).elim
      (raise .primitiveFailure s) fun d => goto (tagPhase i) { s with work := { s.work with t := d } }) := by
  unfold stepHOuter
  rw [irCommand_of_ir s i hir]
  obtain rfl | rfl := hi <;> cases hashPort s.cfg (bytesOf s.work.opad ++ bytesOf s.work.idig) <;> rfl

/-! ### The steps that take a tag -/

/-- The commands that compute a tag (R83). -/
def tagInstrs : List Instr := [.signHmac, .signCmac, .verifyHmac, .verifyCmac]

/-- What the step at `tagPhase` does with the tag (R164, R188). -/
def takeTag (i : Instr) (t : Digest) (s : State) : State :=
  match i with
  | .verifyHmac => compareTag t (tagLen i) s
  | .verifyCmac => compareTag t (tagLen i) s
  | _ => releaseTag t (tagLen i) s

theorem takeTag_busy (i : Instr) (t : Digest) (s : State) : (takeTag i t s).stat.busy = s.stat.busy := by
  cases i <;> rfl

theorem engineStep_tagPhase {i : Instr} (hi : i ∈ tagInstrs) {s : State} (hir : s.ir = encode i)
    (hp : s.ph = tagPhase i) : engineStep s = .next (goto .fin (takeTag i s.work.t s)) := by
  have hc := irCommand_of_ir s i hir
  simp only [tagInstrs, List.mem_cons, List.not_mem_nil, or_false] at hi
  obtain rfl | rfl | rfl | rfl := hi <;> simp only [engineStep, hp, tagPhase, stepOTag, stepOCmp, hc, takeTag]

/-- `FIN` (R190). -/
theorem engineTurns_fin {s : State} (hb : s.stat.busy = true) (n : Nat) :
    engineTurns (n + 1) (goto .fin s) = .next (complete s) := by
  rw [engineTurns_succ n (goto .fin s) (complete s) hb rfl, engineTurns_idle n _ rfl]

/-- `V_LEN`, a claimed tag of the wrong length (R161). -/
theorem stepVLen_of_ne {alg : Alg} {s : State} (hir : s.ir = encode (verifyInstr alg))
    (hne : s.inp.ctlen.toNat ≠ tagLen (verifyInstr alg)) : stepVLen s = .next (goto .fin (noteTagLength s)) := by
  rw [stepVLen, irCommand_of_ir s _ hir]
  cases alg <;> exact if_pos hne

/-- `V_LEN`, a claimed tag of the right length: the command goes on as the `SIGN` of the same algorithm (R161). -/
theorem stepVLen_of_eq {alg : Alg} {s : State} (hir : s.ir = encode (verifyInstr alg))
    (heq : s.inp.ctlen.toNat = tagLen (verifyInstr alg)) :
    stepVLen s = .next (goto (firstPhase (signInstr alg)) s) := by
  rw [stepVLen, irCommand_of_ir s _ hir]
  cases alg <;> exact if_neg (not_not.mpr heq)

/-! ### From a step to the end of the command -/

/-- The state `s` of a running command when it has come to the step `p` with these working registers and subkeys. -/
def atStep (p : Phase) (w : Work) (k1 k2 : Block) (s : State) : State :=
  { s with ph := p, work := w, out := { s.out with k1 := k1, k2 := k2 } }

/-- The end of a command, from the tag it has computed: the abort where a primitive failed, else the completion. -/
def outcome (i : Instr) (s : State) (tag : Option Digest) : State :=
  tag.elim (raise .primitiveFailure s) fun t => complete (takeTag i t s)

/-- The completion wipes the working registers and the subkeys that the steps have written. -/
theorem complete_takeTag_atStep {i : Instr} (hi : i ∈ tagInstrs) {s : State} (hir : s.ir = encode i) (t : Digest)
    (p : Phase) (w : Work) (k1 k2 : Block) :
    complete (takeTag i t (atStep p w k1 k2 s)) = complete (takeTag i t s) := by
  have hne : s.ir ≠ encode .deriveCmac := by
    rw [hir]
    revert hi
    cases i <;> decide
  cases i <;> simp [takeTag, atStep, complete, releaseTag, compareTag, ctagBytes, hne]

section Runs

variable {i : Instr} {s : State} {p p' : Phase} {w w' : Work} {k1 k2 k1' k2' : Block} (hb : s.stat.busy = true)

include hb

theorem engineTurns_atStep_abort {k : ErrKind} (h : engineStep (atStep p w k1 k2 s) = .next (raise k s)) (n : Nat) :
    engineTurns (n + 1) (atStep p w k1 k2 s) = .next (raise k s) := by
  rw [engineTurns_succ n (atStep p w k1 k2 s) _ hb h, engineTurns_raise]

theorem engineTurns_atStep_next (h : engineStep (atStep p w k1 k2 s) = .next (atStep p' w' k1' k2' s)) (n : Nat) :
    engineTurns (n + 1) (atStep p w k1 k2 s) = engineTurns n (atStep p' w' k1' k2' s) :=
  engineTurns_succ n (atStep p w k1 k2 s) _ hb h

/-- A step that invokes a primitive: the command aborts when it fails, and goes on with its answer when it does not. -/
theorem engineTurns_atStep_port {α β : Type} {answer : Option α} {next : α → State} {f : α → Option β}
    {finish : β → State} {n : Nat}
    (h : engineStep (atStep p w k1 k2 s) = .next (answer.elim (raise .primitiveFailure s) next))
    (hnext : ∀ a, engineTurns n (next a) = .next ((f a).elim (raise .primitiveFailure s) finish)) :
    engineTurns (n + 1) (atStep p w k1 k2 s) =
      .next ((answer.bind f).elim (raise .primitiveFailure s) finish) := by
  cases answer with
  | none => exact engineTurns_atStep_abort hb h n
  | some a => exact (engineTurns_succ n (atStep p w k1 k2 s) (next a) hb h).trans (hnext a)

variable (hir : s.ir = encode i)

include hir

theorem engineTurns_tagPhase (hi : i ∈ tagInstrs) (w : Work) (k1 k2 : Block) :
    engineTurns 2 (atStep (tagPhase i) w k1 k2 s) = .next (outcome i s (some w.t)) := by
  have hbusy := (takeTag_busy i w.t (atStep (tagPhase i) w k1 k2 s)).trans hb
  rw [engineTurns_succ 1 (atStep (tagPhase i) w k1 k2 s) _ hb (engineStep_tagPhase hi hir rfl)]
  refine (engineTurns_fin hbusy 0).trans ?_
  rw [complete_takeTag_atStep hi hir]
  rfl

section Hmac

variable (hi : i = .signHmac ∨ i = .verifyHmac) (w : Work) (k1 k2 : Block)

include hi

theorem engineTurns_hOuter :
    engineTurns 3 (atStep .hOuter w k1 k2 s) =
      .next (outcome i s (hashPort s.cfg (bytesOf w.opad ++ bytesOf w.idig))) := by
  have hmem : i ∈ tagInstrs := by obtain rfl | rfl := hi <;> decide
  rw [← Option.bind_fun_some (hashPort s.cfg (bytesOf w.opad ++ bytesOf w.idig))]
  exact engineTurns_atStep_port hb (stepHOuter_eq hi (s := atStep .hOuter w k1 k2 s) hir)
    fun d => engineTurns_tagPhase hb hir hmem { w with t := d } k1 k2

theorem engineTurns_hInner :
    engineTurns 4 (atStep .hInner w k1 k2 s) =
      .next (outcome i s ((hashPort s.cfg (bytesOf w.ipad ++ msgBytes s)).bind fun d =>
        hashPort s.cfg (bytesOf w.opad ++ bytesOf d))) :=
  engineTurns_atStep_port hb (stepHInner_eq (atStep .hInner w k1 k2 s))
    fun d => engineTurns_hOuter hb hir hi { w with idig := d } k1 k2

/-- `H_NORM` to `FIN` (R146 to R149). -/
theorem engineTurns_hNorm :
    engineTurns 6 (atStep .hNorm w k1 k2 s) = .next (outcome i s (hmac s.cfg (keyBytes s) (msgBytes s))) := by
  rw [hmac_eq_bind]
  refine engineTurns_atStep_port hb (stepHNorm_eq (atStep .hNorm w k1 k2 s)) fun k0 => ?_
  have hpads : engineStep (atStep .hPads { w with k0 := k0 } k1 k2 s) = .next (atStep .hInner { w with
      k0 := k0, ipad := xorBytes k0 innerPadByte, opad := xorBytes k0 outerPadByte } k1 k2 s) := rfl
  exact (engineTurns_atStep_next hb hpads 4).trans (engineTurns_hInner hb hir hi _ k1 k2)

end Hmac

/-- `S_CHK` to `S_K2` (R107 to R110), before what is known of the steps after them. -/
theorem engineTurns_subkeys (hi : i ∈ subkeyInstrs) {β : Type} {f : Block → Option β} {finish : β → State} {n : Nat}
    (w : Work) (k1 k2 : Block)
    (hnext : ∀ l, engineTurns n (atStep (afterSubkeys i) { w with l := l } (dbl l) (dbl (dbl l)) s) =
      .next ((f l).elim (raise .primitiveFailure s) finish)) :
    engineTurns (n + 4) (atStep .sChk w k1 k2 s) =
      .next (if s.inp.klen ≠ 16 then raise .keyLengthInvalid s
        else ((encPort s.cfg (cipherKey s) 0).bind f).elim (raise .primitiveFailure s) finish) := by
  split
  case isTrue hk =>
    have hchk : engineStep (atStep .sChk w k1 k2 s) = .next (raise .keyLengthInvalid s) := if_pos hk
    exact engineTurns_atStep_abort hb hchk _
  case isFalse hk =>
    have hchk : engineStep (atStep .sChk w k1 k2 s) = .next (atStep .sL w k1 k2 s) := if_neg hk
    rw [engineTurns_atStep_next hb hchk]
    refine engineTurns_atStep_port hb (stepSL_eq (atStep .sL w k1 k2 s)) fun l => ?_
    have hk1 : engineStep (atStep .sK1 { w with l := l } k1 k2 s) =
        .next (atStep .sK2 { w with l := l } (dbl l) k2 s) := rfl
    have hk2 : engineStep (atStep .sK2 { w with l := l } (dbl l) k2 s) =
        .next (atStep (afterSubkeys i) { w with l := l } (dbl l) (dbl (dbl l)) s) :=
      stepSK2_eq hi (s := atStep .sK2 { w with l := l } (dbl l) k2 s) hir
    exact (engineTurns_atStep_next hb hk1 _).trans ((engineTurns_atStep_next hb hk2 _).trans (hnext l))

section Cmac

variable (hi : i = .signCmac ∨ i = .verifyCmac)

include hi

theorem engineTurns_cFEnc (w : Work) (k1 k2 : Block) :
    engineTurns 3 (atStep .cFEnc w k1 k2 s) =
      .next (outcome i s ((encPort s.cfg (cipherKey s) w.y).map tagOfBlock)) := by
  have hmem : i ∈ tagInstrs := by obtain rfl | rfl := hi <;> decide
  rw [Option.map_eq_bind]
  exact engineTurns_atStep_port hb (stepCFEnc_eq hi (s := atStep .cFEnc w k1 k2 s) hir)
    fun x => engineTurns_tagPhase hb hir hmem { w with x := x, t := tagOfBlock x } k1 k2

theorem engineTurns_cFXor (w : Work) (k1 k2 : Block) :
    engineTurns 4 (atStep .cFXor w k1 k2 s) =
      .next (outcome i s ((encPort s.cfg (cipherKey s) (w.x ^^^ w.fb)).map tagOfBlock)) :=
  (engineTurns_atStep_next (w' := { w with y := w.x ^^^ w.fb }) hb rfl 3).trans
    (engineTurns_cFEnc hb hir hi _ k1 k2)

/-- The loop `C_XOR`, `C_ENC` over the `k` blocks that are left, and the final block (R125, R126, R129 to R133). -/
theorem engineTurns_loop (k1 k2 : Block) (k : Nat) (w : Work) (hk : w.blk + k = w.n - 1)
    (hn : w.n < 2 ^ (s.cfg.lenw - 3)) :
    engineTurns (2 * k + 4) (atStep (if w.blk < w.n - 1 then .cXor else .cFXor) w k1 k2 s) =
      .next (outcome i s (((chain s.cfg (cipherKey s) ((List.range' w.blk k).map (msgBlock s)) w.x).bind fun x =>
        encPort s.cfg (cipherKey s) (x ^^^ w.fb)).map tagOfBlock)) := by
  induction k generalizing w with
  | zero =>
    rw [if_neg (by omega)]
    exact engineTurns_cFXor hb hir hi w k1 k2
  | succ k ih =>
    rw [if_pos (by omega), List.range'_succ, List.map_cons, chain_cons, Option.bind_assoc, Option.map_bind]
    refine (engineTurns_atStep_next (w' := { w with y := w.x ^^^ msgBlock s w.blk }) hb rfl (2 * k + 5)).trans ?_
    exact engineTurns_atStep_port hb
      (stepCEnc_eq (s := atStep .cEnc { w with y := w.x ^^^ msgBlock s w.blk } k1 k2 s) (by simp only [atStep]; omega))
      fun x => ih { w with y := w.x ^^^ msgBlock s w.blk, x := x, blk := w.blk + 1 } (by simp only; omega) hn

/-- `C_INIT` to `FIN`: the blocks read from `MSG` are those of the message string (R122, R128 to R133). -/
theorem engineTurns_cInit (h : InputsFit s.cfg s.inp) (w : Work) (k1 k2 : Block) :
    engineTurns (2 * (blockCount s.inp.mlen.toNat - 1) + 6) (atStep .cInit w k1 k2 s) =
      .next (outcome i s (((chain s.cfg (cipherKey s)
          (wholeBlocks (msgBytes s) (blockCount (msgBytes s).length - 1)) 0).bind fun x =>
        encPort s.cfg (cipherKey s) (x ^^^ finalBlock (msgBytes s).length
          ((msgBytes s).drop (16 * (blockCount (msgBytes s).length - 1))) k1 k2)).map tagOfBlock)) := by
  have hcount := h.counter_blockCount
  have hfit : blockCount s.inp.mlen.toNat < 2 ^ (s.cfg.lenw - 3) := hcount ▸ counter_lt _ _
  have hwhole : 16 * (blockCount s.inp.mlen.toNat - 1) ≤ s.inp.mlen.toNat := by
    unfold blockCount
    omega
  rw [length_msgBytes, wholeBlocks_msgBytes s _ hwhole, List.range_eq_range']
  have hinit : engineStep (atStep .cInit w k1 k2 s) =
      .next (atStep .cSel { w with n := blockCount s.inp.mlen.toNat, x := 0, blk := 0 } k1 k2 s) := by
    rw [← hcount]
    rfl
  have hsel : engineStep (atStep .cSel { w with n := blockCount s.inp.mlen.toNat, x := 0, blk := 0 } k1 k2 s) =
      .next (atStep (if 0 < blockCount s.inp.mlen.toNat - 1 then .cXor else .cFXor) { w with
        n := blockCount s.inp.mlen.toNat, x := 0, blk := 0
        fb := finalBlock s.inp.mlen.toNat ((msgBytes s).drop (16 * (blockCount s.inp.mlen.toNat - 1))) k1 k2 }
        k1 k2 s) := by
    rw [drop_msgBytes s _ rfl]
    rfl
  rw [engineTurns_atStep_next hb hinit, engineTurns_atStep_next hb hsel]
  exact engineTurns_loop hb hir hi k1 k2 _ _ (Nat.zero_add _) hfit

/-- `S_CHK` to `FIN` (R107 to R110, R120). -/
theorem engineTurns_sChk (h : InputsFit s.cfg s.inp) (w : Work) (k1 k2 : Block) :
    engineTurns (2 * blockCount s.inp.mlen.toNat + 8) (atStep .sChk w k1 k2 s) =
      .next (if s.inp.klen ≠ 16 then raise .keyLengthInvalid s
        else outcome i s ((cmac s.cfg (cipherKey s) (msgBytes s)).map tagOfBlock)) := by
  have hn : 2 * blockCount s.inp.mlen.toNat + 8 = 2 * (blockCount s.inp.mlen.toNat - 1) + 6 + 4 := by
    unfold blockCount
    omega
  have hsub : i ∈ subkeyInstrs := by obtain rfl | rfl := hi <;> decide
  have hafter : afterSubkeys i = .cInit := by obtain rfl | rfl := hi <;> rfl
  rw [hn, cmac_eq_bind, Option.map_bind]
  exact engineTurns_subkeys hb hir hsub w k1 k2 fun l => by
    rw [hafter]
    exact engineTurns_cInit hb hir hi h { w with l := l } (dbl l) (dbl (dbl l))

end Cmac

end Runs

/-! ### Whole commands

The issue leaves the operands as they were (R181). -/

@[simp] theorem issued_cfg (i : Instr) (s : State) : (issued i s).cfg = s.cfg := rfl
@[simp] theorem issued_inp (i : Instr) (s : State) : (issued i s).inp = s.inp := rfl
@[simp] theorem keyBytes_issued (i : Instr) (s : State) : keyBytes (issued i s) = keyBytes s := rfl
@[simp] theorem cipherKey_issued (i : Instr) (s : State) : cipherKey (issued i s) = cipherKey s := rfl
@[simp] theorem msgBytes_issued (i : Instr) (s : State) : msgBytes (issued i s) = msgBytes s := rfl

/-- `VERIFY` with a claimed tag of the wrong length: `V_LEN`, `FIN`. -/
theorem engineTurns_issued_verify_of_ne {alg : Alg} {s : State}
    (hne : s.inp.ctlen.toNat ≠ tagLen (verifyInstr alg)) :
    engineTurns 2 (issued (verifyInstr alg) s) = .next (complete (noteTagLength (issued (verifyInstr alg) s))) := by
  have hstep : engineStep (issued (verifyInstr alg) s) =
      .next (goto .fin (noteTagLength (issued (verifyInstr alg) s))) := by
    cases alg <;> exact stepVLen_of_ne rfl hne
  rw [engineTurns_succ 1 (issued (verifyInstr alg) s) _ rfl hstep]
  exact engineTurns_fin (s := noteTagLength (issued (verifyInstr alg) s)) rfl 0

/-- `VERIFY` with a claimed tag of the right length, past `V_LEN`. -/
theorem engineTurns_issued_verify_of_eq {alg : Alg} {s : State}
    (heq : s.inp.ctlen.toNat = tagLen (verifyInstr alg)) (n : Nat) :
    engineTurns (n + 1) (issued (verifyInstr alg) s) =
      engineTurns n (goto (firstPhase (signInstr alg)) (issued (verifyInstr alg) s)) := by
  have hstep : engineStep (issued (verifyInstr alg) s) =
      .next (goto (firstPhase (signInstr alg)) (issued (verifyInstr alg) s)) := by
    cases alg <;> exact stepVLen_of_eq rfl heq
  exact engineTurns_succ n (issued (verifyInstr alg) s) _ rfl hstep

section Commands

variable {s : State} (hb : s.stat.busy = false)

include hb

theorem exec_signHmac_idle :
    exec .signHmac s =
      .next (outcome .signHmac (issued .signHmac s) (hmac s.cfg (keyBytes s) (msgBytes s))) := by
  simp only [exec, execSignHmac, runCommand_idle _ s _ hb, issued_cfg, keyBytes_issued, msgBytes_issued]
  cases hmac s.cfg (keyBytes s) (msgBytes s) <;> rfl

theorem exec_signCmac_idle :
    exec .signCmac s = .next (if s.inp.klen ≠ 16 then raise .keyLengthInvalid (issued .signCmac s)
      else outcome .signCmac (issued .signCmac s)
        ((cmac s.cfg (cipherKey s) (msgBytes s)).map tagOfBlock)) := by
  simp only [exec, execSignCmac, runCommand_idle _ s _ hb, issued_cfg, issued_inp, cipherKey_issued, msgBytes_issued]
  cases cmac s.cfg (cipherKey s) (msgBytes s) <;> rfl

theorem exec_verifyHmac_idle :
    exec .verifyHmac s = .next (if s.inp.ctlen.toNat ≠ tagLen .verifyHmac then
        complete (noteTagLength (issued .verifyHmac s))
      else outcome .verifyHmac (issued .verifyHmac s) (hmac s.cfg (keyBytes s) (msgBytes s))) := by
  simp only [exec, execVerifyHmac, runCommand_idle _ s _ hb, issued_cfg, issued_inp, keyBytes_issued, msgBytes_issued]
  cases hmac s.cfg (keyBytes s) (msgBytes s) <;> rfl

theorem exec_verifyCmac_idle :
    exec .verifyCmac s = .next (if s.inp.ctlen.toNat ≠ tagLen .verifyCmac then
        complete (noteTagLength (issued .verifyCmac s))
      else if s.inp.klen ≠ 16 then raise .keyLengthInvalid (issued .verifyCmac s)
      else outcome .verifyCmac (issued .verifyCmac s)
        ((cmac s.cfg (cipherKey s) (msgBytes s)).map tagOfBlock)) := by
  simp only [exec, execVerifyCmac, runCommand_idle _ s _ hb, issued_cfg, issued_inp, cipherKey_issued, msgBytes_issued]
  cases cmac s.cfg (cipherKey s) (msgBytes s) <;> rfl

theorem exec_deriveCmac_idle :
    exec .deriveCmac s = .next (if s.inp.klen ≠ 16 then raise .keyLengthInvalid (issued .deriveCmac s)
      else (encPort s.cfg (cipherKey s) 0).elim (raise .primitiveFailure (issued .deriveCmac s)) fun l =>
        complete { issued .deriveCmac s with
          out := { (issued .deriveCmac s).out with k1 := dbl l, k2 := dbl (dbl l) } }) := by
  simp only [exec, execDeriveCmac, runCommand_idle _ s _ hb, issued_cfg, issued_inp, cipherKey_issued, subkeys]
  cases encPort s.cfg (cipherKey s) 0 <;> rfl

/-- R186: from its issue the engine's steps lead to what `exec` answers, whatever the command. -/
theorem engineTurns_issued (h : InputsFit s.cfg s.inp) (i : Instr) :
    engineTurns (stepCount i s) (issued i s) = exec i s := by
  have hbusy (i : Instr) : (issued i s).stat.busy = true := rfl
  have hir (i : Instr) : (issued i s).ir = encode i := rfl
  cases i with
  | signHmac =>
    rw [exec_signHmac_idle hb]
    exact engineTurns_hNorm (hbusy _) (hir _) (.inl rfl) Work.zero 0 0
  | signCmac =>
    rw [exec_signCmac_idle hb]
    exact engineTurns_sChk (hbusy _) (hir _) (.inl rfl) h Work.zero 0 0
  | verifyHmac =>
    rw [exec_verifyHmac_idle hb, stepCount]
    by_cases hl : s.inp.ctlen.toNat = tagLen .verifyHmac
    · rw [if_pos hl, if_neg (not_not.mpr hl)]
      exact (engineTurns_issued_verify_of_eq (alg := .hmacSha256) hl 6).trans
        (engineTurns_hNorm (hbusy _) (hir _) (.inr rfl) Work.zero 0 0)
    · rw [if_neg hl, if_pos hl]
      exact engineTurns_issued_verify_of_ne (alg := .hmacSha256) hl
  | verifyCmac =>
    rw [exec_verifyCmac_idle hb, stepCount]
    by_cases hl : s.inp.ctlen.toNat = tagLen .verifyCmac
    · rw [if_pos hl, if_neg (not_not.mpr hl)]
      exact (engineTurns_issued_verify_of_eq (alg := .cmacAes128) hl _).trans
        (engineTurns_sChk (hbusy _) (hir _) (.inr rfl) h Work.zero 0 0)
    · rw [if_neg hl, if_pos hl]
      exact engineTurns_issued_verify_of_ne (alg := .cmacAes128) hl
  | deriveCmac =>
    rw [exec_deriveCmac_idle hb, ← Option.bind_fun_some (encPort s.cfg (cipherKey s) 0)]
    exact engineTurns_subkeys (hbusy .deriveCmac) (hir _) (by decide) Work.zero 0 0 fun l => engineTurns_fin
      (s := atStep .fin { Work.zero with l := l } (dbl l) (dbl (dbl l)) (issued .deriveCmac s)) rfl 0
  | dbl =>
    rw [exec, execDbl, runCommand_idle _ s _ hb]
    exact (engineTurns_succ 1 (issued .dbl s) (goto .fin (doubleV (issued .dbl s))) rfl rfl).trans
      (engineTurns_fin (s := doubleV (issued .dbl s)) rfl 0)
  | clear =>
    rw [exec, execClear, runCommand_idle _ s _ hb]
    exact (engineTurns_succ 1 (issued .clear s) (goto .fin (wipeAll (issued .clear s))) rfl rfl).trans
      (engineTurns_fin (s := wipeAll (issued .clear s)) rfl 0)

end Commands

/-! ## The host's lines, run by the stepwise machine -/

/-- The machine comes from the one state to the other. -/
abbrev Reaches : State → State → Prop := Relation.ReflTransGen fun s t => step s = .next t

theorem Reaches.exists_run {s t : State} (h : Reaches s t) : ∃ n, Host.Core.run Sys2Proof.core n s = .next t := by
  induction h using Relation.ReflTransGen.head_induction_on with
  | refl => exact ⟨0, rfl⟩
  | @head a b hstep _ ih =>
    obtain ⟨n, hn⟩ := ih
    have hcore : Sys2Proof.core.step a = .next b := hstep
    refine ⟨n + 1, ?_⟩
    simp only [Host.Core.run, hcore]
    exact hn

/-- The state with this still to happen. -/
def withScript (es : List Event) (s : State) : State := { s with script := es }

/-- The host's lines `es`, whatever is to happen after them, lead from `s` to `t`. -/
def Runs (es : List Event) (s t : State) : Prop :=
  ∀ rest, Reaches (withScript (es ++ rest) s) (withScript rest t)

theorem Runs.nil (s : State) : Runs [] s s := fun _ => .refl

theorem Runs.append {es es' : List Event} {s t u : State} (h : Runs es s t) (h' : Runs es' t u) :
    Runs (es ++ es') s u := by
  intro rest
  rw [List.append_assoc]
  exact (h (es' ++ rest)).trans (h' rest)

theorem Runs.cons {e : Event} {es : List Event} {s t u : State} (h : Runs [e] s t) (h' : Runs es t u) :
    Runs (e :: es) s u := h.append h'

/-- A line that is one step of the machine. -/
theorem Runs.of_perform {e : Event} {s t : State}
    (h : ∀ rest, perform e (withScript rest s) = .next (withScript rest t)) : Runs [e] s t := fun rest =>
  .single ((step_of_script (s := withScript ([e] ++ rest) s) rfl).trans (h rest))

/-! ### Reads -/

theorem runs_hostRd (n : Nat) (s : State) : Runs [.hostRd n] s (answer (.word (hostRd s n)) s) :=
  .of_perform fun _ => rfl

theorem runs_hostRdB (sp i : Nat) (s : State) : Runs [.hostRdB sp i] s (answer (.byte (hostRdB s sp i)) s) :=
  .of_perform fun _ => rfl

/-- A run of byte reads: what the host has read before does not matter. -/
theorem runs_hostRdBs (sp : Nat) (is : List Nat) (s : State) :
    Runs (is.map fun i => .hostRdB sp i) s
      { s with answers := s.answers ++ is.map fun i => .byte (hostRdB s sp i) } := by
  induction is generalizing s with
  | nil =>
    simp only [List.map_nil, List.append_nil]
    exact .nil s
  | cons i is ih =>
    have h := (runs_hostRdB sp i s).cons (ih (answer (.byte (hostRdB s sp i)) s))
    simp only [answer, List.append_assoc] at h
    exact h

/-- `READ` after a read of a word (R89, R90). -/
theorem runs_read (sp : Nat) {s : State} {as : List Answer} {w : Word} (ha : s.answers = as ++ [.word w]) :
    Runs [.read sp] s
      { s with answers := s.answers ++ (List.range w.toNat).map fun i => .byte (hostRdB s sp i) } := by
  intro rest
  have hstep := step_read (s := withScript ([.read sp] ++ rest) s) rfl ha
  exact .head hstep (runs_hostRdBs sp (List.range w.toNat) s rest)

theorem runs_ackLine {s : State} (hb : s.stat.busy = false) : Runs [ackLine] s (acknowledge s) :=
  .of_perform fun rest => congrArg _ (hostWr_status_idle (s := withScript rest s) hb (by decide))

/-! ### Loading the inputs -/

/-- A space with these bytes from index `i` on. -/
def storeBytes (sp : Nat) : Nat → List Byte → State → State
  | _, [], s => s
  | i, b :: bs, s => storeBytes sp (i + 1) bs (setSpaceByte s sp i b)

theorem setSpaceByte_withScript (sp i : Nat) (b : Byte) (es : List Event) (s : State) :
    setSpaceByte (withScript es s) sp i b = withScript es (setSpaceByte s sp i b) := by
  unfold setSpaceByte
  split <;> rfl

theorem runs_loadFrom {sp i : Nat} {bs : List Byte} {s : State} (hb : s.stat.busy = false)
    (hfit : i + bs.length ≤ spaceSize s.cfg sp) : Runs (loadFrom sp i bs) s (storeBytes sp i bs s) := by
  induction bs generalizing i s with
  | nil => exact .nil s
  | cons b bs ih =>
    rw [List.length_cons] at hfit
    have hline : Runs [.hostWrB sp i b] s (setSpaceByte s sp i b) := .of_perform fun rest => by
      rw [← setSpaceByte_withScript, ← hostWrB_idle (s := withScript rest s) hb (by simp only [withScript]; omega)]
      rfl
    exact hline.cons (ih (by simpa using hb) (by rw [setSpaceByte_cfg]; omega))

/-- Storing bytes changes the byte spaces among the inputs alone. -/
theorem storeBytes_frame (sp i : Nat) (bs : List Byte) (s : State) :
    storeBytes sp i bs s = { s with inp := { (storeBytes sp i bs s).inp with
      klen := s.inp.klen, mlen := s.inp.mlen, ctlen := s.inp.ctlen } } := by
  induction bs generalizing i s with
  | nil => rfl
  | cons b bs ih =>
    rw [storeBytes]
    refine (ih (i + 1) (setSpaceByte s sp i b)).trans ?_
    generalize (storeBytes sp (i + 1) bs (setSpaceByte s sp i b)).inp = inp
    rw [setSpaceByte_frame]

theorem spaceByte_storeBytes_other {sp sp' : Nat} (hsp : sp' ≠ sp) (i k : Nat) (bs : List Byte) (s : State) :
    spaceByte (storeBytes sp i bs s) sp' k = spaceByte s sp' k := by
  induction bs generalizing i s with
  | nil => rfl
  | cons b bs ih => rw [storeBytes, ih, spaceByte_setSpaceByte_other hsp]

section Stored

variable {sp i : Nat} {bs : List Byte} {s : State} (h : Inv s) (hb : s.stat.busy = false)
  (hfit : i + bs.length ≤ spaceSize s.cfg sp)

include h hb hfit

theorem inv_storeBytes : Inv (storeBytes sp i bs s) := by
  induction bs generalizing i s with
  | nil => exact h
  | cons b bs ih =>
    rw [List.length_cons] at hfit
    exact ih (inv_setSpaceByte h hb (by omega) b) (by simpa using hb) (by rw [setSpaceByte_cfg]; omega)

/-- A byte before the ones stored. -/
theorem spaceByte_storeBytes_of_lt {k : Nat} (hk : k < i) :
    spaceByte (storeBytes sp i bs s) sp k = spaceByte s sp k := by
  induction bs generalizing i s with
  | nil => rfl
  | cons b bs ih =>
    rw [List.length_cons] at hfit
    rw [storeBytes, ih (inv_setSpaceByte h hb (by omega) b) (by simpa using hb) (by rw [setSpaceByte_cfg]; omega)
      (by omega), spaceByte_setSpaceByte_ne h.keyForm.1 h.msgForm.1 (by omega) (by omega) (by omega)]

/-- The bytes stored read back. -/
theorem spaceByte_storeBytes_add (hsp : sp ≤ 3) {k : Nat} (hk : k < bs.length) :
    spaceByte (storeBytes sp i bs s) sp (i + k) = bs[k] := by
  induction bs generalizing i k s with
  | nil => simp at hk
  | cons b bs ih =>
    rw [List.length_cons] at hfit
    have h' := inv_setSpaceByte h hb (sp := sp) (j := i) (by omega) b
    have hb' : (setSpaceByte s sp i b).stat.busy = false := by simpa using hb
    have hfit' : i + 1 + bs.length ≤ spaceSize (setSpaceByte s sp i b).cfg sp := by rw [setSpaceByte_cfg]; omega
    rw [storeBytes]
    match k with
    | 0 =>
      rw [spaceByte_storeBytes_of_lt h' hb' hfit' (by omega)]
      exact spaceByte_setSpaceByte_same h.keyForm.1 h.msgForm.1 hsp (by omega) b
    | k + 1 =>
      rw [show i + (k + 1) = i + 1 + k by omega]
      exact ih h' hb' hfit' (by simpa using hk)

end Stored

/-- A string stored from index 0 on reads back as far as one reads. -/
theorem memRead_storeBytes {sp n : Nat} {bs : List Byte} {s : State} (h : Inv s) (hb : s.stat.busy = false)
    (hsp : sp ≤ 3) (hfit : bs.length ≤ spaceSize s.cfg sp) (hn : n ≤ bs.length) :
    memRead (spaceByte (storeBytes sp 0 bs s) sp) 0 n = bs.take n := by
  refine List.ext_getElem (by simpa using hn) fun k hk _ => ?_
  rw [length_memRead] at hk
  rw [getElem_memRead, List.getElem_take]
  exact spaceByte_storeBytes_add h hb (by omega) hsp (by omega)

/-- A length that a register of `k` bits holds is not truncated (R69). -/
theorem toNat_truncTo_ofNat {k n : Nat} (hk : k ≤ 32) (hn : n < 2 ^ k) : (truncTo k (BitVec.ofNat 32 n)).toNat = n := by
  have hn32 : n < 2 ^ 32 := Nat.lt_of_lt_of_le hn (Nat.pow_le_pow_right (by omega) hk)
  rw [toNat_truncTo, BitVec.toNat_ofNat, Nat.mod_eq_of_lt hn32, Nat.mod_eq_of_lt hn]

theorem InputsFit.widths {c : Config} {inp : Inputs} (h : InputsFit c inp) : c.lenw ≤ 32 ∧ c.klenw ≤ 32 := by
  have hc := h.config
  simp only [Config.wellFormed, Bool.and_eq_true, decide_eq_true_eq] at hc
  exact ⟨hc.1.2, hc.2.2⟩

/-- The operands that stand in other spaces than the one stored to. -/
theorem keyBytes_storeBytes {sp : Nat} (hsp : 0 ≠ sp) (i : Nat) (bs : List Byte) (s : State) :
    keyBytes (storeBytes sp i bs s) = keyBytes s := by
  have hlen : (storeBytes sp i bs s).inp.klen = s.inp.klen := by rw [storeBytes_frame]
  rw [keyBytes, keyBytes, hlen]
  exact memRead_congr fun k _ => spaceByte_storeBytes_other hsp i k bs s

theorem msgBytes_storeBytes {sp : Nat} (hsp : 1 ≠ sp) (i : Nat) (bs : List Byte) (s : State) :
    msgBytes (storeBytes sp i bs s) = msgBytes s := by
  have hlen : (storeBytes sp i bs s).inp.mlen = s.inp.mlen := by rw [storeBytes_frame]
  rw [msgBytes, msgBytes, hlen]
  exact memRead_congr fun k _ => spaceByte_storeBytes_other hsp i k bs s

/-- Past `CTRL` a register write changes inputs at most, and does not look at the script. -/
theorem hostWr_frame {n : Nat} (hn : 3 ≤ n) (w : Word) (s : State) :
    hostWr n w s = { s with inp := (hostWr n w s).inp } := by
  obtain ⟨k, rfl⟩ := Nat.exists_eq_add_of_le' hn
  match k with
  | 0 | 1 | 2 => simp only [hostWr]; split <;> rfl
  | _ + 3 => rfl

theorem hostWr_withScript {n : Nat} (hn : 3 ≤ n) (w : Word) (es : List Event) (s : State) :
    hostWr n w (withScript es s) = withScript es (hostWr n w s) := by
  obtain ⟨k, rfl⟩ := Nat.exists_eq_add_of_le' hn
  match k with
  | 0 | 1 | 2 => simp only [hostWr, apply_ite (withScript es)]; rfl
  | _ + 3 => rfl

/-- `u` is `s` with other inputs, in order. -/
structure Loaded (s u : State) : Prop where
  inv : Inv u
  frame : u = { s with inp := u.inp }

section Load

variable {s : State} (h : Inv s) (hb : s.stat.busy = false)

include h hb

/-- A string loaded into a space, and a word written to a length register (R89). -/
theorem runs_load {sp n : Nat} (hn : 3 ≤ n) {bs : List Byte} (hfit : bs.length ≤ spaceSize s.cfg sp) (w : Word) :
    Runs (loadFrom sp 0 bs ++ [.hostWr n w]) s (hostWr n w (storeBytes sp 0 bs s)) ∧
      Loaded s (hostWr n w (storeBytes sp 0 bs s)) := by
  have hfit0 : 0 + bs.length ≤ spaceSize s.cfg sp := by rwa [Nat.zero_add]
  refine ⟨(runs_loadFrom hb hfit0).append (.of_perform fun rest => congrArg _ (hostWr_withScript hn w rest _)),
    inv_hostWr (inv_storeBytes h hb hfit0) n w, ?_⟩
  refine (hostWr_frame hn w _).trans ?_
  generalize (hostWr n w (storeBytes sp 0 bs s)).inp = inp
  rw [storeBytes_frame]

theorem runs_loadKey {key : List Byte} (hkey : key.length ≤ s.cfg.kmax) :
    ∃ u, Runs (loadKey key) s u ∧ Loaded s u ∧ keyBytes u = key := by
  obtain ⟨hruns, hloaded⟩ := runs_load h hb (sp := 0) (n := 3) (by decide) hkey (BitVec.ofNat 32 key.length)
  refine ⟨_, hruns, hloaded, ?_⟩
  have hstat : (storeBytes 0 0 key s).stat.busy = false := by rw [storeBytes_frame]; exact hb
  have hcfg : (storeBytes 0 0 key s).cfg = s.cfg := by rw [storeBytes_frame]
  have hlen : (truncTo s.cfg.klenw (BitVec.ofNat 32 key.length)).toNat = key.length :=
    toNat_truncTo_ofNat h.inputsFit.widths.2 (Nat.lt_of_le_pred (Nat.two_pow_pos _) hkey)
  rw [hostWr_klen_idle hstat, keyBytes, hcfg, hlen]
  exact (memRead_storeBytes (sp := 0) h hb (by decide) hkey (Nat.le_refl _)).trans (List.take_length)

theorem runs_loadMsg {msg : List Byte} (hmsg : msg.length ≤ s.cfg.mmax) :
    ∃ u, Runs (loadMsg msg) s u ∧ Loaded s u ∧ msgBytes u = msg ∧ keyBytes u = keyBytes s := by
  obtain ⟨hruns, hloaded⟩ := runs_load h hb (sp := 1) (n := 4) (by decide) hmsg (BitVec.ofNat 32 msg.length)
  have hstat : (storeBytes 1 0 msg s).stat.busy = false := by rw [storeBytes_frame]; exact hb
  have hcfg : (storeBytes 1 0 msg s).cfg = s.cfg := by rw [storeBytes_frame]
  have hlen : (truncTo s.cfg.lenw (BitVec.ofNat 32 msg.length)).toNat = msg.length :=
    toNat_truncTo_ofNat h.inputsFit.widths.1 (Nat.lt_of_le_pred (Nat.two_pow_pos _) hmsg)
  refine ⟨_, hruns, hloaded, ?_, ?_⟩ <;> rw [hostWr_mlen_idle hstat]
  · rw [msgBytes, hcfg, hlen]
    exact (memRead_storeBytes (sp := 1) h hb (by decide) hmsg (Nat.le_refl _)).trans (List.take_length)
  · exact keyBytes_storeBytes (by decide) 0 msg s

/-- The claimed tag: `CTLEN` tells its length up to 255, and `CTAG` holds its first 32 bytes (R91, conflict C9). -/
theorem runs_loadCtag (tag : List Byte) :
    ∃ u, Runs (loadCtag tag) s u ∧ Loaded s u ∧ u.inp.ctlen.toNat = min 255 tag.length ∧
      (∀ n, n ≤ 32 → n ≤ tag.length → ctagBytes u n = tag.take n) ∧
      keyBytes u = keyBytes s ∧ msgBytes u = msgBytes s := by
  have hfit : (tag.take 32).length ≤ spaceSize s.cfg 2 := List.length_take_le _ _
  obtain ⟨hruns, hloaded⟩ := runs_load h hb (sp := 2) (n := 5) (by decide) hfit (BitVec.ofNat 32 (min 255 tag.length))
  have hstat : (storeBytes 2 0 (tag.take 32) s).stat.busy = false := by rw [storeBytes_frame]; exact hb
  refine ⟨_, hruns, hloaded, ?_, fun n h32 hn => ?_, ?_, ?_⟩ <;> rw [hostWr_ctlen_idle hstat]
  · rw [BitVec.toNat_setWidth, BitVec.toNat_ofNat]
    omega
  · refine (memRead_storeBytes (sp := 2) h hb (by decide) hfit (n := n) (by simp [h32, hn])).trans ?_
    rw [List.take_take, Nat.min_eq_left h32]
  · exact keyBytes_storeBytes (by decide) 0 _ s
  · exact msgBytes_storeBytes (by decide) 0 _ s

end Load

/-! ### What the commands compute, from the strings loaded -/

/-- The tag of a key and a message as the 32 bytes of `T`, or the error (R120, R140). -/
def computedTag (c : Config) (alg : Alg) (key msg : List Byte) : Except ErrKind Digest :=
  match alg with
  | .hmacSha256 => (hmac c key msg).elim (.error .primitiveFailure) .ok
  | .cmacAes128 =>
    if key.length ≠ 16 then .error .keyLengthInvalid
    else (cmac c (ofBytes 128 key) msg).elim (.error .primitiveFailure) fun x => .ok (tagOfBlock x)

/-- The first `TAGLEN` bytes of a CMAC tag are those of the last block (R133). -/
theorem take_bytesOf_tagOfBlock (x : Block) : (bytesOf (tagOfBlock x)).take 16 = bytesOf x := by
  refine List.ext_getElem (by simp) fun i _ h2 => ?_
  rw [length_bytesOf] at h2
  rw [List.getElem_take, getElem_bytesOf, getElem_bytesOf, byteAt_tagOfBlock_low x i h2]

theorem pureSign_eq (c : Config) (alg : Alg) (key msg : List Byte) :
    pureSign c alg key msg = match computedTag c alg key msg with
      | .ok d => .tag ((bytesOf d).take (algTagLen alg))
      | .error k => .error k := by
  cases alg with
  | hmacSha256 =>
    simp only [pureSign, computedTag]
    cases hmac c key msg with
    | none => rfl
    | some d =>
      change SignResult.tag (bytesOf d) = .tag ((bytesOf d).take 32)
      rw [List.take_of_length_le (length_bytesOf d).le]
  | cmacAes128 =>
    simp only [pureSign, computedTag]
    split
    · rfl
    · cases cmac c (ofBytes 128 key) msg with
      | none => rfl
      | some x =>
        change SignResult.tag (bytesOf x) = .tag ((bytesOf (tagOfBlock x)).take 16)
        rw [take_bytesOf_tagOfBlock]

/-- Only these two errors come of a computation (R90, R91). -/
theorem computedTag_error {c : Config} {alg : Alg} {key msg : List Byte} {k : ErrKind}
    (h : computedTag c alg key msg = .error k) : k = .keyLengthInvalid ∨ k = .primitiveFailure := by
  cases alg with
  | hmacSha256 =>
    rw [computedTag] at h
    cases hm : hmac c key msg <;> rw [hm] at h <;> cases h
    exact .inr rfl
  | cmacAes128 =>
    rw [computedTag] at h
    split at h
    · cases h
      exact .inl rfl
    · cases hm : cmac c (ofBytes 128 key) msg <;> rw [hm] at h <;> cases h
      exact .inr rfl

theorem klen_ne_iff (s : State) : s.inp.klen ≠ 16 ↔ (keyBytes s).length ≠ 16 := by
  rw [length_keyBytes, ne_eq, ne_eq, ← BitVec.toNat_inj]
  rfl

/-- The cipher's key is the key that was loaded, where that has 16 bytes (R107, R108). -/
theorem cipherKey_eq {s : State} (h : (keyBytes s).length = 16) : cipherKey s = ofBytes 128 (keyBytes s) := by
  rw [length_keyBytes] at h
  rw [keyBytes, h, cipherKey]

/-- The state in which a `SIGN` from `s` ends, from what it has computed (R121, R141). -/
def signEnd (alg : Alg) (s : State) (result : Except ErrKind Digest) : State :=
  match result with
  | .ok d => endState (signInstr alg) s
      { k1 := 0, k2 := 0, tag := d, tlen := BitVec.ofNat 8 (algTagLen alg) } false false .none
  | .error k => endState (signInstr alg) s Outputs.zero false false k

/-- The state in which a `VERIFY` from `s` ends, from `CTLEN` and what it has computed, which does not count where
`CTLEN` is wrong (R161, R164, R170). -/
def verifyEnd (alg : Alg) (s : State) (result : Except ErrKind Digest) : State :=
  if s.inp.ctlen.toNat ≠ algTagLen alg then
    endState (verifyInstr alg) s Outputs.zero false false .tagLengthMismatch
  else match result with
  | .ok d => endState (verifyInstr alg) s Outputs.zero
      (ctEq ((bytesOf d).take (algTagLen alg)) (ctagBytes s (algTagLen alg))) false .none
  | .error k => endState (verifyInstr alg) s Outputs.zero false false k

section Exec

variable {s : State} (hb : s.stat.busy = false) (alg : Alg)

include hb

theorem exec_sign :
    exec (signInstr alg) s = .next (signEnd alg s (computedTag s.cfg alg (keyBytes s) (msgBytes s))) := by
  cases alg with
  | hmacSha256 =>
    rw [signInstr, exec_signHmac_idle hb, computedTag]
    cases hmac s.cfg (keyBytes s) (msgBytes s) <;> rfl
  | cmacAes128 =>
    rw [signInstr, exec_signCmac_idle hb, computedTag]
    by_cases hk : (keyBytes s).length = 16
    · rw [if_neg (not_not.mpr hk), if_neg ((klen_ne_iff s).not.mpr (not_not.mpr hk)), cipherKey_eq hk]
      cases cmac s.cfg (ofBytes 128 (keyBytes s)) (msgBytes s) <;> rfl
    · rw [if_pos hk, if_pos ((klen_ne_iff s).mpr hk)]
      rfl

theorem exec_verify :
    exec (verifyInstr alg) s = .next (verifyEnd alg s (computedTag s.cfg alg (keyBytes s) (msgBytes s))) := by
  cases alg with
  | hmacSha256 =>
    unfold verifyEnd
    rw [verifyInstr, exec_verifyHmac_idle hb, show tagLen .verifyHmac = algTagLen .hmacSha256 from rfl]
    split
    case isTrue => rfl
    case isFalse =>
      rw [computedTag]
      cases hmac s.cfg (keyBytes s) (msgBytes s) <;> rfl
  | cmacAes128 =>
    unfold verifyEnd
    rw [verifyInstr, exec_verifyCmac_idle hb, show tagLen .verifyCmac = algTagLen .cmacAes128 from rfl]
    split
    case isTrue => rfl
    case isFalse =>
      rw [computedTag]
      by_cases hk : (keyBytes s).length = 16
      · rw [if_neg (not_not.mpr hk), if_neg ((klen_ne_iff s).not.mpr (not_not.mpr hk)), cipherKey_eq hk]
        cases cmac s.cfg (ofBytes 128 (keyBytes s)) (msgBytes s) <;> rfl
      · rw [if_pos hk, if_pos ((klen_ne_iff s).mpr hk)]
        rfl

end Exec

/-! ### `ISSUE` and `WAIT` -/

/-- `WAIT`, from a state in which the engine's turns lead to the end of a command (R89, R187). -/
theorem reaches_wait {n : Nat} {s t : State} {rest : List Event} (hs : s.script = .wait :: rest)
    (h : engineTurns n s = .next t) (hb : t.stat.busy = false) (hd : t.stat.done = true) :
    Reaches s (withScript rest t) := by
  induction n generalizing s with
  | zero =>
    cases h
    exact .single (step_wait_done hs hb hd)
  | succ n ih =>
    cases hbusy : s.stat.busy with
    | false =>
      rw [engineTurns_idle _ s hbusy] at h
      cases h
      exact .single (step_wait_done hs hb hd)
    | true =>
      cases hstep : engineStep s with
      | next u =>
        rw [engineTurns_succ n s u hbusy hstep] at h
        obtain ⟨-, -, -, hscript, -⟩ := engineStep_frame hstep
        exact .head ((step_wait_busy hs hbusy).trans hstep) (ih (hscript.trans hs) h)
      | fault f => simp [engineTurns, engineTurn, hbusy, hstep] at h
      | refused r => simp [engineTurns, engineTurn, hbusy, hstep] at h

/-- A command issued and waited for ends in what `exec` answers (R90, R91, R186). -/
theorem runs_issue_wait {s t : State} (h : InputsFit s.cfg s.inp) (hbusy : s.stat.busy = false) {i : Instr}
    (hexec : ∀ es, exec i (withScript es s) = .next (withScript es t)) (hb : t.stat.busy = false)
    (hd : t.stat.done = true) : Runs [issueLine i, .wait] s t := by
  intro rest
  have hissue : step (withScript ([issueLine i, .wait] ++ rest) s) =
      .next (issued i (withScript (.wait :: rest) s)) := by
    refine (step_of_script (s := withScript ([issueLine i, .wait] ++ rest) s) rfl).trans ?_
    refine congrArg _ ((hostWr_cmd_idle (s := withScript (.wait :: rest) s) hbusy _).trans ?_)
    rw [issue, decode_encode]
    rfl
  have hturns := engineTurns_issued (s := withScript (.wait :: rest) s) hbusy h i
  exact .head hissue (reaches_wait (t := withScript (.wait :: rest) t) rfl (hturns.trans (hexec _)) hb hd)

theorem signEnd_withScript (alg : Alg) (es : List Event) (s : State) (result : Except ErrKind Digest) :
    signEnd alg (withScript es s) result = withScript es (signEnd alg s result) := by
  cases result <;> rfl

theorem signEnd_frame (alg : Alg) (s : State) (result : Except ErrKind Digest) :
    (signEnd alg s result).stat.busy = false ∧ (signEnd alg s result).stat.done = true ∧
      (signEnd alg s result).answers = s.answers := by
  cases result <;> exact ⟨rfl, rfl, rfl⟩

theorem verifyEnd_withScript (alg : Alg) (es : List Event) (s : State) (result : Except ErrKind Digest) :
    verifyEnd alg (withScript es s) result = withScript es (verifyEnd alg s result) := by
  unfold verifyEnd
  rw [apply_ite (withScript es)]
  cases result <;> rfl

theorem verifyEnd_frame (alg : Alg) (s : State) (result : Except ErrKind Digest) :
    (verifyEnd alg s result).stat.busy = false ∧ (verifyEnd alg s result).stat.done = true ∧
      (verifyEnd alg s result).answers = s.answers := by
  unfold verifyEnd
  split
  · exact ⟨rfl, rfl, rfl⟩
  · cases result <;> exact ⟨rfl, rfl, rfl⟩

section IssueWait

variable {s : State} (h : InputsFit s.cfg s.inp) (hb : s.stat.busy = false) (alg : Alg)

include h hb

theorem runs_issue_wait_sign :
    Runs [issueLine (signInstr alg), .wait] s
      (signEnd alg s (computedTag s.cfg alg (keyBytes s) (msgBytes s))) := by
  obtain ⟨hidle, hdone, -⟩ := signEnd_frame alg s (computedTag s.cfg alg (keyBytes s) (msgBytes s))
  refine runs_issue_wait h hb (fun es => ?_) hidle hdone
  rw [← signEnd_withScript]
  exact exec_sign (s := withScript es s) hb alg

theorem runs_issue_wait_verify :
    Runs [issueLine (verifyInstr alg), .wait] s
      (verifyEnd alg s (computedTag s.cfg alg (keyBytes s) (msgBytes s))) := by
  obtain ⟨hidle, hdone, -⟩ := verifyEnd_frame alg s (computedTag s.cfg alg (keyBytes s) (msgBytes s))
  refine runs_issue_wait h hb (fun es => ?_) hidle hdone
  rw [← verifyEnd_withScript]
  exact exec_verify (s := withScript es s) hb alg

end IssueWait

/-! ### The comparison of tags -/

theorem foldl_or_eq_zero_iff (ds : List Byte) (a : Byte) :
    ds.foldl (fun acc d => acc ||| d) a = 0 ↔ a = 0 ∧ ∀ d ∈ ds, d = 0 := by
  induction ds generalizing a with
  | nil => simp
  | cons d ds ih =>
    have hor : a ||| d = 0 ↔ a = 0 ∧ d = 0 := BitVec.or_eq_zero_iff
    rw [List.foldl_cons, ih, hor, List.forall_mem_cons, and_assoc]

/-- R162: the comparison finds the strings equal where no byte differs. -/
theorem ctEq_eq_true_iff {a b : List Byte} (h : a.length = b.length) : ctEq a b = true ↔ a = b := by
  rw [ctEq, beq_iff_eq, foldl_or_eq_zero_iff, and_iff_right rfl]
  induction a generalizing b with
  | nil => simp [List.eq_nil_of_length_eq_zero h.symm]
  | cons x xs ih =>
    cases b with
    | nil => simp at h
    | cons y ys =>
      have hxor : x ^^^ y = 0 ↔ x = y := BitVec.xor_eq_zero_iff
      rw [List.zipWith_cons_cons, List.forall_mem_cons, hxor, ih (by simpa using h), List.cons.injEq]

theorem ctEq_eq_decide {a b : List Byte} (h : a.length = b.length) : ctEq a b = decide (a = b) := by
  rw [Bool.eq_iff_iff, ctEq_eq_true_iff h, decide_eq_true_iff]

/-! ### What the host makes of the answers -/

section Answers

variable {s : State} (hb : s.stat.busy = false)

include hb

theorem statusErr_hostRd : statusErr (hostRd s 1) = errCode s.stat.err := by
  rw [hostRd_status_idle hb]
  exact (extractLsb'_statusWord s.stat).2.1

theorem getLsbD_hostRd_vok : (hostRd s 1).getLsbD 2 = s.stat.vok := by
  rw [hostRd_status_idle hb, getLsbD_statusWord_vok]

theorem hostRdB_tag {i : Nat} (hi : i < 32) : hostRdB s 6 i = byteAt s.out.tag i := by
  rw [hostRdB_idle hb (by decide)]
  exact if_pos hi

end Answers

theorem algTagLen_le (alg : Alg) : algTagLen alg ≤ 32 := by cases alg <;> decide

/-- What the reads of `Sign` answer after its command (R90). -/
def signAnswers (s : State) : List Answer :=
  .word (hostRd s 1) :: .word (hostRd s 6) ::
    (List.range (hostRd s 6).toNat).map fun i => .byte (hostRdB s 6 i)

/-- The lines of `Sign` after its command: they read the status, the tag's length and the tag, and acknowledge (R90). -/
theorem runs_signLines {s : State} (hb : s.stat.busy = false) :
    Runs [.hostRd 1, .hostRd 6, .read 6, ackLine] s
      (acknowledge { s with answers := s.answers ++ signAnswers s }) := by
  have h6 := runs_hostRd 6 (answer (.word (hostRd s 1)) s)
  have hread := runs_read 6 (s := answer (.word (hostRd s 6)) (answer (.word (hostRd s 1)) s)) rfl
  have h := (runs_hostRd 1 s).cons (h6.cons (hread.cons (runs_ackLine hb)))
  simp only [answer, List.append_assoc] at h
  exact h

/-- The bytes of `TAG` that the host has read. -/
theorem filterMap_answerByte_tag {s : State} (hb : s.stat.busy = false) {n : Nat} (hn : n ≤ 32) :
    ((List.range n).map fun i => Answer.byte (hostRdB s 6 i)).filterMap answerByte = (bytesOf s.out.tag).take n := by
  have hbyte : (answerByte ∘ fun i => Answer.byte (hostRdB s 6 i)) = fun i => some (hostRdB s 6 i) := rfl
  rw [List.filterMap_map, hbyte, List.filterMap_eq_map']
  refine List.ext_getElem ?_ fun i hi _ => ?_
  · rw [List.length_map, List.length_range, List.length_take, length_bytesOf]
    exact (Nat.min_eq_left hn).symm
  · rw [List.length_map, List.length_range] at hi
    rw [List.getElem_map, List.getElem_range, List.getElem_take, getElem_bytesOf, hostRdB_tag hb (by omega)]

theorem signResult_of_tag {s : State} (hb : s.stat.busy = false) (he : s.stat.err = .none)
    (hl : s.out.tlen.toNat ≤ 32) :
    signResult (signAnswers s) = some (.tag ((bytesOf s.out.tag).take s.out.tlen.toNat)) := by
  have hcode : statusErr (hostRd s 1) = 0 := by rw [statusErr_hostRd hb, he]; rfl
  rw [signAnswers, signResult, if_pos hcode, toNat_hostRd_tlen_idle hb, filterMap_answerByte_tag hb hl]

theorem errorOfCode_errCode {k : ErrKind} (hk : k = .keyLengthInvalid ∨ k = .primitiveFailure) :
    errCode k ≠ 0 ∧ errCode k ≠ 3 ∧ errorOfCode (errCode k) = some k := by
  obtain rfl | rfl := hk <;> decide

theorem signResult_of_error {s : State} (hb : s.stat.busy = false)
    (hk : s.stat.err = .keyLengthInvalid ∨ s.stat.err = .primitiveFailure) :
    signResult (signAnswers s) = some (.error s.stat.err) := by
  obtain ⟨h0, -, hcode⟩ := errorOfCode_errCode hk
  rw [signAnswers, signResult, statusErr_hostRd hb, if_neg h0, hcode]
  rfl

/-- What the one read of `Verify` answers (R91): the flag `VOK` where `ERR` is 0 or 3. -/
theorem verifyResult_of_verdict {s : State} (hb : s.stat.busy = false)
    (he : s.stat.err = .none ∨ s.stat.err = .tagLengthMismatch) :
    verifyResult [.word (hostRd s 1)] = some (.verdict s.stat.vok) := by
  have hcode : statusErr (hostRd s 1) = 0 ∨ statusErr (hostRd s 1) = 3 := by
    rw [statusErr_hostRd hb]
    obtain he | he := he <;> rw [he] <;> decide
  rw [verifyResult, if_pos hcode, getLsbD_hostRd_vok hb]

theorem verifyResult_of_error {s : State} (hb : s.stat.busy = false)
    (hk : s.stat.err = .keyLengthInvalid ∨ s.stat.err = .primitiveFailure) :
    verifyResult [.word (hostRd s 1)] = some (.error s.stat.err) := by
  obtain ⟨h0, h3, hcode⟩ := errorOfCode_errCode hk
  rw [verifyResult, statusErr_hostRd hb, if_neg (not_or.mpr ⟨h0, h3⟩), hcode]
  rfl

/-- After its command `Sign` returns what the function of its arguments says (R90). -/
theorem signResult_signEnd (c : Config) (alg : Alg) (key msg : List Byte) (s : State) :
    signResult (signAnswers (signEnd alg s (computedTag c alg key msg))) = some (pureSign c alg key msg) := by
  rw [pureSign_eq]
  cases hr : computedTag c alg key msg with
  | ok d =>
    have hlen : (signEnd alg s (.ok d)).out.tlen.toNat = algTagLen alg := by cases alg <;> rfl
    rw [signResult_of_tag rfl rfl (hlen ▸ algTagLen_le alg), hlen]
    rfl
  | error k => exact signResult_of_error rfl (computedTag_error hr)

/-- An error leaves no tag (R90). -/
theorem signEnd_tlen_of_error {c : Config} {alg : Alg} {key msg : List Byte} {k : ErrKind}
    (h : pureSign c alg key msg = .error k) (s : State) :
    (signEnd alg s (computedTag c alg key msg)).out.tlen = 0 := by
  rw [pureSign_eq] at h
  cases hr : computedTag c alg key msg with
  | ok d => rw [hr] at h; cases h
  | error _ => rfl

/-- After its command `Verify` returns what the function of its arguments says, where the claimed tag stands in `CTLEN`
and `CTAG` (R91, R165, R169). -/
theorem verifyResult_verifyEnd (c : Config) (alg : Alg) (key msg : List Byte) {tag : List Byte} {s : State}
    (hctlen : s.inp.ctlen.toNat = min 255 tag.length)
    (hctag : ∀ n, n ≤ 32 → n ≤ tag.length → ctagBytes s n = tag.take n) :
    verifyResult [.word (hostRd (verifyEnd alg s (computedTag c alg key msg)) 1)] =
      some (pureVerify c alg key msg tag) := by
  have h32 := algTagLen_le alg
  unfold pureVerify verifyEnd
  by_cases hl : tag.length = algTagLen alg
  · rw [if_neg (by omega), if_neg (not_not.mpr hl), pureSign_eq]
    cases hr : computedTag c alg key msg with
    | ok d =>
      have hct : ctagBytes s (algTagLen alg) = tag := by rw [hctag _ h32 hl.ge, ← hl, List.take_length]
      have hlen : ((bytesOf d).take (algTagLen alg)).length = tag.length := by
        rw [List.length_take, length_bytesOf, hl]
        exact Nat.min_eq_left h32
      dsimp only
      rw [hct, ctEq_eq_decide hlen]
      exact verifyResult_of_verdict rfl (.inl rfl)
    | error k => exact verifyResult_of_error rfl (computedTag_error hr)
  · rw [if_pos (by omega), if_pos hl]
    exact verifyResult_of_verdict rfl (.inr rfl)

/-! ### The calls -/

theorem presentable_eq_true_iff {s : State} {key msg : List Byte} :
    presentable s key msg = true ↔ s.stat.busy = false ∧ key.length ≤ s.cfg.kmax ∧ msg.length ≤ s.cfg.mmax := by
  simp [presentable, and_assoc]

/-- Where a call is refused (R90, U7). -/
theorem presentable_ne_true_iff {s : State} {key msg : List Byte} :
    ¬ presentable s key msg = true ↔ s.stat.busy = true ∨ s.cfg.kmax < key.length ∨ s.cfg.mmax < msg.length := by
  rw [presentable_eq_true_iff, not_and_or, not_and_or, Bool.not_eq_false, Nat.not_le, Nat.not_le]

theorem Loaded.trans {s t u : State} (h : Loaded s t) (h' : Loaded t u) : Loaded s u := by
  refine ⟨h'.inv, h'.frame.trans ?_⟩
  rw [h.frame]

theorem Loaded.unchanged {s u : State} (h : Loaded s u) : u.stat = s.stat ∧ u.cfg = s.cfg ∧ u.answers = s.answers := by
  rw [h.frame]
  exact ⟨rfl, rfl, rfl⟩

section Calls

variable {s : State} (h : Inv s) (hb : s.stat.busy = false) {key msg : List Byte} (hkey : key.length ≤ s.cfg.kmax)
  (hmsg : msg.length ≤ s.cfg.mmax)

include h hb hkey hmsg

/-- The first lines of both programs (R90, R91). -/
theorem runs_loadKey_loadMsg :
    ∃ u, Runs (loadKey key ++ loadMsg msg) s u ∧ Loaded s u ∧ keyBytes u = key ∧ msgBytes u = msg := by
  obtain ⟨t, htruns, ht, htkey⟩ := runs_loadKey h hb hkey
  obtain ⟨hstat, hcfg, -⟩ := ht.unchanged
  obtain ⟨u, huruns, hu, humsg, hukey⟩ := runs_loadMsg ht.inv (by rwa [hstat]) (msg := msg) (by rwa [hcfg])
  exact ⟨u, htruns.append huruns, ht.trans hu, hukey.trans htkey, humsg⟩

/-- The program of `Sign`: it ends in a state whose reads give what `Sign` returns, with no byte of a tag read after an
error (R90). -/
theorem runs_signProgram (alg : Alg) :
    ∃ e, Runs (signProgram alg key msg) s (acknowledge { e with answers := s.answers ++ signAnswers e }) ∧
      e.stat.busy = false ∧ signResult (signAnswers e) = some (pureSign s.cfg alg key msg) ∧
      (∀ k, pureSign s.cfg alg key msg = .error k → e.out.tlen = 0) := by
  obtain ⟨u, hload, hu, hukey, humsg⟩ := runs_loadKey_loadMsg h hb hkey hmsg
  obtain ⟨hstat, hcfg, hanswers⟩ := hu.unchanged
  have hissue := runs_issue_wait_sign hu.inv.inputsFit (by rwa [hstat]) alg
  rw [hcfg, hukey, humsg] at hissue
  obtain ⟨hidle, -, has⟩ := signEnd_frame alg u (computedTag s.cfg alg key msg)
  have hreads := runs_signLines hidle
  rw [has, hanswers] at hreads
  exact ⟨_, hload.append (hissue.append hreads), hidle, signResult_signEnd s.cfg alg key msg u,
    fun k hk => signEnd_tlen_of_error hk u⟩

/-- The program of `Verify`: it ends in a state in which the status read gives what `Verify` returns (R91). -/
theorem runs_verifyProgram (alg : Alg) (tag : List Byte) :
    ∃ e, Runs (verifyProgram alg key msg tag) s (acknowledge (answer (.word (hostRd e 1)) e)) ∧
      e.stat.busy = false ∧ e.answers = s.answers ∧
      verifyResult [.word (hostRd e 1)] = some (pureVerify s.cfg alg key msg tag) := by
  obtain ⟨v, hload, hv, hvkey, hvmsg⟩ := runs_loadKey_loadMsg h hb hkey hmsg
  obtain ⟨hvstat, -, -⟩ := hv.unchanged
  obtain ⟨u, htag, hu, hctlen, hctag, hukey, humsg⟩ := runs_loadCtag hv.inv (by rwa [hvstat]) tag
  obtain ⟨hstat, hcfg, hanswers⟩ := (hv.trans hu).unchanged
  have hissue := runs_issue_wait_verify hu.inv.inputsFit (by rwa [hstat]) alg
  rw [hcfg, hukey, hvkey, humsg, hvmsg] at hissue
  obtain ⟨hidle, -, has⟩ := verifyEnd_frame alg u (computedTag s.cfg alg key msg)
  have hreads := (runs_hostRd 1 _).cons (runs_ackLine (s := answer (.word (hostRd _ 1)) _) hidle)
  exact ⟨_, (hload.append htag).append (hissue.append hreads), hidle, has.trans hanswers,
    verifyResult_verifyEnd s.cfg alg key msg hctlen hctag⟩

end Calls

/-- Settles O58: the call is refused where its arguments are not presentable, and otherwise its program runs to its
end. -/
theorem signProgramReturnsTheTag : Obligations.SignProgramReturnsTheTag := by
  refine fun s alg key msg h => ⟨?_, fun u hu => ?_⟩
  · rw [← presentable_ne_true_iff, signCall, ite_eq_right_iff]
    simp
  · rw [signCall, Option.ite_none_right_eq_some, presentable_eq_true_iff] at hu
    obtain ⟨⟨hb, hkey, hmsg⟩, hu⟩ := hu
    cases hu
    obtain ⟨e, hruns, heb, hres, htlen⟩ := runs_signProgram h hb hkey hmsg alg
    obtain ⟨n, hn⟩ := (hruns s.script).exists_run
    refine ⟨n, _, signAnswers e, hn, rfl, heb, rfl, rfl, hres, fun k hk => ?_⟩
    have h6 : hostRd e 6 = 0 := by simp [hostRd, heb, htlen k hk]
    exact ⟨by simp [signAnswers, h6], h6⟩

/-- Settles O59: likewise, with the claimed tag loaded beside the key and the message. -/
theorem verifyProgramDecidesTheTag : Obligations.VerifyProgramDecidesTheTag := by
  refine fun s alg key msg tag h => ⟨?_, fun u hu => ?_⟩
  · rw [← presentable_ne_true_iff, verifyCall, ite_eq_right_iff]
    simp
  · rw [verifyCall, Option.ite_none_right_eq_some, presentable_eq_true_iff] at hu
    obtain ⟨⟨hb, hkey, hmsg⟩, hu⟩ := hu
    cases hu
    obtain ⟨e, hruns, heb, has, hres⟩ := runs_verifyProgram h hb hkey hmsg alg tag
    obtain ⟨n, hn⟩ := (hruns s.script).exists_run
    exact ⟨n, _, [.word (hostRd e 1)], hn, rfl, heb, rfl, by rw [← has]; rfl, hres⟩

end Sys2Proof.Machine
end

section
/-! PROOFS. The statements of spec/40_double_and_subkey.md: the doubling as bytes, as an integer and as a linear
bijection (R100 to R102), the subkeys of a key (R104), the commands `DBL` and `DERIVE.CMAC` (R103, R105), and the steps
of the unit (R107 to R111). Everything about the doubling rests on its closed form, `dbl_eq`. -/

namespace Sys2Proof.Machine

/-! ## The doubling -/

/-- The top bit of byte 0 is the top bit of the value (R12). -/
theorem getLsbD_byteAt_zero_top (v : Block) : (byteAt v 0).getLsbD 7 = v.msb := by
  rw [getLsbD_byteAt, BitVec.msb_eq_getLsbD_last]
  rfl

/-- What the doubling xors into the shifted value, by the operand's top bit (R101). -/
def reduction (top : Bool) : Block := if top then 0x87 else 0

/-- A change of the last byte by xor is a xor of the value. -/
theorem setByteAt_last_xor (v : Block) (b : Byte) : setByteAt v 15 (byteAt v 15 ^^^ b) = v ^^^ b.setWidth 128 := by
  refine BitVec.eq_of_getLsbD_eq fun j hj => ?_
  simp only [getLsbD_setByteAt, BitVec.getLsbD_xor, BitVec.getLsbD_setWidth, getLsbD_byteAt]
  by_cases h8 : j < 8
  · simp [hj, h8]
  · simp [hj, h8, BitVec.getLsbD_of_ge b j (by omega)]

/-- R100 as one formula. -/
theorem dbl_eq (v : Block) : dbl v = (v <<< 1) ^^^ reduction v.msb := by
  unfold dbl doublingCarry
  cases v.msb with
  | true => exact setByteAt_last_xor _ _
  | false => exact BitVec.xor_zero.symm

/-! ### Bytes -/

theorem byteAt_xor {w : Nat} (v u : BitVec w) (i : Nat) : byteAt (v ^^^ u) i = byteAt v i ^^^ byteAt u i := by
  refine BitVec.eq_of_getLsbD_eq fun j _ => ?_
  simp only [getLsbD_byteAt, BitVec.getLsbD_xor, Bool.and_xor_distrib_left]

/-- A shift by one carries the top bit of each byte into the byte before it. -/
theorem byteAt_shiftLeft_one (v : Block) {i : Nat} (hi : i < 15) :
    byteAt (v <<< 1) i = (byteAt v i <<< 1) ||| (byteAt v (i + 1) >>> 7) := by
  refine BitVec.eq_of_getLsbD_eq fun j hj => ?_
  simp only [BitVec.getLsbD_or, BitVec.getLsbD_shiftLeft, BitVec.getLsbD_ushiftRight, getLsbD_byteAt]
  have hin : 128 - 8 * (i + 1) + j < 128 := by omega
  have hpos : ¬ 128 - 8 * (i + 1) + j < 1 := by omega
  cases j with
  | zero =>
    have hcarry : 128 - 8 * (i + 1) + 0 - 1 = 128 - 8 * (i + 1 + 1) + (7 + 0) := by omega
    simp only [hin, hpos, hcarry]
    simp
  | succ j =>
    have hbit : 128 - 8 * (i + 1) + (j + 1) - 1 = 128 - 8 * (i + 1) + j := by omega
    have hj' : j < 8 ∧ ¬ 7 + (j + 1) < 8 := by omega
    simp [hin, hpos, hbit, hj, hj']

/-- Nothing is shifted into the last byte. -/
theorem byteAt_last_shiftLeft_one (v : Block) : byteAt (v <<< 1) 15 = byteAt v 15 <<< 1 := by
  refine BitVec.eq_of_getLsbD_eq fun j hj => ?_
  simp only [getLsbD_byteAt, BitVec.getLsbD_shiftLeft, Nat.sub_self, Nat.reduceMul, Nat.reduceAdd, Nat.zero_add]
  have hlt : j < 128 ∧ j - 1 < 8 := by omega
  simp [hlt, hj]

theorem byteAt_reduction (top : Bool) {i : Nat} (hi : i < 15) : byteAt (reduction top) i = 0#8 := by
  revert top i
  decide

/-- Settles O10: the bytes of the shift, and those of the reduction, which are zero but for the last. -/
theorem doublingShiftsAndReduces : Obligations.DoublingShiftsAndReduces := by
  refine fun v => ⟨fun i hi => ?_, ?_⟩
  · rw [dbl_eq, byteAt_xor, byteAt_shiftLeft_one v hi, byteAt_reduction _ hi, BitVec.xor_zero]
  · rw [dbl_eq, byteAt_xor, byteAt_last_shiftLeft_one, getLsbD_byteAt_zero_top]
    cases v.msb with
    | true => rfl
    | false => exact BitVec.xor_zero

/-! ### The integer -/

theorem toNat_reduction (top : Bool) : (reduction top).toNat = if top then 0x87 else 0 := by cases top <;> rfl

/-- Settles O11: a shift by one is a multiplication by two, and the top bit of a value is set from `2^127` on. -/
theorem doublingAsInteger : Obligations.DoublingAsInteger := by
  intro v
  have hshift : (v <<< 1).toNat = 2 * v.toNat % 2 ^ 128 := by
    rw [BitVec.toNat_shiftLeft, Nat.shiftLeft_eq, Nat.mul_comm]
  rw [dbl_eq, BitVec.toNat_xor, hshift, toNat_reduction, BitVec.msb_eq_decide]
  simp only [decide_eq_true_eq]

/-! ### The linear bijection -/

theorem reduction_xor (a b : Bool) : reduction (a ^^ b) = reduction a ^^^ reduction b := by
  revert a b
  decide

theorem dbl_xor (a b : Block) : dbl (a ^^^ b) = dbl a ^^^ dbl b := by
  have hmsb : (a ^^^ b).msb = (a.msb ^^ b.msb) := BitVec.msb_xor
  rw [dbl_eq, dbl_eq, dbl_eq, BitVec.shiftLeft_xor_distrib, hmsb, reduction_xor]
  ac_rfl

/-- The shift leaves bit 0 to the reduction, which sets it where the operand's top bit was 1. -/
theorem getLsbD_dbl_zero (v : Block) : (dbl v).getLsbD 0 = v.msb := by
  rw [dbl_eq, BitVec.getLsbD_xor, BitVec.getLsbD_shiftLeft]
  cases v.msb <;> rfl

/-- R102 (d): the reduction and the shift taken back, and the top bit restored. -/
def halve (d : Block) : Block :=
  ((if d.getLsbD 0 then d ^^^ 0x87 else d) >>> 1) ||| (if d.getLsbD 0 then (1 : Block) <<< 127 else 0)

theorem xor_reduction (top : Bool) (d : Block) : (if top then d ^^^ 0x87 else d) = d ^^^ reduction top := by
  cases top with
  | true => rfl
  | false => exact BitVec.xor_zero.symm

theorem getLsbD_topBit (top : Bool) (j : Nat) :
    (if top then (1 : Block) <<< 127 else 0).getLsbD j = (top && decide (127 = j)) := by
  cases top with
  | true => exact BitVec.getLsbD_twoPow 127 j
  | false => exact BitVec.getLsbD_zero

/-- A shift right takes back a shift left but for the top bit, which has to be put back. -/
theorem shiftLeft_one_ushiftRight_one (v : Block) :
    v <<< 1 >>> 1 ||| (if v.msb then (1 : Block) <<< 127 else 0) = v := by
  refine BitVec.eq_of_getLsbD_eq fun j hj => ?_
  rw [BitVec.getLsbD_or, BitVec.getLsbD_ushiftRight, BitVec.getLsbD_shiftLeft, getLsbD_topBit]
  obtain hlow | rfl : j < 127 ∨ j = 127 := by omega
  · have hne : 1 + j < 128 ∧ 127 ≠ j := by omega
    simp only [hne, Nat.add_sub_cancel_left]
    simp
  · simp only [Nat.reduceAdd, Nat.lt_irrefl, decide_false, Bool.false_and, Bool.false_or, decide_true, Bool.and_true]
    exact BitVec.msb_eq_getLsbD_last v

theorem halve_dbl (v : Block) : halve (dbl v) = v := by
  have hshift : dbl v ^^^ reduction v.msb = v <<< 1 := by
    rw [dbl_eq, BitVec.xor_assoc, BitVec.xor_self, BitVec.xor_zero]
  rw [halve, getLsbD_dbl_zero, xor_reduction, hshift, shiftLeft_one_ushiftRight_one]

theorem dbl_bijective : Function.Bijective dbl :=
  Finite.injective_iff_bijective.mp (Function.LeftInverse.injective halve_dbl)

/-- Settles O12: (d) is `halve_dbl`, which makes the doubling injective and so, on a finite type, bijective. -/
theorem doublingIsLinearBijection : Obligations.DoublingIsLinearBijection := by
  refine ⟨by decide, fun v => ?_, dbl_bijective, ?_, dbl_xor, by decide⟩
  · rw [getLsbD_byteAt, getLsbD_byteAt_zero_top]
    exact getLsbD_dbl_zero v
  · rintro v _ rfl
    exact (halve_dbl v).symm

/-! ## The subkeys -/

theorem subkeys_eq_map (c : Config) (key : Block) :
    subkeys c key = (encPort c key 0).map fun l => (l, dbl l, dbl (dbl l)) := by
  unfold subkeys
  cases encPort c key 0 <;> rfl

/-- Settles O21, by what the cipher answers on the zero block. -/
theorem subkeysOfKey : Obligations.SubkeysOfKey := fun c key =>
  ⟨fun hfail => by rw [subkeys_eq_map, hfail, Option.map_none],
    fun l hl => by rw [subkeys_eq_map, hl, Option.map_some]⟩

/-! ## The commands -/

/-- `DBL` on an idle engine: `D_DBL` and the completion, which finds `K1` and `K2` zero as the issue left them. -/
theorem complete_doubleV_issued (s : State) :
    complete (doubleV (issued .dbl s)) =
      endState .dbl { s with inp := { s.inp with v := dbl s.inp.v } } Outputs.zero false s.inp.v.msb .none := rfl

theorem exec_dbl_idle {s : State} (hb : s.stat.busy = false) :
    exec .dbl s = .next (complete (doubleV (issued .dbl s))) := by
  rw [exec, execDbl, runCommand_idle _ s _ hb]

theorem engineTurns_issued_dbl (s : State) :
    engineTurns 2 (issued .dbl s) = .next (complete (doubleV (issued .dbl s))) := by
  rw [engineTurns_succ 1 (issued .dbl s) (goto .fin (doubleV (issued .dbl s))) rfl rfl]
  exact engineTurns_fin (s := doubleV (issued .dbl s)) rfl 0

/-- Settles O13: `DBL` is `D_DBL` and `FIN`, as one transition and as two turns of the engine. -/
theorem dblDoublesV : Obligations.DblDoublesV := by
  refine ⟨fun s hb => ⟨?_, rfl, rfl, (engineTurns_issued_dbl s).trans (exec_dbl_idle hb).symm⟩,
    by decide, by decide, by decide, by decide, by decide⟩
  rw [exec_dbl_idle hb, complete_doubleV_issued, getLsbD_byteAt_zero_top]

/-- An abort of a command that has done nothing since its issue (R181, R246). -/
theorem raise_issued (k : ErrKind) (i : Instr) (s : State) :
    raise k (issued i s) = endState i s Outputs.zero false false k := rfl

/-- The completion of `DERIVE.CMAC` keeps the subkeys (R190). -/
theorem complete_subkeys_issued (k1 k2 : Block) (s : State) :
    complete { issued .deriveCmac s with out := { (issued .deriveCmac s).out with k1 := k1, k2 := k2 } } =
      endState .deriveCmac s { k1 := k1, k2 := k2, tag := 0, tlen := 0 } false false .none := rfl

/-- Settles O14: after the issue the command aborts at the key's length or at the cipher, or completes. -/
theorem deriveLeavesSubkeys : Obligations.DeriveLeavesSubkeys := by
  refine fun s hb => ⟨fun hk => ?_, fun hk hfail => ?_, fun l hk hl => ?_⟩
  · rw [exec_deriveCmac_idle hb, if_pos hk, raise_issued]
  · rw [exec_deriveCmac_idle hb, if_neg (not_not.mpr hk), hfail, Option.elim_none, raise_issued]
  · rw [exec_deriveCmac_idle hb, if_neg (not_not.mpr hk), hl, Option.elim_some, complete_subkeys_issued]

/-! ## The steps -/

/-- Settles O41, step by step; the words of `IR` are those of the commands that derive the subkeys. -/
theorem subkeySteps : Obligations.SubkeySteps := by
  intro s hb
  refine ⟨fun hp => ?_, fun hp hk => ?_, fun hp hk => ?_, fun hp hfail => ?_, fun l hp hl => ?_, fun hp => ?_,
    fun hp hir => ?_, fun hp hir => ?_⟩
  all_goals rw [engineTurn_busy s hb, engineStep, hp]
  · rw [getLsbD_byteAt_zero_top]
    rfl
  · exact if_pos hk
  · exact if_neg (not_not.mpr hk)
  · exact (stepSL_eq s).trans (by rw [hfail, Option.elim_none])
  · exact (stepSL_eq s).trans (by rw [hl, Option.elim_some, goto])
  · rfl
  · exact stepSK2_eq (i := .deriveCmac) (by decide) hir
  · obtain hir | hir := hir
    · exact stepSK2_eq (i := .signCmac) (by decide) hir
    · exact stepSK2_eq (i := .verifyCmac) (by decide) hir

end Sys2Proof.Machine
end

section
/-! PROOFS. The statements of spec/41_cmac.md: the block count and the final block (R122 to R124), the chaining and its
edge cases (R125 to R127), the command `SIGN.CMAC` (R121, R136), the steps of the controller (R128 to R133), and how
often a command invokes each primitive (R134, R150, R161). The counts are read off the phases that the engine passes on
its way from the issue to the end of a command, which are those of R185 (`passes_phaseSequence`). -/

namespace Sys2Proof.Machine

/-! ## The block count -/

theorem blockCount_pos (len : Nat) : 1 ≤ blockCount len := Nat.le_max_left _ _

theorem le_mul_blockCount (len : Nat) : len ≤ 16 * blockCount len := by
  unfold blockCount
  omega

/-- A message of at most one block, the empty one included. -/
theorem blockCount_of_le {len : Nat} (h : len ≤ 16) : blockCount len = 1 := by
  unfold blockCount
  omega

/-- The last block is empty only where the message is. -/
theorem lastBlock_lt {len : Nat} (h : len ≠ 0) : 16 * (blockCount len - 1) < len := by
  unfold blockCount
  omega

/-- The blocks before the last are whole. -/
theorem lastBlock_le (len : Nat) : 16 * (blockCount len - 1) ≤ len := by
  unfold blockCount
  omega

/-- Settles O22, from the bounds on where the last block starts. -/
theorem blockCountCoversMessage : Obligations.BlockCountCoversMessage := by
  refine fun len => ⟨blockCount_pos len, le_mul_blockCount len, ?_, lastBlock_lt, fun i hi => ?_⟩
  · rintro rfl
    exact blockCount_of_le (Nat.zero_le 16)
  · have hle := lastBlock_le len
    omega

/-! ## The final block -/

theorem isComplete_iff (len : Nat) : isComplete len = true ↔ len ≠ 0 ∧ len % 16 = 0 := by simp [isComplete]

theorem finalBlock_of_complete {len : Nat} (h : len ≠ 0 ∧ len % 16 = 0) (last : List Byte) (k1 k2 : Block) :
    finalBlock len last k1 k2 = ofBytes 128 last ^^^ k1 := if_pos ((isComplete_iff len).mpr h)

theorem finalBlock_of_incomplete {len : Nat} (h : len = 0 ∨ len % 16 ≠ 0) (last : List Byte) (k1 k2 : Block) :
    finalBlock len last k1 k2 = ofBytes 128 (padBlock last) ^^^ k2 :=
  if_neg fun hc => by
    obtain ⟨h0, h16⟩ := (isComplete_iff len).mp hc
    exact h.elim h0 (absurd h16)

theorem length_padBlock {bs : List Byte} (h : bs.length ≤ 15) : (padBlock bs).length = 16 := by
  simp only [padBlock, List.length_append, List.length_cons, List.length_replicate]
  omega

/-- R124, byte by byte. -/
theorem getD_padBlock (bs : List Byte) (i : Nat) :
    (padBlock bs).getD i 0 = if i < bs.length then bs.getD i 0 else if i = bs.length then 0x80 else 0 := by
  unfold padBlock
  split
  case isTrue hlt => exact List.getD_append _ _ _ _ hlt
  case isFalse hge =>
    rw [List.getD_append_right _ _ _ _ (Nat.not_lt.mp hge)]
    split
    case isTrue heq => rw [heq, Nat.sub_self, List.getD_cons_zero]
    case isFalse hne =>
      obtain ⟨j, hj⟩ : ∃ j, i - bs.length = j + 1 := ⟨i - bs.length - 1, by omega⟩
      rw [hj, List.getD_cons_succ, List.getD_eq_getElem?_getD, List.getElem?_getD_replicate_default_eq]

theorem getD_drop (bs : List Byte) (m i : Nat) : (bs.drop m).getD i 0 = bs.getD (m + i) 0 := by
  rw [List.getD_eq_getElem?_getD, List.getElem?_drop, List.getD_eq_getElem?_getD]

/-- Settles O23: the last block has 16 bytes in the complete case, and at most 15, which are padded, in the other. -/
theorem finalBlockSelection : Obligations.FinalBlockSelection := by
  refine fun msg k1 k2 => ⟨fun hne h16 i hi => ?_, fun hinc i hi => ?_⟩
  · have hlen : msg.length ≠ 0 := fun h0 => hne (List.length_eq_zero_iff.mp h0)
    have hlast : (msg.drop (16 * (blockCount msg.length - 1))).length = 16 := by
      have hlt := lastBlock_lt hlen
      have hcover := le_mul_blockCount msg.length
      rw [List.length_drop]
      omega
    rw [finalBlock_of_complete ⟨hlen, h16⟩, byteAt_xor, byteAt_ofBytes 16 _ hlast i hi, getD_drop]
  · have hinc' : msg.length = 0 ∨ msg.length % 16 ≠ 0 := hinc.imp_left List.length_eq_zero_iff.mpr
    have hle := lastBlock_le msg.length
    have hlast : (msg.drop (16 * (blockCount msg.length - 1))).length ≤ 15 := by
      have hcover := le_mul_blockCount msg.length
      rw [List.length_drop]
      omega
    have hend : i = msg.length - 16 * (blockCount msg.length - 1) ↔
        16 * (blockCount msg.length - 1) + i = msg.length := by omega
    rw [finalBlock_of_incomplete hinc', byteAt_xor, byteAt_ofBytes 16 _ (length_padBlock hlast) i hi, getD_padBlock,
      getD_drop, List.length_drop, if_congr Nat.lt_sub_iff_add_lt' rfl (if_congr hend rfl rfl)]

/-! ## The chaining -/

theorem chain_append (c : Config) (key x : Block) (b1 b2 : List Block) :
    chain c key (b1 ++ b2) x = (chain c key b1 x).bind (chain c key b2) := by
  induction b1 generalizing x with
  | nil => rfl
  | cons b rest ih =>
    rw [List.cons_append, chain_cons, chain_cons, Option.bind_assoc]
    exact congrArg _ (funext ih)

theorem chain_singleton (c : Config) (key x b : Block) : chain c key [b] x = encPort c key (x ^^^ b) := by
  rw [chain_cons]
  exact Option.bind_fun_some _

/-- A block that is chained holds the message's bytes as they are (R125). -/
theorem byteAt_wholeBlocks {msg : List Byte} {n i j : Nat} (hi : i < n) (hn : 16 * n ≤ msg.length) (hj : j < 16) :
    byteAt ((wholeBlocks msg n).getD i 0) j = msg.getD (16 * i + j) 0 := by
  have hblock : (wholeBlocks msg n).getD i 0 = ofBytes 128 ((msg.drop (16 * i)).take 16) := by
    simp [wholeBlocks, hi]
  have hlen : ((msg.drop (16 * i)).take 16).length = 16 := by
    rw [List.length_take, List.length_drop]
    omega
  rw [hblock, byteAt_ofBytes 16 _ hlen j hj, ← getD_drop, List.getD_eq_getElem?_getD, List.getElem?_take_of_lt hj,
    List.getD_eq_getElem?_getD]

/-- Settles O25: the laws of the chaining, and `cmac` as one chain of computations. -/
theorem chainingTakesBlocksInOrder : Obligations.ChainingTakesBlocksInOrder :=
  ⟨fun _ _ _ => rfl, chain_append, chain_singleton, fun _ _ _ hi hn _ hj => byteAt_wholeBlocks hi hn hj,
    fun c key l msg hl => by rw [cmac_eq_bind, hl, Option.bind_some]⟩

/-- R127: with one block there is nothing to chain, and the cipher takes the final block alone. -/
theorem cmac_of_length_le {c : Config} {key l : Block} (hl : encPort c key 0 = some l) {msg : List Byte}
    (h : msg.length ≤ 16) :
    cmac c key msg = encPort c key (finalBlock msg.length msg (dbl l) (dbl (dbl l))) := by
  have hchain : chain c key (wholeBlocks msg (1 - 1)) 0 = some 0 := rfl
  have hzero (b : Block) : 0 ^^^ b = b := BitVec.zero_xor
  rw [cmac_eq_bind, hl, Option.bind_some, blockCount_of_le h, hchain, Option.bind_some, hzero, Nat.sub_self,
    Nat.mul_zero, List.drop_zero]

/-- R127 (b): the padding of the empty message is one bit. -/
theorem ofBytes_padBlock_nil : ofBytes 128 (padBlock []) = (0x80 : Block) <<< 120 := by decide

/-- Settles O24: the one block is the final block, which the length alone selects. -/
theorem singleBlockMessages : Obligations.SingleBlockMessages := by
  intro c key l msg hl
  have hshort (h : msg.length < 16) : cmac c key msg = encPort c key (ofBytes 128 (padBlock msg) ^^^ dbl (dbl l)) := by
    rw [cmac_of_length_le hl h.le, finalBlock_of_incomplete (by omega)]
  refine ⟨fun h => ?_, hshort, ?_⟩
  · rw [cmac_of_length_le hl h.le, finalBlock_of_complete (by omega)]
  · rintro rfl
    rw [hshort (by decide), ofBytes_padBlock_nil, BitVec.xor_comm]

/-! ## The command -/

/-- The completion of `SIGN.CMAC`, with the tag released (R188, R190). -/
theorem outcome_signCmac_issued (x : Block) (s : State) :
    outcome .signCmac (issued .signCmac s) (some (tagOfBlock x)) =
      endState .signCmac s { k1 := 0, k2 := 0, tag := x ++ (0 : Block), tlen := 16 } false false .none := rfl

/-- Settles O15: after the issue the command aborts at the key's length or at the cipher, or completes. -/
theorem signCmacReleasesTag : Obligations.SignCmacReleasesTag := by
  refine fun s hb => ⟨fun hk => ?_, fun hk hfail => ?_, fun x hk hx => ?_⟩
  · rw [exec_signCmac_idle hb, if_pos hk, raise_issued]
  · rw [exec_signCmac_idle hb, if_neg (not_not.mpr hk), hfail, Option.map_none, outcome, Option.elim_none, raise_issued]
  · rw [exec_signCmac_idle hb, if_neg (not_not.mpr hk), hx, Option.map_some, outcome_signCmac_issued]

/-! ## The steps -/

/-- The commands that come to `C_FENC` (R133, R185). -/
theorem Inv.ir_of_cFEnc {s : State} (h : Inv s) (hb : s.stat.busy = true) (hp : s.ph = .cFEnc) :
    ∃ i, (i = .signCmac ∨ i = .verifyCmac) ∧ s.ir = encode i := by
  obtain ⟨i, hi, hm⟩ := h.sequence hb
  refine ⟨i, ?_, ir_of_irCommand hi⟩
  rw [hp] at hm
  revert hm
  cases i <;> decide

/-- The next block number fits its counter, since `BLK` is below `N - 1` in the loop (R38, R131). -/
theorem Inv.blk_succ_lt {s : State} (h : Inv s) (hp : s.ph = .cEnc) : s.work.blk + 1 < 2 ^ (s.cfg.lenw - 3) := by
  have hin := h.loopInside (.inr hp)
  have hfit := h.countersFit.1
  omega

theorem lastBytes_of_complete {s : State} (h : s.inp.mlen.toNat ≠ 0 ∧ s.inp.mlen.toNat % 16 = 0) :
    lastBytes s = msgRange s (16 * (s.work.n - 1)) 16 := by
  rw [lastBytes, if_pos ((isComplete_iff _).mpr h)]

theorem lastBytes_of_incomplete {s : State} (h : s.inp.mlen.toNat = 0 ∨ s.inp.mlen.toNat % 16 ≠ 0) :
    lastBytes s = msgRange s (16 * (s.work.n - 1)) (s.inp.mlen.toNat - 16 * (s.work.n - 1)) := by
  rw [lastBytes, if_neg]
  rw [isComplete_iff]
  tauto

theorem padBlock_msgRange (s : State) (i n : Nat) :
    padBlock (msgRange s i n) = msgRange s i n ++ [0x80] ++ List.replicate (15 - n) 0 := by
  rw [padBlock, List.append_assoc, List.singleton_append, show (msgRange s i n).length = n from length_memRead _ i n]

/-- The successor of `C_FENC` (R133). -/
theorem tagPhase_eq_ite {i : Instr} (hi : i = .signCmac ∨ i = .verifyCmac) :
    tagPhase i = if encode i = 0x00000011 then .oTag else .oCmp := by
  obtain rfl | rfl := hi <;> decide

/-- Settles O42, step by step; the invariant bounds the counters and tells the command at `C_FENC`. -/
theorem cmacSteps : Obligations.CmacSteps := by
  intro s hb h
  refine ⟨fun hp => ?_, fun hp h0 h16 => ?_, ?_, fun hp => ?_, fun hp hfail => ?_, fun x hp hx => ?_, fun hp => ?_,
    fun hp hfail => ?_, fun x hp hx => ?_⟩
  case refine_3 =>
    rintro _ hp hinc rfl
    rw [engineTurn_busy s hb, engineStep, hp, ← padBlock_msgRange, ← lastBytes_of_incomplete hinc,
      ← finalBlock_of_incomplete hinc _ s.out.k1 s.out.k2]
    rfl
  all_goals rw [engineTurn_busy s hb, engineStep, hp]
  · rw [stepCInit, h.inputsFit.counter_blockCount]
    rfl
  · rw [← lastBytes_of_complete ⟨h0, h16⟩, ← finalBlock_of_complete ⟨h0, h16⟩ _ s.out.k1 s.out.k2]
    rfl
  · rfl
  · exact (stepCEnc_eq (h.blk_succ_lt hp)).trans (by rw [hfail, Option.elim_none])
  · exact (stepCEnc_eq (h.blk_succ_lt hp)).trans (by rw [hx, Option.elim_some, goto])
  · rfl
  · obtain ⟨i, hi, hir⟩ := h.ir_of_cFEnc hb hp
    exact (stepCFEnc_eq hi hir).trans (by rw [hfail, Option.elim_none])
  · obtain ⟨i, hi, hir⟩ := h.ir_of_cFEnc hb hp
    exact (stepCFEnc_eq hi hir).trans (by rw [hx, Option.elim_some, goto, tagPhase_eq_ite hi, hir, tagOfBlock])

/-! ## The phases a command passes -/

/-- From the state the engine takes its steps in these phases, one after the other, and is then idle and done. -/
def Passes : List Phase → State → Prop
  | [], s => s.stat.busy = false ∧ s.stat.done = true
  | p :: ps, s => s.stat.busy = true ∧ s.ph = p ∧ ∃ t, engineStep s = .next t ∧ Passes ps t

theorem normalizeKey_ne_none {c : Config} (hc : NeverFails c) (key : List Byte) : normalizeKey c key ≠ none := by
  by_cases hlong : 64 < key.length
  · rw [normalizeKey_of_long hlong, ne_eq, Option.map_eq_none_iff]
    exact hc.2 key
  · rw [normalizeKey_of_short (Nat.not_lt.mp hlong)]
    exact Option.some_ne_none _

section Passing

variable {i : Instr} {s : State} {p : Phase} {ps : List Phase} {w : Work} {k1 k2 : Block} (hb : s.stat.busy = true)

include hb

theorem passes_fin : Passes [.fin] (goto .fin s) := ⟨hb, rfl, complete s, rfl, rfl, rfl⟩

theorem passes_atStep {t : State} (h : engineStep (atStep p w k1 k2 s) = .next t) (ht : Passes ps t) :
    Passes (p :: ps) (atStep p w k1 k2 s) := ⟨hb, rfl, t, h, ht⟩

/-- A step that invokes a primitive, which answers. -/
theorem passes_atStep_port {α : Type} {answer : Option α} {next : α → State}
    (h : engineStep (atStep p w k1 k2 s) = .next (answer.elim (raise .primitiveFailure s) next))
    (hanswer : answer ≠ none) (hnext : ∀ a, Passes ps (next a)) : Passes (p :: ps) (atStep p w k1 k2 s) := by
  obtain ⟨a, rfl⟩ := Option.ne_none_iff_exists'.mp hanswer
  exact passes_atStep hb h (hnext a)

variable (hir : s.ir = encode i)

include hir

theorem passes_tagPhase (hi : i ∈ tagInstrs) (w : Work) (k1 k2 : Block) :
    Passes [tagPhase i, .fin] (atStep (tagPhase i) w k1 k2 s) :=
  passes_atStep hb (engineStep_tagPhase hi hir rfl) (passes_fin ((takeTag_busy i w.t _).trans hb))

variable (hc : NeverFails s.cfg)

include hc

/-- `H_NORM` to `FIN` (R146 to R149). -/
theorem passes_hNorm (hi : i = .signHmac ∨ i = .verifyHmac) (w : Work) (k1 k2 : Block) :
    Passes [.hNorm, .hPads, .hInner, .hOuter, tagPhase i, .fin] (atStep .hNorm w k1 k2 s) := by
  have hmem : i ∈ tagInstrs := by obtain rfl | rfl := hi <;> decide
  have houter (w : Work) : Passes [.hOuter, tagPhase i, .fin] (atStep .hOuter w k1 k2 s) :=
    passes_atStep_port hb (stepHOuter_eq hi (s := atStep .hOuter w k1 k2 s) hir) (hc.2 _)
      fun d => passes_tagPhase hb hir hmem { w with t := d } k1 k2
  have hinner (w : Work) : Passes [.hInner, .hOuter, tagPhase i, .fin] (atStep .hInner w k1 k2 s) :=
    passes_atStep_port hb (stepHInner_eq (atStep .hInner w k1 k2 s)) (hc.2 _) fun d => houter { w with idig := d }
  have hpads (w : Work) : Passes [.hPads, .hInner, .hOuter, tagPhase i, .fin] (atStep .hPads w k1 k2 s) :=
    passes_atStep hb rfl (hinner { w with
      ipad := xorBytes w.k0 innerPadByte, opad := xorBytes w.k0 outerPadByte })
  exact passes_atStep_port hb (stepHNorm_eq (atStep .hNorm w k1 k2 s)) (normalizeKey_ne_none hc _)
    fun k0 => hpads { w with k0 := k0 }

/-- `S_CHK` to `S_K2`, before the phases after them (R107 to R110). -/
theorem passes_subkeys (hi : i ∈ subkeyInstrs) (hk : s.inp.klen = 16) (w : Work) (k1 k2 : Block)
    (hnext : ∀ w k1 k2, Passes ps (atStep (afterSubkeys i) w k1 k2 s)) :
    Passes (.sChk :: .sL :: .sK1 :: .sK2 :: ps) (atStep .sChk w k1 k2 s) := by
  have hchk : engineStep (atStep .sChk w k1 k2 s) = .next (atStep .sL w k1 k2 s) := if_neg (not_not.mpr hk)
  refine passes_atStep hb hchk (passes_atStep_port hb (stepSL_eq (atStep .sL w k1 k2 s)) (hc.1 _ _) fun l => ?_)
  have hk2 : engineStep (atStep .sK2 { w with l := l } (dbl l) k2 s) =
      .next (atStep (afterSubkeys i) { w with l := l } (dbl l) (dbl (dbl l)) s) :=
    stepSK2_eq hi (s := atStep .sK2 { w with l := l } (dbl l) k2 s) hir
  have hpass : Passes (.sK2 :: ps) (atStep .sK2 { w with l := l } (dbl l) k2 s) := passes_atStep hb hk2 (hnext _ _ _)
  exact passes_atStep hb rfl hpass

section Cmac

variable (hi : i = .signCmac ∨ i = .verifyCmac)

include hi

theorem passes_cFXor (w : Work) (k1 k2 : Block) :
    Passes [.cFXor, .cFEnc, tagPhase i, .fin] (atStep .cFXor w k1 k2 s) := by
  have hmem : i ∈ tagInstrs := by obtain rfl | rfl := hi <;> decide
  have hfenc (w : Work) : Passes [.cFEnc, tagPhase i, .fin] (atStep .cFEnc w k1 k2 s) :=
    passes_atStep_port hb (stepCFEnc_eq hi (s := atStep .cFEnc w k1 k2 s) hir) (hc.1 _ _)
      fun x => passes_tagPhase hb hir hmem { w with x := x, t := tagOfBlock x } k1 k2
  exact passes_atStep hb rfl (hfenc { w with y := w.x ^^^ w.fb })

/-- The loop `C_XOR`, `C_ENC` for the `k` blocks that are left, and the steps after it (R130 to R133). -/
theorem passes_loop (k1 k2 : Block) (k : Nat) (w : Work) (hk : w.blk + k = w.n - 1)
    (hn : w.n < 2 ^ (s.cfg.lenw - 3)) :
    Passes (loopSequence k ++ [.cFXor, .cFEnc, tagPhase i, .fin])
      (atStep (if w.blk < w.n - 1 then .cXor else .cFXor) w k1 k2 s) := by
  induction k generalizing w with
  | zero =>
    rw [if_neg (by omega)]
    exact passes_cFXor hb hir hc hi w k1 k2
  | succ k ih =>
    rw [if_pos (by omega)]
    have henc (w : Work) (hk : w.blk + (k + 1) = w.n - 1) (hn : w.n < 2 ^ (s.cfg.lenw - 3)) :
        Passes (.cEnc :: (loopSequence k ++ [.cFXor, .cFEnc, tagPhase i, .fin])) (atStep .cEnc w k1 k2 s) :=
      passes_atStep_port hb (stepCEnc_eq (s := atStep .cEnc w k1 k2 s) (by simp only [atStep]; omega)) (hc.1 _ _)
        fun x => ih { w with x := x, blk := w.blk + 1 } (by simp only; omega) hn
    exact passes_atStep hb rfl (henc { w with y := w.x ^^^ msgBlock s w.blk } hk hn)

/-- `S_CHK` to `FIN` (R107 to R110, R128 to R133). -/
theorem passes_sChk (h : InputsFit s.cfg s.inp) (hk : s.inp.klen = 16) (w : Work) (k1 k2 : Block) :
    Passes (cmacSequence (blockCount s.inp.mlen.toNat) ++ [tagPhase i, .fin]) (atStep .sChk w k1 k2 s) := by
  have hsub : i ∈ subkeyInstrs := by obtain rfl | rfl := hi <;> decide
  have hafter : afterSubkeys i = .cInit := by obtain rfl | rfl := hi <;> rfl
  have hcount := h.counter_blockCount
  simp only [cmacSequence, List.append_assoc, List.cons_append, List.nil_append]
  refine passes_subkeys hb hir hc hsub hk w k1 k2 fun w k1 k2 => ?_
  rw [hafter]
  have hinit : engineStep (atStep .cInit w k1 k2 s) =
      .next (atStep .cSel { w with n := blockCount s.inp.mlen.toNat, x := 0, blk := 0 } k1 k2 s) := by
    rw [← hcount]
    rfl
  refine passes_atStep hb hinit (passes_atStep hb rfl (passes_loop hb hir hc hi k1 k2 _ { w with
    n := blockCount s.inp.mlen.toNat, x := 0, blk := 0, fb := _ } (Nat.zero_add _) (hcount ▸ counter_lt _ _)))

end Cmac

end Passing

theorem ctlen_eq_iff {n : Nat} (h : n < 256) (s : State) : s.inp.ctlen = BitVec.ofNat 8 n ↔ s.inp.ctlen.toNat = n := by
  rw [← BitVec.toNat_inj, BitVec.toNat_ofNat, Nat.mod_eq_of_lt h]

/-- `V_LEN`, a claimed tag of the wrong length (R161). -/
theorem passes_verify_of_ne {alg : Alg} {s : State} (hne : s.inp.ctlen.toNat ≠ tagLen (verifyInstr alg)) :
    Passes [.vLen, .fin] (issued (verifyInstr alg) s) := by
  have hstep : engineStep (issued (verifyInstr alg) s) =
      .next (goto .fin (noteTagLength (issued (verifyInstr alg) s))) := by
    cases alg <;> exact stepVLen_of_ne rfl hne
  exact ⟨rfl, by cases alg <;> rfl, _, hstep, passes_fin rfl⟩

/-- `V_LEN`, a claimed tag of the right length (R161). -/
theorem passes_verify_of_eq {alg : Alg} {s : State} {ps : List Phase}
    (heq : s.inp.ctlen.toNat = tagLen (verifyInstr alg))
    (h : Passes ps (goto (firstPhase (signInstr alg)) (issued (verifyInstr alg) s))) :
    Passes (.vLen :: ps) (issued (verifyInstr alg) s) := by
  have hstep : engineStep (issued (verifyInstr alg) s) =
      .next (goto (firstPhase (signInstr alg)) (issued (verifyInstr alg) s)) := by
    cases alg <;> exact stepVLen_of_eq rfl heq
  exact ⟨rfl, by cases alg <;> rfl, _, hstep, h⟩

/-- R185: a command that nothing aborts passes the phases of its sequence. -/
theorem passes_phaseSequence {s : State} (h : InputsFit s.cfg s.inp) (hc : NeverFails s.cfg) {i : Instr}
    (hk : i = .signCmac ∨ i = .verifyCmac ∨ i = .deriveCmac → s.inp.klen = 16) :
    Passes (phaseSequence i s) (issued i s) := by
  have hbusy (i : Instr) : (issued i s).stat.busy = true := rfl
  have hir (i : Instr) : (issued i s).ir = encode i := rfl
  cases i with
  | signHmac => exact passes_hNorm (hbusy _) (hir _) hc (.inl rfl) Work.zero 0 0
  | signCmac => exact passes_sChk (hbusy _) (hir _) hc (.inl rfl) h (hk (by decide)) Work.zero 0 0
  | verifyHmac =>
    rw [phaseSequence]
    split
    case isTrue hl =>
      exact passes_verify_of_eq (alg := .hmacSha256) ((ctlen_eq_iff (by decide) s).mp hl)
        (passes_hNorm (hbusy _) (hir .verifyHmac) hc (.inr rfl) Work.zero 0 0)
    case isFalse hl =>
      exact passes_verify_of_ne (alg := .hmacSha256) ((ctlen_eq_iff (by decide) s).not.mp hl)
  | verifyCmac =>
    rw [phaseSequence]
    split
    case isTrue hl =>
      exact passes_verify_of_eq (alg := .cmacAes128) ((ctlen_eq_iff (by decide) s).mp hl)
        (passes_sChk (hbusy _) (hir .verifyCmac) hc (.inr rfl) h (hk (by decide)) Work.zero 0 0)
    case isFalse hl =>
      exact passes_verify_of_ne (alg := .cmacAes128) ((ctlen_eq_iff (by decide) s).not.mp hl)
  | deriveCmac =>
    exact passes_subkeys (hbusy _) (hir .deriveCmac) hc (by decide) (hk (by decide)) Work.zero 0 0
      fun w k1 k2 => passes_fin (s := atStep .fin w k1 k2 (issued .deriveCmac s)) rfl
  | dbl => exact ⟨rfl, rfl, _, rfl, passes_fin (s := doubleV (issued .dbl s)) rfl⟩
  | clear => exact ⟨rfl, rfl, _, rfl, passes_fin (s := wipeAll (issued .clear s)) rfl⟩

theorem length_loopSequence (n : Nat) : (loopSequence n).length = 2 * n := by
  induction n with
  | zero => rfl
  | succ n ih =>
    simp only [loopSequence, List.length_cons, ih]
    omega

theorem length_cmacSequence {n : Nat} (hn : 1 ≤ n) : (cmacSequence n).length = 2 * n + 6 := by
  simp only [cmacSequence, List.length_append, length_loopSequence, List.length_cons, List.length_nil]
  omega

/-- R185: the sequence of a command has its number of steps. -/
theorem length_phaseSequence (i : Instr) (s : State) : (phaseSequence i s).length = stepCount i s := by
  have hn := length_cmacSequence (blockCount_pos s.inp.mlen.toNat)
  cases i with
  | signCmac => simp only [phaseSequence, stepCount, List.length_append, hn, List.length_cons, List.length_nil]
  | verifyHmac =>
    rw [phaseSequence, stepCount, apply_ite List.length]
    exact if_congr (ctlen_eq_iff (by decide) s) rfl rfl
  | verifyCmac =>
    rw [phaseSequence, stepCount, apply_ite List.length]
    refine if_congr (ctlen_eq_iff (by decide) s) ?_ rfl
    simp only [List.length_append, List.length_cons, hn, List.length_nil]
  | signHmac => rfl
  | deriveCmac => rfl
  | dbl => rfl
  | clear => rfl

/-! ## The invocations of the primitives -/

/-- No step but `Z_CLR` writes `KLEN` (R67). -/
theorem engineStep_klen {s t : State} (h : engineStep s = .next t) (hp : s.ph ≠ .zClr) : t.inp.klen = s.inp.klen := by
  obtain ⟨hz, -⟩ | ⟨-, hi⟩ | hi := engineStep_inp h
  · exact absurd hz hp
  · rw [hi]
  · rw [hi]

/-- What holds of a state by its phase, and by `KLEN`, is counted over the phases passed. -/
theorem Passes.countTurns_eq {holds : State → Bool} {holdsAt : Phase → Bool} {k : Word}
    (hat : ∀ u, u.stat.busy = true → u.inp.klen = k → holds u = holdsAt u.ph) {ps : List Phase} (hz : .zClr ∉ ps)
    {s : State} (h : Passes ps s) (hk : s.inp.klen = k) : countTurns holds ps.length s = ps.countP holdsAt := by
  induction ps generalizing s with
  | nil => rfl
  | cons p ps ih =>
    obtain ⟨hb, rfl, t, hstep, ht⟩ := h
    rw [List.mem_cons, not_or] at hz
    have htail := ih hz.2 ht ((engineStep_klen hstep (Ne.symm hz.1)).trans hk)
    simp only [List.length_cons, countTurns, engineTurn_busy s hb, hstep, htail, hat s hb hk, List.countP_cons]
    exact Nat.add_comm _ _

/-- The phases in which a step invokes the cipher (R108, R131, R133). -/
def cipherAt (p : Phase) : Bool := [Phase.sL, .cEnc, .cFEnc].contains p

/-- The phases in which a step invokes the hash, with this `KLEN` (R146, R148, R149). -/
def hashAt (k : Word) (p : Phase) : Bool := p == .hInner || p == .hOuter || (p == .hNorm && decide (k.toNat > 64))

theorem invokesCipher_of_busy {s : State} (hb : s.stat.busy = true) : invokesCipher s = cipherAt s.ph := by
  rw [invokesCipher, hb, Bool.true_and, cipherAt]

theorem invokesHash_of_busy {s : State} (hb : s.stat.busy = true) : invokesHash s = hashAt s.inp.klen s.ph := by
  rw [invokesHash, hb, Bool.true_and, hashAt]

section Counts

variable {ps : List Phase} (hz : .zClr ∉ ps) {s : State} (h : Passes ps s)

include hz h

theorem countTurns_invokesCipher : countTurns invokesCipher ps.length s = ps.countP cipherAt :=
  h.countTurns_eq (fun _ hb _ => invokesCipher_of_busy hb) hz rfl

theorem countTurns_invokesHash : countTurns invokesHash ps.length s = ps.countP (hashAt s.inp.klen) :=
  h.countTurns_eq (fun _ hb hk => hk ▸ invokesHash_of_busy hb) hz rfl

end Counts

theorem mem_loopSequence {p : Phase} {n : Nat} (h : p ∈ loopSequence n) : p = .cXor ∨ p = .cEnc := by
  induction n with
  | zero => simp [loopSequence] at h
  | succ n ih =>
    simp only [loopSequence, List.mem_cons] at h
    tauto

/-- Only `CLEAR` has the step `Z_CLR` (R185). -/
theorem zClr_notMem_phaseSequence {i : Instr} (hi : i ≠ .clear) (s : State) : .zClr ∉ phaseSequence i s := by
  have hloop (n : Nat) : .zClr ∉ loopSequence n := fun h => by simpa using mem_loopSequence h
  cases i with
  | signCmac => simp [phaseSequence, cmacSequence, hloop]
  | verifyHmac =>
    rw [phaseSequence]
    split <;> decide
  | verifyCmac =>
    rw [phaseSequence]
    split
    · simp [cmacSequence, hloop]
    · decide
  | signHmac => simp [phaseSequence]
  | deriveCmac => simp [phaseSequence]
  | dbl => simp [phaseSequence]
  | clear => exact absurd rfl hi

theorem countP_cipherAt_loopSequence (n : Nat) : (loopSequence n).countP cipherAt = n := by
  induction n with
  | zero => rfl
  | succ n ih => simp [loopSequence, cipherAt, ih]

/-- R134: `S_L`, the `N - 1` steps `C_ENC`, and `C_FENC`. -/
theorem countP_cipherAt_cmacSequence {n : Nat} (hn : 1 ≤ n) : (cmacSequence n).countP cipherAt = n + 1 := by
  have hhead : [Phase.sChk, .sL, .sK1, .sK2, .cInit, .cSel].countP cipherAt = 1 := by decide
  have htail : [Phase.cFXor, .cFEnc].countP cipherAt = 1 := by decide
  rw [cmacSequence, List.countP_append, List.countP_append, countP_cipherAt_loopSequence, hhead, htail]
  omega

theorem countP_hashAt_cmacSequence (k : Word) (n : Nat) : (cmacSequence n).countP (hashAt k) = 0 := by
  have hloop : (loopSequence (n - 1)).countP (hashAt k) = 0 := by
    refine List.countP_eq_zero.mpr fun p hp => ?_
    obtain rfl | rfl := mem_loopSequence hp <;> simp [hashAt]
  rw [cmacSequence, List.countP_append, List.countP_append, hloop]
  rfl

/-- R134, over the phases of a command. -/
theorem countP_cipherAt_phaseSequence (i : Instr) (s : State) :
    (phaseSequence i s).countP cipherAt = match i with
      | .signCmac => blockCount s.inp.mlen.toNat + 1
      | .verifyCmac => if s.inp.ctlen = 16 then blockCount s.inp.mlen.toNat + 1 else 0
      | .deriveCmac => 1
      | _ => 0 := by
  have hn := countP_cipherAt_cmacSequence (blockCount_pos s.inp.mlen.toNat)
  cases i with
  | signCmac =>
    rw [phaseSequence, List.countP_append, hn]
    rfl
  | verifyHmac =>
    rw [phaseSequence]
    split <;> rfl
  | verifyCmac =>
    dsimp only [phaseSequence]
    split
    · rw [List.countP_append, List.countP_cons, hn]
      rfl
    · rfl
  | signHmac => rfl
  | deriveCmac => rfl
  | dbl => rfl
  | clear => rfl

/-- R150: `H_INNER`, `H_OUTER`, and `H_NORM` for a long key. -/
theorem countP_hashAt_hmac (k : Word) {p : Phase} (hp : p = .oTag ∨ p = .oCmp) :
    [Phase.hNorm, .hPads, .hInner, .hOuter, p, .fin].countP (hashAt k) = if k.toNat ≤ 64 then 2 else 3 := by
  by_cases hk : k.toNat ≤ 64
  · obtain rfl | rfl := hp <;> simp [hashAt, hk, Nat.not_lt.mpr hk]
  · obtain rfl | rfl := hp <;> simp [hashAt, hk, Nat.not_le.mp hk]

/-- R150, over the phases of a command. -/
theorem countP_hashAt_phaseSequence (k : Word) (i : Instr) (s : State) :
    (phaseSequence i s).countP (hashAt k) = match i with
      | .signHmac => if k.toNat ≤ 64 then 2 else 3
      | .verifyHmac => if s.inp.ctlen = 32 then (if k.toNat ≤ 64 then 2 else 3) else 0
      | _ => 0 := by
  have hn := countP_hashAt_cmacSequence k (blockCount s.inp.mlen.toNat)
  cases i with
  | signHmac => exact countP_hashAt_hmac k (.inl rfl)
  | signCmac =>
    rw [phaseSequence, List.countP_append, hn]
    rfl
  | verifyHmac =>
    dsimp only [phaseSequence]
    split
    · exact (List.countP_cons_of_neg Bool.false_ne_true).trans (countP_hashAt_hmac k (.inr rfl))
    · rfl
  | verifyCmac =>
    dsimp only [phaseSequence]
    split
    · rw [List.countP_append, List.countP_cons, hn]
      rfl
    · rfl
  | deriveCmac => rfl
  | dbl => rfl
  | clear => rfl

/-- Settles O50: the invocations are counted over the phases that the command passes. `CLEAR`, which alone changes
`KLEN` on its way, invokes nothing in either of its two steps. -/
theorem primitiveInvocations : Obligations.PrimitiveInvocations := by
  intro s i h hb hc hk
  by_cases hi : i = .clear
  · subst hi
    exact ⟨rfl, rfl⟩
  · have hpass := passes_phaseSequence h.inputsFit hc hk
    have hz := zClr_notMem_phaseSequence hi s
    have hcipher := countTurns_invokesCipher hz hpass
    have hhash := countTurns_invokesHash hz hpass
    rw [length_phaseSequence, countP_cipherAt_phaseSequence] at hcipher
    rw [length_phaseSequence, countP_hashAt_phaseSequence] at hhash
    rw [hcipher, hhash]
    cases i <;> exact ⟨rfl, rfl⟩

end Sys2Proof.Machine
end

section
/-! PROOFS. The statements of spec/42_hmac.md: key normalisation (R142), the pads and the nested hash (R143 to R145),
the command `SIGN.HMAC` (R140, R141), and the steps of the sequencer (R146 to R149). -/

namespace Sys2Proof.Machine

/-! ## Key normalisation -/

/-- Zeros on the right change no byte: a byte past the end reads as zero. -/
theorem getD_append_zeros (bs : List Byte) (n i : Nat) : (bs ++ List.replicate n 0).getD i 0 = bs.getD i 0 := by
  obtain hlt | hge := Nat.lt_or_ge i bs.length
  · exact List.getD_append _ _ _ _ hlt
  · rw [List.getD_append_right _ _ _ _ hge, List.getD_eq_default _ _ hge, List.getD_eq_getElem?_getD,
      List.getElem?_getD_replicate_default_eq]

/-- R142, the bytes of a key of at most 64 bytes, extended to 64. -/
theorem byteAt_zeroExtended {key : List Byte} (h : key.length ≤ 64) {i : Nat} (hi : i < 64) :
    byteAt (ofBytes 512 (key ++ List.replicate (64 - key.length) 0)) i = key.getD i 0 := by
  have hlen : (key ++ List.replicate (64 - key.length) (0 : Byte)).length = 64 := by
    rw [List.length_append, List.length_replicate, Nat.add_sub_cancel' h]
  rw [byteAt_ofBytes 64 _ hlen i hi, getD_append_zeros]

/-- Settles O26: a long key by what the hash answers, a short one byte by byte. -/
theorem keyNormalisation : Obligations.KeyNormalisation := by
  refine fun c key => ⟨fun hlong hfail => ?_, fun d hlong hd => ?_, fun hshort => ?_⟩
  · rw [normalizeKey_of_long hlong, hfail, Option.map_none]
  · rw [normalizeKey_of_long hlong, hd, Option.map_some]
  · exact ⟨_, normalizeKey_of_short hshort c, fun i hi => byteAt_zeroExtended hshort hi⟩

/-! ## The pads and the two hashes -/

/-- R143: a pad is made of `K0` byte by byte. -/
theorem byteAt_xorBytes (k0 : HashBlock) (b : Byte) {i : Nat} (hi : i < 64) :
    byteAt (xorBytes k0 b) i = byteAt k0 i ^^^ b := by
  have hlen : i < (bytesOf k0).length := by simpa using hi
  rw [xorBytes, byteAt_ofBytes 64 _ (by simp) i hi, List.getD_eq_getElem _ _ (by simpa using hlen), List.getElem_map,
    getElem_bytesOf k0 i hlen]

/-- Settles O27: the bytes of a pad, and HMAC as a chain of computations that stops at the first that fails. -/
theorem nestedHash : Obligations.NestedHash := by
  refine ⟨fun k0 b i hi => byteAt_xorBytes k0 b hi, fun c key msg k0 d hkey hinner => ?_,
    fun c key msg k0 hkey hfail => ?_, fun c key msg hfail => ?_⟩
  · rw [hmac_eq_bind, hkey, Option.bind_some, hinner, Option.bind_some]
  · rw [hmac_eq_bind, hkey, Option.bind_some, hfail, Option.bind_none]
  · rw [hmac_eq_bind, hfail, Option.bind_none]

/-! ## The command -/

/-- The completion of `SIGN.HMAC`, with the tag released (R188, R190). -/
theorem outcome_signHmac_issued (t : Digest) (s : State) :
    outcome .signHmac (issued .signHmac s) (some t) =
      endState .signHmac s { k1 := 0, k2 := 0, tag := t, tlen := 32 } false false .none := rfl

/-- Settles O16: after the issue the command aborts at a hash, or completes. -/
theorem signHmacReleasesTag : Obligations.SignHmacReleasesTag := by
  refine fun s hb => ⟨fun hfail => ?_, fun t ht => ?_⟩
  · rw [exec_signHmac_idle hb, hfail, outcome, Option.elim_none, raise_issued]
  · rw [exec_signHmac_idle hb, ht, outcome_signHmac_issued]

/-! ## The steps -/

/-- A failing outer hash aborts whatever command is in `IR` (R149). -/
theorem stepHOuter_of_fail {s : State} (h : hashPort s.cfg (bytesOf s.work.opad ++ bytesOf s.work.idig) = none) :
    stepHOuter s = .next (raise .primitiveFailure s) := by rw [stepHOuter, h]

/-- Settles O43, step by step; `H_NORM` is key normalisation, and `IR` tells the successor of `H_OUTER`. -/
theorem hmacSteps : Obligations.HmacSteps := by
  intro s hb
  have hkey (hlong : 64 < s.inp.klen.toNat) := normalizeKey_of_long (hlong.trans_eq (length_keyBytes s).symm) s.cfg
  refine ⟨fun hp hlong hfail => ?_, fun d hp hlong hd => ?_, fun hp hshort => ?_, fun hp => ?_, fun hp hfail => ?_,
    fun d hp hd => ?_, fun hp hfail => ?_, fun d hp hd => ⟨fun hir => ?_, fun hir => ?_⟩⟩
  all_goals rw [engineTurn_busy s hb, engineStep, hp]
  · exact (stepHNorm_eq s).trans (by rw [hkey hlong, keyBytes, hfail, Option.map_none, Option.elim_none])
  · exact (stepHNorm_eq s).trans (by rw [hkey hlong, keyBytes, hd, Option.map_some, Option.elim_some, goto])
  · have hzero := normalizeKey_of_short ((length_keyBytes s).trans_le hshort) s.cfg
    rw [length_keyBytes] at hzero
    exact (stepHNorm_eq s).trans (by rw [hzero, Option.elim_some, goto, keyBytes])
  · rfl
  · exact (stepHInner_eq s).trans (by rw [hfail, Option.elim_none])
  · exact (stepHInner_eq s).trans (by rw [hd, Option.elim_some, goto])
  · exact stepHOuter_of_fail hfail
  · exact (stepHOuter_eq (i := .signHmac) (.inl rfl) hir).trans (by rw [hd]; rfl)
  · exact (stepHOuter_eq (i := .verifyHmac) (.inr rfl) hir).trans (by rw [hd]; rfl)

end Sys2Proof.Machine
end

section
/-! PROOFS. The statements of spec/43_verify.md: the comparison (R162), the steps of the comparator (R161, R164), every
outcome of `VERIFY` (R160, R166, R169, R170), how it agrees with `SIGN` (R165, R168), and that its steps depend on the
lengths alone (R163). For the last, two runs are compared through the part of the state that the lengths decide
(`skeleton`). -/

namespace Sys2Proof.Machine

/-! ## The comparison of tags -/

/-- Settles O28: the first equivalence is the definition, and the or of the differences is zero where there is none. -/
theorem constantTimeCompareIsEquality : Obligations.ConstantTimeCompareIsEquality :=
  fun _ _ h => ⟨beq_iff_eq, ctEq_eq_true_iff h⟩

/-- R164: the comparator compares the tag with `CTAG` byte by byte. -/
theorem ctEq_take_ctagBytes (d : Digest) (s : State) {n : Nat} (hn : n ≤ 32) :
    ctEq ((bytesOf d).take n) (ctagBytes s n) = decide (∀ i : Fin n, byteAt s.inp.ctag i = byteAt d i) := by
  have hd : (bytesOf d).take n = (List.range n).map (byteAt d) := by
    rw [bytesOf, ← List.map_take, List.take_range, Nat.min_eq_left hn]
  have hc : ctagBytes s n = (List.range n).map (byteAt s.inp.ctag) := by simp only [ctagBytes, memRead, Nat.zero_add]
  rw [hd, hc, ctEq_eq_decide (by rw [List.length_map, List.length_map]), decide_eq_decide, eq_comm, List.map_inj_left,
    Fin.forall_iff]
  simp only [List.mem_range]

/-! ## The steps -/

/-- `O_CMP` (R164). -/
theorem engineStep_oCmp {alg : Alg} {s : State} (hir : s.ir = encode (verifyInstr alg)) (hp : s.ph = .oCmp) :
    engineStep s = .next { s with
      stat := { s.stat with vok := decide (∀ i : Fin (algTagLen alg), byteAt s.work.t i = byteAt s.inp.ctag i) }
      ph := .fin } := by
  have htake : takeTag (verifyInstr alg) s.work.t s = compareTag s.work.t (algTagLen alg) s := by cases alg <;> rfl
  rw [engineStep_tagPhase (i := verifyInstr alg) (by cases alg <;> decide) hir (by cases alg <;> exact hp), htake,
    compareTag, ctEq_take_ctagBytes _ _ (algTagLen_le alg)]
  simp only [goto, eq_comm]

/-- Settles O44, step by step; `IR` tells the algorithm. -/
theorem comparatorSteps : Obligations.ComparatorSteps := by
  intro s hb
  have h32 := ctlen_eq_iff (n := 32) (by decide) s
  have h16 := ctlen_eq_iff (n := 16) (by decide) s
  refine ⟨fun hp hir hl => ?_, fun hp hir hl => ?_, ?_, fun hp hir => ?_, fun hp hir => ?_⟩
  case refine_3 =>
    rintro hp (⟨hir, hl⟩ | ⟨hir, hl⟩)
    all_goals rw [engineTurn_busy s hb, engineStep, hp]
    · exact stepVLen_of_ne (alg := .hmacSha256) hir (h32.not.mp hl)
    · exact stepVLen_of_ne (alg := .cmacAes128) hir (h16.not.mp hl)
  all_goals rw [engineTurn_busy s hb]
  · rw [engineStep, hp]
    exact stepVLen_of_eq (alg := .hmacSha256) hir (h32.mp hl)
  · rw [engineStep, hp]
    exact stepVLen_of_eq (alg := .cmacAes128) hir (h16.mp hl)
  · exact engineStep_oCmp (alg := .hmacSha256) hir hp
  · exact engineStep_oCmp (alg := .cmacAes128) hir hp

/-! ## The commands -/

section Verify

variable {alg : Alg} {s : State} (hb : s.stat.busy = false)

include hb

/-- R161: a claimed tag of the wrong length. -/
theorem exec_verify_of_ne (hl : s.inp.ctlen.toNat ≠ algTagLen alg) :
    exec (verifyInstr alg) s =
      .next (endState (verifyInstr alg) s Outputs.zero false false .tagLengthMismatch) := by
  rw [exec_verify hb]
  exact congrArg _ (if_pos hl)

variable (hl : s.inp.ctlen.toNat = algTagLen alg)

include hl

theorem exec_verify_of_error {k : ErrKind} (hr : computedTag s.cfg alg (keyBytes s) (msgBytes s) = .error k) :
    exec (verifyInstr alg) s = .next (endState (verifyInstr alg) s Outputs.zero false false k) := by
  rw [exec_verify hb, hr]
  exact congrArg _ (if_neg (not_not.mpr hl))

theorem exec_verify_of_ok {d : Digest} (hr : computedTag s.cfg alg (keyBytes s) (msgBytes s) = .ok d) :
    exec (verifyInstr alg) s = .next (endState (verifyInstr alg) s Outputs.zero
      (decide (∀ i : Fin (algTagLen alg), byteAt s.inp.ctag i = byteAt d i)) false .none) := by
  rw [exec_verify hb, hr, verifyEnd, if_neg (not_not.mpr hl), ctEq_take_ctagBytes d s (algTagLen_le alg)]

end Verify

/-- What a CMAC command computes, from `KLEN` and the cipher's key (R120, R121). -/
theorem computedTag_cmac (s : State) :
    computedTag s.cfg .cmacAes128 (keyBytes s) (msgBytes s) =
      if s.inp.klen ≠ 16 then .error .keyLengthInvalid
      else (cmac s.cfg (cipherKey s) (msgBytes s)).elim (.error .primitiveFailure) fun x => .ok (tagOfBlock x) := by
  rw [computedTag]
  by_cases hk : (keyBytes s).length = 16
  · rw [if_neg (not_not.mpr hk), if_neg ((klen_ne_iff s).not.mpr (not_not.mpr hk)), cipherKey_eq hk]
  · rw [if_pos hk, if_pos ((klen_ne_iff s).mpr hk)]

/-- Settles O17: `CTLEN`, then what HMAC answers, decides the end of the command. -/
theorem verifyHmacOutcomes : Obligations.VerifyHmacOutcomes := by
  intro s hb
  have h32 := ctlen_eq_iff (n := 32) (by decide) s
  refine ⟨fun hl => ?_, fun hl hfail => ?_, fun t hl ht => ?_⟩
  · exact exec_verify_of_ne (alg := .hmacSha256) hb (h32.not.mp hl)
  · have hr : computedTag s.cfg .hmacSha256 (keyBytes s) (msgBytes s) = .error .primitiveFailure := by
      rw [computedTag, hfail, Option.elim_none]
    exact exec_verify_of_error (alg := .hmacSha256) hb (h32.mp hl) hr
  · have hr : computedTag s.cfg .hmacSha256 (keyBytes s) (msgBytes s) = .ok t := by
      rw [computedTag, ht, Option.elim_some]
    have hbytes : (∀ i : Fin 32, byteAt s.inp.ctag i = byteAt t i) ↔ s.inp.ctag = t :=
      ⟨fun h => eq_of_byteAt_eq (n := 32) _ _ (Fin.forall_iff.mp h), fun h _ => by rw [h]⟩
    rw [← decide_eq_decide.mpr hbytes]
    exact exec_verify_of_ok (alg := .hmacSha256) hb (h32.mp hl) hr

/-- Settles O18: `CTLEN`, then `KLEN`, then what CMAC answers, decides the end of the command. -/
theorem verifyCmacOutcomes : Obligations.VerifyCmacOutcomes := by
  intro s hb
  have h16 := ctlen_eq_iff (n := 16) (by decide) s
  have htag := computedTag_cmac s
  refine ⟨fun hl => ?_, fun hl hk => ?_, fun hl hk hfail => ?_, fun x hl hk hx => ?_⟩
  · exact exec_verify_of_ne (alg := .cmacAes128) hb (h16.not.mp hl)
  · rw [if_pos hk] at htag
    exact exec_verify_of_error (alg := .cmacAes128) hb (h16.mp hl) htag
  · rw [if_neg (not_not.mpr hk), hfail, Option.elim_none] at htag
    exact exec_verify_of_error (alg := .cmacAes128) hb (h16.mp hl) htag
  · rw [if_neg (not_not.mpr hk), hx, Option.elim_some] at htag
    have hbytes : (∀ i : Fin 16, byteAt s.inp.ctag i = byteAt (tagOfBlock x) i) ↔
        ∀ i : Fin 16, byteAt s.inp.ctag i = byteAt x i :=
      forall_congr' fun i => by rw [byteAt_tagOfBlock_low x i i.isLt]
    rw [← decide_eq_decide.mpr hbytes]
    exact exec_verify_of_ok (alg := .cmacAes128) hb (h16.mp hl) htag

/-! ## `SIGN` and `VERIFY` -/

/-- Settles O30: both commands compute the same, and `VERIFY` looks at it only where `CTLEN` is right. -/
theorem verifyAgreesWithSign : Obligations.VerifyAgreesWithSign := by
  intro s alg hb
  have hsign := exec_sign hb alg
  by_cases hl : s.inp.ctlen.toNat = algTagLen alg
  · cases hr : computedTag s.cfg alg (keyBytes s) (msgBytes s) with
    | ok d =>
      rw [hr] at hsign
      refine ⟨_, _, hsign, exec_verify_of_ok hb hl hr, fun _ => ?_, fun hne => absurd hl hne, fun _ => rfl⟩
      rw [and_iff_right hl]
      exact decide_eq_true_iff.trans Fin.forall_iff
    | error k =>
      rw [hr] at hsign
      have hk : k ≠ .none := by obtain rfl | rfl := computedTag_error hr <;> decide
      exact ⟨_, _, hsign, exec_verify_of_error hb hl hr, fun hnone => absurd hnone hk, fun hne => absurd hl hne,
        fun _ => rfl⟩
  · exact ⟨_, _, hsign, exec_verify_of_ne hb hl,
      fun _ => ⟨fun h => absurd h Bool.false_ne_true, fun h => absurd h.1 hl⟩, fun _ => rfl, fun h => absurd h hl⟩

/-- Settles O31: `SIGN` leaves the key and the message as they were, so that `VERIFY` computes the tag released. -/
theorem signThenVerifySucceeds : Obligations.SignThenVerifySucceeds := by
  intro s t alg ctag hb hsign herr hbytes
  rw [exec_sign hb alg] at hsign
  cases hr : computedTag s.cfg alg (keyBytes s) (msgBytes s) with
  | error k =>
    rw [hr] at hsign
    cases hsign
    obtain rfl | rfl := computedTag_error hr <;> cases herr
  | ok d =>
    rw [hr] at hsign
    cases hsign
    have hlen : (BitVec.ofNat 8 (algTagLen alg)).toNat = algTagLen alg := by cases alg <;> rfl
    have hequal (i : Fin (algTagLen alg)) : byteAt ctag i = byteAt d i := hbytes i (i.isLt.trans_eq hlen.symm)
    exact ⟨_, exec_verify_of_ok rfl hlen hr, decide_eq_true hequal, rfl⟩

/-! ## The phases of a run -/

/-- What the lengths decide (R163): the state without the bytes of the spaces, the results and the values computed. -/
def skeleton (s : State) : State :=
  { s with
    stat := { Status.zero with busy := s.stat.busy }
    ie := false
    inp := { Inputs.zero with klen := s.inp.klen, mlen := s.inp.mlen, ctlen := s.inp.ctlen }
    out := Outputs.zero
    work := { Work.zero with n := s.work.n, blk := s.work.blk }
    script := []
    answers := [] }

/-- The skeleton of what a transition answers; there is none where the machine stops. -/
def skeletonOf : Result → Option State
  | .next s => some (skeleton s)
  | .fault _ => none
  | .refused _ => none

theorem skeleton_cfg (s : State) : (skeleton s).cfg = s.cfg := rfl

theorem phaseAfter_eq_map (n : Nat) (s : State) :
    phaseAfter n s = (skeletonOf (engineTurns n s)).map State.ph := by
  rw [phaseAfter]
  cases engineTurns n s <;> rfl

theorem skeleton_issued {s t : State} (hcfg : s.cfg = t.cfg) (hk : s.inp.klen = t.inp.klen)
    (hm : s.inp.mlen = t.inp.mlen) (hct : s.inp.ctlen = t.inp.ctlen) (i : Instr) :
    skeleton (issued i s) = skeleton (issued i t) := by
  simp only [skeleton, issued, beginCommand, issueActions, hcfg, hk, hm, hct]

/-- A step that invokes a primitive goes on in both states, if it fails in neither. -/
theorem skeletonOf_port {α : Type} {a b : Option α} (ha : a ≠ none) (hb : b ≠ none) {u v : State} {f g : α → State}
    (h : ∀ x y, skeleton (f x) = skeleton (g y)) :
    skeletonOf (.next (a.elim u f)) = skeletonOf (.next (b.elim v g)) := by
  obtain ⟨x, rfl⟩ := Option.ne_none_iff_exists'.mp ha
  obtain ⟨y, rfl⟩ := Option.ne_none_iff_exists'.mp hb
  exact congrArg some (h x y)

/-- `C_ENC`, in any state (R131). -/
theorem stepCEnc_eq_counter (s : State) :
    stepCEnc s = .next ((encPort s.cfg (cipherKey s) s.work.y).elim (raise .primitiveFailure s)
      fun x => goto (if s.work.blk + 1 < s.work.n - 1 then .cXor else .cFXor)
        { s with work := { s.work with x := x, blk := counter s.cfg (s.work.blk + 1) } }) := by
  unfold stepCEnc
  cases encPort s.cfg (cipherKey s) s.work.y <;> rfl

/-- The skeleton of a step's outcome depends on the skeleton of the state alone: the steps that invoke a primitive go on
with whatever it answers, and each successor is chosen by `IR`, a length or a counter (R163, R184). -/
theorem skeletonOf_engineStep {s : State} (hc : NeverFails s.cfg) :
    skeletonOf (engineStep s) = skeletonOf (engineStep (skeleton s)) := by
  have hir : irCommand (skeleton s) = irCommand s := rfl
  have henc (k b : Block) := Option.ne_none_iff_exists'.mp (hc.1 k b)
  have hhash (m : List Byte) := Option.ne_none_iff_exists'.mp (hc.2 m)
  cases hp : s.ph <;> rw [engineStep, engineStep, hp, show (skeleton s).ph = _ from hp]
  case vLen =>
    simp only [stepVLen, hir]
    cases irCommand s with
    | none => rfl
    | some i => cases i <;> simp only [apply_ite skeletonOf] <;> rfl
  case sChk =>
    simp only [stepSChk, apply_ite skeletonOf]
    rfl
  case sL =>
    rw [stepSL_eq, stepSL_eq]
    exact skeletonOf_port (hc.1 _ _) (hc.1 _ _) fun _ _ => rfl
  case cEnc =>
    rw [stepCEnc_eq_counter, stepCEnc_eq_counter]
    exact skeletonOf_port (hc.1 _ _) (hc.1 _ _) fun _ _ => rfl
  case hNorm =>
    rw [stepHNorm_eq, stepHNorm_eq]
    exact skeletonOf_port (normalizeKey_ne_none hc _) (normalizeKey_ne_none hc _) fun _ _ => rfl
  case hInner =>
    rw [stepHInner_eq, stepHInner_eq]
    exact skeletonOf_port (hc.2 _) (hc.2 _) fun _ _ => rfl
  case' cFEnc =>
    obtain ⟨x, hx⟩ := henc (cipherKey s) s.work.y
    obtain ⟨y, hy⟩ := henc (cipherKey (skeleton s)) (skeleton s).work.y
    simp only [stepCFEnc, hx, skeleton_cfg, hy]
  case' hOuter =>
    obtain ⟨d, hd⟩ := hhash (bytesOf s.work.opad ++ bytesOf s.work.idig)
    obtain ⟨e, he⟩ := hhash (bytesOf (skeleton s).work.opad ++ bytesOf (skeleton s).work.idig)
    simp only [stepHOuter, hd, skeleton_cfg, he]
  case sK2 | cFEnc | hOuter | oTag | oCmp =>
    simp only [stepSK2, stepOTag, stepOCmp, hir]
    cases irCommand s with
    | none => rfl
    | some i => cases i <;> rfl
  all_goals rfl

theorem skeletonOf_engineTurn {s : State} (hc : NeverFails s.cfg) :
    skeletonOf (engineTurn s) = skeletonOf (engineTurn (skeleton s)) := by
  cases hb : s.stat.busy with
  | false =>
    rw [engineTurn_idle s hb, engineTurn_idle (skeleton s) hb]
    rfl
  | true => rw [engineTurn_busy s hb, engineTurn_busy (skeleton s) hb, skeletonOf_engineStep hc]

theorem engineTurn_cfg {s t : State} (h : engineTurn s = .next t) : t.cfg = s.cfg := by
  obtain rfl | h := engineTurn_next h
  · rfl
  · obtain ⟨-, -, hcfg, -⟩ := engineStep_frame h
    exact hcfg

/-- Two runs from states with the same skeleton, side by side. -/
theorem skeletonOf_engineTurns {s t : State} (hc : NeverFails s.cfg) (h : skeleton s = skeleton t) (n : Nat) :
    skeletonOf (engineTurns n s) = skeletonOf (engineTurns n t) := by
  induction n generalizing s t with
  | zero => exact congrArg some h
  | succ n ih =>
    have hcfg : s.cfg = t.cfg := by rw [← skeleton_cfg s, h, skeleton_cfg]
    have hturn : skeletonOf (engineTurn s) = skeletonOf (engineTurn t) := by
      rw [skeletonOf_engineTurn hc, h, ← skeletonOf_engineTurn (hcfg ▸ hc)]
    rw [engineTurns, engineTurns]
    cases hs : engineTurn s <;> cases ht : engineTurn t <;> rw [hs, ht] at hturn
    case next.next u v =>
      have hc' : NeverFails u.cfg := engineTurn_cfg hs ▸ hc
      exact ih hc' (Option.some.inj hturn)
    -- Where one engine stops, so does the other.
    all_goals simp_all [skeletonOf]

/-- Settles O57, through the skeletons of the two runs, which are the same from the issue on. -/
theorem verifyStepsDependOnLengthsOnly : Obligations.VerifyStepsDependOnLengthsOnly := by
  intro alg s t _ _ hcfg hc hk hm hct n
  have hissued := skeleton_issued hcfg hk hm hct (verifyInstr alg)
  rw [phaseAfter_eq_map, phaseAfter_eq_map, skeletonOf_engineTurns (s := issued (verifyInstr alg) s) hc hissued n]

end Sys2Proof.Machine
end

section
/-! PROOFS. The statements of spec/44_system_and_sequencer.md: the issue of a command (R181, R182), the steps `O_TAG`,
`FIN` and `Z_CLR` (R188, R190, R199), `CLEAR` (R198), that the steps lead to what the whole command answers and are those
of the table (R185, R186), that the engine always goes on and every command ends (R183, R187), and how it ends (R191,
R246). That it goes on and ends is read off one measure, the turns that a command can still take (`turnsLeft`), which
every step in a state of the invariant lowers. -/

namespace Sys2Proof.Machine

/-! ## Issue -/

theorem issue_encode (i : Instr) (s : State) : issue (encode i) s = issued i s := by
  simp only [issue, decode_encode, issued]

/-- Settles O8: a legal word is issued as its command, an illegal one is rejected. -/
theorem commandIssue : Obligations.CommandIssue := by
  refine ⟨fun s i hb => ?_, fun s w e hb he => ?_, fun s w hb => hostWr_cmd_busy hb w⟩
  · rw [hostWr_cmd_idle hb, issue_encode]
    cases i <;> rfl
  · rw [hostWr_cmd_idle hb, issue_of_error he]
    simp only [rejectCommand, issueActions, hb]
    rfl

/-! ## `CLEAR` -/

theorem exec_clear_idle {s : State} (hb : s.stat.busy = false) :
    exec .clear s = .next (complete (wipeAll (issued .clear s))) := by
  rw [exec, execClear, runCommand_idle _ s _ hb]

theorem complete_wipeAll_issued (s : State) :
    complete (wipeAll (issued .clear s)) =
      endState .clear { s with inp := Inputs.zero } Outputs.zero false false .none := rfl

theorem engineTurns_issued_clear (s : State) :
    engineTurns 2 (issued .clear s) = .next (complete (wipeAll (issued .clear s))) := by
  rw [engineTurns_succ 1 (issued .clear s) (goto .fin (wipeAll (issued .clear s))) rfl rfl]
  exact engineTurns_fin (s := wipeAll (issued .clear s)) rfl 0

/-- After `CLEAR` the key has no byte, so that `SIGN.CMAC` finds its length wrong (R198). -/
theorem exec_signCmac_endState_clear (s : State) :
    ∃ u, exec .signCmac (endState .clear { s with inp := Inputs.zero } Outputs.zero false false .none) = .next u ∧
      u.stat.err = .keyLengthInvalid ∧ u.out = Outputs.zero := by
  have hk : Inputs.zero.klen ≠ 16 := by decide
  exact ⟨_, (exec_signCmac_idle rfl).trans (congrArg _ (if_pos hk)), rfl, rfl⟩

/-- Settles O19: `CLEAR` is `Z_CLR` and `FIN`, as one transition and as two turns of the engine. -/
theorem clearWipesTheEngine : Obligations.ClearWipesTheEngine := by
  intro s hb
  have hexec := (exec_clear_idle hb).trans (congrArg _ (complete_wipeAll_issued s))
  refine ⟨hexec, rfl, rfl, (engineTurns_issued_clear s).trans (exec_clear_idle hb).symm, fun t ht => ?_⟩
  rw [hexec] at ht
  cases ht
  exact ⟨Bool.true_and _, hostWr_status_idle rfl (by decide), exec_signCmac_endState_clear s⟩

/-! ## The steps `O_TAG`, `FIN` and `Z_CLR` -/

theorem complete_of_deriveCmac {s : State} (h : s.ir = encode .deriveCmac) :
    complete s = { s with
      work := Work.zero, stat := { s.stat with busy := false, done := true }, ph := .idle } := by
  rw [complete, if_pos h]

theorem complete_of_ne_deriveCmac {s : State} (h : s.ir ≠ encode .deriveCmac) :
    complete s = { s with
      work := Work.zero, out := { s.out with k1 := 0, k2 := 0 }
      stat := { s.stat with busy := false, done := true }, ph := .idle } := by
  rw [complete, if_neg h]

/-- Settles O45, step by step; `IR` tells the tag's length, and whether the subkeys stay. -/
theorem releaseCompletionAndWipe : Obligations.ReleaseCompletionAndWipe := by
  intro s hb
  refine ⟨fun hp hir => ?_, fun hp hir => ?_, fun hp hir => ?_, fun hp hir => ?_, fun hp => ?_⟩
  all_goals rw [engineTurn_busy s hb]
  · exact engineStep_tagPhase (i := .signHmac) (by decide) hir hp
  · exact engineStep_tagPhase (i := .signCmac) (by decide) hir hp
  · rw [engineStep, hp]
    exact congrArg _ (complete_of_deriveCmac hir)
  · rw [engineStep, hp]
    exact congrArg _ (complete_of_ne_deriveCmac hir)
  · rw [engineStep, hp]
    rfl

/-! ## The sequencer and the whole commands -/

/-- Settles O48: the invariant bounds the inputs, which is all that the runs of the steps need. -/
theorem sequencerRefinesCommands : Obligations.SequencerRefinesCommands :=
  fun _ i h hb => engineTurns_issued hb h.inputsFit i

/-- The engine is at the next phase of those it passes, after each turn. -/
theorem Passes.engineTurns_of_getElem? {ps : List Phase} {s : State} (h : Passes ps s) {k : Nat} {p : Phase}
    (hk : ps[k]? = some p) : ∃ t, engineTurns k s = .next t ∧ t.stat.busy = true ∧ t.ph = p := by
  induction ps generalizing s k with
  | nil => simp at hk
  | cons q ps ih =>
    obtain ⟨hb, hp, t, hstep, ht⟩ := h
    cases k with
    | zero => exact ⟨s, rfl, hb, hp.trans (Option.some.inj hk)⟩
    | succ k =>
      rw [engineTurns_succ k s t hb hstep]
      exact ih ht hk

/-- After as many turns as there are phases to pass the engine is idle and done. -/
theorem Passes.engineTurns_length {ps : List Phase} {s : State} (h : Passes ps s) :
    ∃ t, engineTurns ps.length s = .next t ∧ t.stat.busy = false ∧ t.stat.done = true := by
  induction ps generalizing s with
  | nil => exact ⟨s, rfl, h⟩
  | cons p ps ih =>
    obtain ⟨hb, -, t, hstep, ht⟩ := h
    rw [List.length_cons, engineTurns_succ ps.length s t hb hstep]
    exact ih ht

/-- Settles O49: the command passes the phases of its sequence, one per turn. -/
theorem commandsTakeTheStepsOfTheTable : Obligations.CommandsTakeTheStepsOfTheTable := by
  intro s i h _ hc hk
  have hpass := passes_phaseSequence h.inputsFit hc hk
  have hlen := length_phaseSequence i s
  exact ⟨hlen, fun _ _ hp => hpass.engineTurns_of_getElem? hp, hlen ▸ hpass.engineTurns_length⟩

/-! ## Progress -/

/-- An upper bound on the turns that a command still takes, from its phase; in the loop, by the blocks left to chain
(R185). -/
def turnsLeft (s : State) : Nat :=
  match s.ph with
  | .idle => 0
  | .fin => 1
  | .dDbl => 2
  | .zClr => 2
  | .oTag => 2
  | .oCmp => 2
  | .hOuter => 3
  | .hInner => 4
  | .hPads => 5
  | .hNorm => 6
  | .cFEnc => 3
  | .cFXor => 4
  | .cEnc => 2 * (s.work.n - 1 - s.work.blk) + 3
  | .cXor => 2 * (s.work.n - 1 - s.work.blk) + 4
  | .cSel => 2 * blockCount s.inp.mlen.toNat + 3
  | .cInit => 2 * blockCount s.inp.mlen.toNat + 4
  | .sK2 => 2 * blockCount s.inp.mlen.toNat + 5
  | .sK1 => 2 * blockCount s.inp.mlen.toNat + 6
  | .sL => 2 * blockCount s.inp.mlen.toNat + 7
  | .sChk => 2 * blockCount s.inp.mlen.toNat + 8
  | .vLen => 2 * blockCount s.inp.mlen.toNat + 9

/-- The bound at each phase is within that of the longest sequence, `VERIFY.CMAC` (R185). -/
theorem Inv.turnsLeft_le {s : State} (h : Inv s) : turnsLeft s ≤ 2 * blockCount s.inp.mlen.toNat + 9 := by
  have hloop := h.loopCount
  cases hp : s.ph <;> rw [hp] at hloop <;> simp only [turnsLeft, hp]
  case cXor | cEnc =>
    obtain ⟨hn, -⟩ := hloop (by decide)
    omega
  all_goals omega

/-- The machine goes on, to a state with fewer than `n` turns left. -/
def Advances (n : Nat) (r : Result) : Prop := ∃ t, r = .next t ∧ turnsLeft t < n

theorem advances_next {n : Nat} {t : State} (h : turnsLeft t < n) : Advances n (.next t) := ⟨t, rfl, h⟩

/-- A step that invokes a primitive: an abort leaves no turn to take. -/
theorem advances_port {α : Type} {n : Nat} {k : ErrKind} {s : State} {answer : Option α} {next : α → State}
    (h : ∀ a, turnsLeft (next a) < n) (hn : 0 < n) : Advances n (.next (answer.elim (raise k s) next)) := by
  cases answer with
  | none => exact advances_next hn
  | some a => exact advances_next (h a)

theorem turnsLeft_goto_loop (s : State) :
    turnsLeft (goto (if s.work.blk < s.work.n - 1 then .cXor else .cFXor) s) =
      2 * (s.work.n - 1 - s.work.blk) + 4 := by
  split
  case isTrue => rfl
  case isFalse hlt =>
    have h0 : s.work.n - 1 - s.work.blk = 0 := by omega
    rw [h0]
    rfl

theorem turnsLeft_goto_tagPhase (i : Instr) (s : State) : turnsLeft (goto (tagPhase i) s) = 2 := by cases i <;> rfl

theorem turnsLeft_goto_afterSubkeys (i : Instr) (s : State) :
    turnsLeft (goto (afterSubkeys i) s) ≤ 2 * blockCount s.inp.mlen.toNat + 4 := by
  unfold afterSubkeys
  split
  case isTrue => exact Nat.succ_le_of_lt (Nat.succ_pos _)
  case isFalse => exact Nat.le_refl _

theorem turnsLeft_goto_firstPhase_sign (alg : Alg) (s : State) :
    turnsLeft (goto (firstPhase (signInstr alg)) s) ≤ 2 * blockCount s.inp.mlen.toNat + 8 := by
  cases alg with
  | hmacSha256 => exact Nat.le_add_left 6 _
  | cmacAes128 => exact Nat.le_refl _

/-- Only a `VERIFY` has the step `V_LEN` (R185). -/
theorem exists_verifyInstr_of_mem {i : Instr} (hm : .vLen ∈ phasesOf i) : ∃ alg, i = verifyInstr alg := by
  have hi : i = verifyInstr .hmacSha256 ∨ i = verifyInstr .cmacAes128 := by
    revert hm
    cases i <;> decide
  exact hi.elim (⟨_, ·⟩) (⟨_, ·⟩)

/-- `V_LEN` goes on to `FIN`, or to the steps of the `SIGN` of the same algorithm. -/
theorem advances_stepVLen {alg : Alg} {s : State} (hir : s.ir = encode (verifyInstr alg)) :
    Advances (2 * blockCount s.inp.mlen.toNat + 9) (stepVLen s) := by
  by_cases hl : s.inp.ctlen.toNat = tagLen (verifyInstr alg)
  · rw [stepVLen_of_eq hir hl]
    exact advances_next (Nat.lt_succ_of_le (turnsLeft_goto_firstPhase_sign alg s))
  · rw [stepVLen_of_ne hir hl]
    exact advances_next (Nat.succ_lt_succ (Nat.succ_pos _))

/-- Every step of a command in progress goes on and lowers the turns left: `IR` tells the successor of the steps that
several commands share, and in the loop `C_ENC` passes one of the blocks left. -/
theorem Inv.advances_engineStep {s : State} (h : Inv s) (hb : s.stat.busy = true) :
    Advances (turnsLeft s) (engineStep s) := by
  obtain ⟨i, hi, hm⟩ := h.sequence hb
  have hir := ir_of_irCommand hi
  have hloop := h.loopCount
  have hinside := h.loopInside
  cases hp : s.ph <;> rw [hp] at hm hloop hinside <;> simp only [turnsLeft, hp]
  case idle => exact absurd hp (h.busyPhase.mp hb)
  case oTag | oCmp =>
    have htag : i ∈ tagInstrs ∧ s.ph = tagPhase i := by
      rw [hp]
      revert hm
      cases i <;> decide
    rw [engineStep_tagPhase htag.1 hir htag.2]
    exact advances_next (Nat.lt_succ_self _)
  all_goals simp only [engineStep, hp]
  case vLen =>
    obtain ⟨alg, rfl⟩ := exists_verifyInstr_of_mem hm
    exact advances_stepVLen hir
  case sChk =>
    unfold stepSChk
    split
    · exact advances_next (Nat.succ_pos _)
    · exact advances_next (Nat.lt_succ_self _)
  case sL =>
    rw [stepSL_eq]
    exact advances_port (fun _ => Nat.lt_succ_self _) (Nat.succ_pos _)
  case sK2 =>
    have hsub : i ∈ subkeyInstrs := by
      revert hm
      cases i <;> decide
    rw [stepSK2_eq hsub hir]
    exact advances_next (Nat.lt_succ_of_le (turnsLeft_goto_afterSubkeys i _))
  case cSel =>
    obtain ⟨hn, -⟩ := hloop (by decide)
    refine advances_next ((turnsLeft_goto_loop _).trans_lt ?_)
    dsimp only
    have hpos := blockCount_pos s.inp.mlen.toNat
    omega
  case cEnc =>
    have hlt := hinside (.inr rfl)
    rw [stepCEnc_eq (h.blk_succ_lt hp)]
    refine advances_port (fun _ => (turnsLeft_goto_loop _).trans_lt ?_) (Nat.succ_pos _)
    dsimp only
    omega
  case cFEnc =>
    obtain ⟨j, hj, hirj⟩ := h.ir_of_cFEnc hb hp
    rw [stepCFEnc_eq hj hirj]
    exact advances_port (fun _ => (turnsLeft_goto_tagPhase j _).trans_lt (Nat.lt_succ_self _)) (Nat.succ_pos _)
  case hNorm =>
    rw [stepHNorm_eq]
    exact advances_port (fun _ => Nat.lt_succ_self _) (Nat.succ_pos _)
  case hInner =>
    rw [stepHInner_eq]
    exact advances_port (fun _ => Nat.lt_succ_self _) (Nat.succ_pos _)
  case hOuter =>
    have hhmac : i = .signHmac ∨ i = .verifyHmac := by
      revert hm
      cases i <;> decide
    rw [stepHOuter_eq hhmac hir]
    exact advances_port (fun _ => (turnsLeft_goto_tagPhase i _).trans_lt (Nat.lt_succ_self _)) (Nat.succ_pos _)
  all_goals exact advances_next (Nat.lt_succ_self _)

theorem Inv.exists_engineStep {s : State} (h : Inv s) (hb : s.stat.busy = true) : ∃ t, engineStep s = .next t :=
  (h.advances_engineStep hb).imp fun _ ht => ht.1

theorem Inv.exists_engineTurn {s : State} (h : Inv s) : ∃ t, engineTurn s = .next t := by
  cases hb : s.stat.busy with
  | true =>
    rw [engineTurn_busy s hb]
    exact h.exists_engineStep hb
  | false => exact ⟨s, engineTurn_idle s hb⟩

theorem exists_performCommand (w : Word) (s : State) : ∃ t, performCommand w s = .next t := by
  unfold performCommand
  split
  · exact exec_next _ s
  · exact ⟨_, rfl⟩

theorem Inv.exists_performWait {s : State} (h : Inv s) : ∃ t, performWait s = .next t := by
  unfold performWait
  split
  case isTrue hb => exact (h.setOther s.ie (.wait :: s.script) s.answers).exists_engineStep hb
  case isFalse =>
    split
    · exact ⟨_, rfl⟩
    · exact ⟨_, rfl⟩

/-- Every event answers a next state: only those that let the engine step can stop the machine, and in a state of the
invariant they do not. -/
theorem Inv.exists_perform {s : State} (h : Inv s) (e : Event) : ∃ t, perform e s = .next t := by
  cases e with
  | engine => exact h.exists_engineTurn
  | wait => exact h.exists_performWait
  | command w => exact exists_performCommand w s
  | hostRd n => exact ⟨_, rfl⟩
  | hostWr n w => exact ⟨_, rfl⟩
  | hostRdB sp i => exact ⟨_, rfl⟩
  | hostWrB sp i b => exact ⟨_, rfl⟩
  | reset => exact ⟨_, rfl⟩
  | read sp => exact ⟨_, rfl⟩

/-- Settles O53: the engine's turn goes on, and so does every event. -/
theorem machineAlwaysContinues : Obligations.MachineAlwaysContinues := by
  intro s h
  unfold Continues step
  split
  · exact h.exists_engineTurn
  · exact (h.setOther _ _ _).exists_perform _

/-- The step with which a command ends sets `DONE` (R190, R246). -/
theorem done_of_engineStep_ends {s t : State} (h : engineStep s = .next t) (hb : s.stat.busy = true)
    (ht : t.stat.busy = false) : t.stat.done = true := by
  obtain ⟨k, rfl⟩ | ⟨-, rfl⟩ | ⟨hbusy, -⟩ := engineStep_next s t h
  · rfl
  · rfl
  · rw [hbusy, hb] at ht
    cases ht

/-- A command in progress ends within the turns left. -/
theorem Inv.engineTurns_ends {n : Nat} {s : State} (h : Inv s) (hb : s.stat.busy = true) (hn : turnsLeft s ≤ n) :
    ∃ m t, m ≤ n ∧ engineTurns m s = .next t ∧ t.stat.busy = false ∧ t.stat.done = true := by
  induction n generalizing s with
  | zero =>
    obtain ⟨t, -, hlt⟩ := h.advances_engineStep hb
    omega
  | succ n ih =>
    obtain ⟨t, ht, hlt⟩ := h.advances_engineStep hb
    cases hbt : t.stat.busy with
    | false => exact ⟨1, t, Nat.succ_pos n, engineTurns_succ 0 s t hb ht, hbt, done_of_engineStep_ends ht hb hbt⟩
    | true =>
      have hinv : Inv t := inv_engineStep h hb t ht
      obtain ⟨m, u, hm, hu, hend⟩ := ih hinv hbt (by omega)
      exact ⟨m + 1, u, Nat.succ_le_succ hm, (engineTurns_succ m s t hb ht).trans hu, hend⟩

/-- Settles O54, from the bound on the turns left. -/
theorem commandsInProgressEnd : Obligations.CommandsInProgressEnd :=
  fun _ h hb => h.engineTurns_ends hb h.turnsLeft_le

/-! ## How a command ends -/

/-- The checks and invocations whose failure aborts a command, step by step, each with the error it raises (R191,
R241, R242). -/
def AbortCause (s : State) (k : ErrKind) : Prop :=
  (s.ph = .sChk ∧ s.inp.klen ≠ 16 ∧ k = .keyLengthInvalid) ∨
    (((s.ph = .sL ∧ encPort s.cfg (cipherKey s) 0 = none) ∨
        ((s.ph = .cEnc ∨ s.ph = .cFEnc) ∧ encPort s.cfg (cipherKey s) s.work.y = none) ∨
        (s.ph = .hNorm ∧ 64 < s.inp.klen.toNat ∧ hashPort s.cfg (keyBytes s) = none) ∨
        (s.ph = .hInner ∧ hashPort s.cfg (bytesOf s.work.ipad ++ msgBytes s) = none) ∨
        (s.ph = .hOuter ∧ hashPort s.cfg (bytesOf s.work.opad ++ bytesOf s.work.idig) = none)) ∧
      k = .primitiveFailure)

/-- Where `t` is idle, the step of `s` that led to it was `FIN` or an abort with its cause. -/
def EndsPrecisely (s t : State) : Prop :=
  t.stat.busy = false → s.ph = .fin ∨ ∃ k, AbortCause s k ∧ t = raise k s

theorem endsPrecisely_raise {s : State} {k : ErrKind} (h : AbortCause s k) : EndsPrecisely s (raise k s) :=
  fun _ => .inr ⟨k, h, rfl⟩

section Ends

variable {s : State} (hb : s.stat.busy = true)

include hb

theorem endsPrecisely_of_busy {t : State} (h : t.stat.busy = s.stat.busy) : EndsPrecisely s t := fun ht => by
  rw [h, hb] at ht
  cases ht

/-- A step that invokes a primitive and has one successor. -/
theorem endsPrecisely_port {α : Type} {answer : Option α} {next : α → State}
    (hcause : answer = none → AbortCause s .primitiveFailure) (hnext : ∀ a, (next a).stat.busy = s.stat.busy) :
    NextSatisfies (EndsPrecisely s) (.next (answer.elim (raise .primitiveFailure s) next)) := by
  cases answer with
  | none => exact nextSatisfies_next (endsPrecisely_raise (hcause rfl))
  | some a => exact nextSatisfies_next (endsPrecisely_of_busy hb (hnext a))

theorem endsPrecisely_stepCFEnc (hp : s.ph = .cFEnc) : NextSatisfies (EndsPrecisely s) (stepCFEnc s) := by
  unfold stepCFEnc
  split
  case h_1 hfail => exact nextSatisfies_next (endsPrecisely_raise (.inr ⟨.inr (.inl ⟨.inr hp, hfail⟩), rfl⟩))
  case h_2 =>
    dsimp only
    split
    · exact nextSatisfies_next (endsPrecisely_of_busy hb rfl)
    · exact nextSatisfies_next (endsPrecisely_of_busy hb rfl)
    · exact nextSatisfies_fault _ _

theorem endsPrecisely_stepHOuter (hp : s.ph = .hOuter) : NextSatisfies (EndsPrecisely s) (stepHOuter s) := by
  unfold stepHOuter
  split
  case h_1 hfail =>
    exact nextSatisfies_next (endsPrecisely_raise (.inr ⟨.inr (.inr (.inr (.inr ⟨hp, hfail⟩))), rfl⟩))
  case h_2 =>
    dsimp only
    split
    · exact nextSatisfies_next (endsPrecisely_of_busy hb rfl)
    · exact nextSatisfies_next (endsPrecisely_of_busy hb rfl)
    · exact nextSatisfies_fault _ _

omit hb in
/-- `H_NORM` fails only at the digest of a long key (R142, R146). -/
theorem hashPort_of_normalizeKey_none (h : normalizeKey s.cfg (keyBytes s) = none) :
    64 < s.inp.klen.toNat ∧ hashPort s.cfg (keyBytes s) = none := by
  by_cases hlong : 64 < (keyBytes s).length
  · rw [normalizeKey_of_long hlong, Option.map_eq_none_iff] at h
    exact ⟨hlong.trans_eq (length_keyBytes s), h⟩
  · rw [normalizeKey_of_short (Nat.not_lt.mp hlong)] at h
    cases h

/-- R191: a step other than `FIN` leaves the engine idle only by an abort. -/
theorem endsPrecisely_engineStep : NextSatisfies (EndsPrecisely s) (engineStep s) := by
  cases hp : s.ph <;> simp only [engineStep, hp]
  case fin => exact nextSatisfies_next fun _ => .inl hp
  case sChk =>
    unfold stepSChk
    split
    case isTrue hk => exact nextSatisfies_next (endsPrecisely_raise (.inl ⟨hp, hk, rfl⟩))
    case isFalse => exact nextSatisfies_next (endsPrecisely_of_busy hb rfl)
  case sL =>
    rw [stepSL_eq]
    exact endsPrecisely_port hb (fun hfail => .inr ⟨.inl ⟨hp, hfail⟩, rfl⟩) fun _ => rfl
  case cEnc =>
    rw [stepCEnc_eq_counter]
    exact endsPrecisely_port hb (fun hfail => .inr ⟨.inr (.inl ⟨.inl hp, hfail⟩), rfl⟩) fun _ => rfl
  case cFEnc => exact endsPrecisely_stepCFEnc hb hp
  case hNorm =>
    rw [stepHNorm_eq]
    exact endsPrecisely_port hb
      (fun hfail => .inr ⟨.inr (.inr (.inl ⟨hp, hashPort_of_normalizeKey_none hfail⟩)), rfl⟩) fun _ => rfl
  case hInner =>
    rw [stepHInner_eq]
    exact endsPrecisely_port hb (fun hfail => .inr ⟨.inr (.inr (.inr (.inl ⟨hp, hfail⟩))), rfl⟩) fun _ => rfl
  case hOuter => exact endsPrecisely_stepHOuter hb hp
  case vLen | sK2 | oTag | oCmp =>
    intro t ht
    simp only [stepVLen, stepSK2, stepOTag, stepOCmp] at ht
    repeat' split at ht
    all_goals cases ht
    all_goals exact endsPrecisely_of_busy hb rfl
  case idle => exact nextSatisfies_fault _ _
  all_goals exact nextSatisfies_next (endsPrecisely_of_busy hb rfl)

end Ends

/-- Settles O46, from how a step of a command in progress can leave the engine idle. -/
theorem abortsArePrecise : Obligations.AbortsArePrecise := by
  intro s t hb h ht
  rw [engineTurn_busy s hb] at h
  exact endsPrecisely_engineStep hb t h ht

end Sys2Proof.Machine
end

section
/-! PROOFS. The statement of spec/48_primitives.md: a hash fed piece by piece (R215, R216). -/

namespace Sys2Proof.Machine

/-- What a feed holds after some pieces is what it held before them, and then the pieces in order. -/
theorem foldl_hashUpdate (pieces : List (List Byte)) (h : HashFeed) :
    pieces.foldl hashUpdate h = h ++ pieces.flatten := by
  induction pieces generalizing h with
  | nil => simp only [List.foldl_nil, List.flatten_nil, List.append_nil]
  | cons piece rest ih => rw [List.foldl_cons, ih, hashUpdate, List.append_assoc, List.flatten_cons]

/-- Settles O29, from what the feed holds after its pieces, with nothing in it at `Init`. -/
theorem incrementalFeeding : Obligations.IncrementalFeeding := by
  intro c pieces
  rw [foldl_hashUpdate, hashInit, List.nil_append, hashFinal]

end Sys2Proof.Machine
end
